-- ==== Sys2Proof/Word.lean ====
section
/-! DEFINITION. The word types of the block (spec/00_scope.md rules R9, R10, R12). Every value the spec calls `uN`
is a `BitVec N`; arithmetic in the rules is exact, so the operations compute on `Nat` (`toNat`) and narrow at the end. -/

namespace Sys2Proof

/-- One byte of a byte string or of a FIFO's byte memory (R52, R54). -/
abbrev Byte := BitVec 8

/-- One word of the command or response port (R70), a `u32` (R9). -/
abbrev Word := BitVec 32

/-- A `u64` (R9): an absolute sequence number, a stream index, a byte counter, a time. -/
abbrev Quad := BitVec 64

/-- A 48-bit Ethernet address as its numeric value (R12). -/
abbrev EthAddr := BitVec 48

/-- A 32-bit IPv4 address as its numeric value (R12). -/
abbrev IpAddr := BitVec 32

end Sys2Proof
end

