-- ==== Sys2Proof/Config.lean ====
section
/-! DEFINITION. What an implementation fixes: the five build-time parameters (spec/00_scope.md R6) and the constants
the source fixes (R8). The parameters are a record that State carries (registers SYS.CAP_MAX .. SYS.N_FRAME, R22), so a
statement about every state is a statement about every legal parameter value. -/

namespace Sys2Proof

/-- The five build-time parameters of R6, each readable as a 32-bit SYS register (R22). -/
structure Params where
  /-- `CAP_MAX`: the largest FIFO / reassembler capacity an INIT command accepts. -/
  capMax : Word
  /-- `N_OUT`: the capacity of unit T's outstanding-descriptor queue. -/
  nOut : Word
  /-- `N_ARP`: the capacity of unit A's ARP table. -/
  nArp : Word
  /-- `N_PEND`: the capacity of unit A's pending-datagram store. -/
  nPend : Word
  /-- `N_FRAME`: the capacity of unit A's outbound frame FIFO. -/
  nFrame : Word
  deriving DecidableEq, Repr

/-- R6's legal values: each parameter is in `1 .. 2^32 - 1`. -/
abbrev Params.Legal (p : Params) : Prop :=
  p.capMax ≠ 0 ∧ p.nOut ≠ 0 ∧ p.nArp ≠ 0 ∧ p.nPend ≠ 0 ∧ p.nFrame ≠ 0

/-- DESIGN CHOICE (log entry 1): the parameter values of `State.reset`, the ones spec/95_test_vectors.md and decision D10
assume. The spec leaves them OPEN; every statement that matters is made for an arbitrary `Params`. -/
def Config.params : Params :=
  { capMax := 65536#32, nOut := 8#32, nArp := 4#32, nPend := 4#32, nFrame := 8#32 }

/-- `SYS.VERSION` reads the constant 1 (R22, decision D38). -/
def Config.version : Word := 1#32

/-- `ARP_WAIT_TIME = 5000` ms (R8). -/
def Config.arpWait : Nat := 5000

/-- `ARP_STALE_TIME = 30000` ms (R8). -/
def Config.arpStale : Nat := 30000

/-- The Ethernet broadcast address `FF:FF:FF:FF:FF:FF`, numeric value `2^48 - 1` (R8, R221). -/
def Config.broadcast : EthAddr := 0xFFFFFFFFFFFF#48

/-- The Ethernet zero address `00:00:00:00:00:00` (R8, R221). -/
def Config.ethZero : EthAddr := 0#48

/-- DESIGN CHOICE (log entry 2): what a cell of `F[i].MEM` that nothing has written reads as. The spec leaves it
unspecified and unobservable (R25, R27, spec/93_implementation_defined.md U1). -/
def Config.unwrittenByte : Byte := 0#8

end Sys2Proof
end

