-- ==== Sys2Proof/Syntax.lean ====
section
/-! DEFINITION. The syntax of the command port: frames (spec/30_encoding.md R70) and the 27 commands of the opcode map
(R78), one constructor of `Instr` per row of spec/opcode_table.json. -/

namespace Sys2Proof

/-- A frame of the command or response port: a finite, non-empty list of 32-bit words (R70), its first word apart. -/
structure Frame where
  header : Word
  tail : List Word
  deriving DecidableEq, Repr

/-- The FIFO instance a unit F command names in header bit 20 (R24, R74). -/
inductive FifoId where
  /-- `F[0]`, the host's own FIFO. -/
  | f0
  /-- `F[1]`, the output stream unit R owns. -/
  | f1
  deriving DecidableEq, Repr

/-- The opcode of an ARP message (R35), by name; its port codes are R77's. -/
inductive ArpOp where
  | request
  | reply
  deriving DecidableEq, Repr

/-- The 27 commands (R78). An operand is what R79's decoding reads: a 64-bit value is its two words `hi ++ lo` (R12);
an Ethernet address operand (`eth`, `dst`, `senderEth`, `targetEth`) is also kept as its two words, because R76's check
of the unused bits 63..48 is made at execution; so is T.ACK's `window` word. -/
inductive Instr where
  | nop
  | rdreg (id : BitVec 16)
  | sreset
  | wAdd (w off : Word)
  | wDiff (a b : Word)
  | wWrap (n : Quad) (isn : Word)
  | wUnwrap (w isn : Word) (checkpoint : Quad)
  | fInit (inst : FifoId) (cap : Word)
  | fWrite (inst : FifoId) (data : List Byte)
  | fPeek (inst : FifoId) (n : BitVec 16)
  | fPop (inst : FifoId) (n : BitVec 16)
  | fEnd (inst : FifoId)
  | fSetErr (inst : FifoId)
  | rInit (cap : Word)
  | rPush (eof : Bool) (index : Quad) (data : List Byte)
  | tInit (isn initialRto maxRetx : Word)
  | tSent (len : BitVec 16)
  | tAck (ackno window : Word)
  | tTick (ms : Word)
  | tSeqno
  | aInit (eth : Quad) (ip : IpAddr)
  | aSend (nextHop : IpAddr) (dgram : List Byte)
  | aRecvIp (parseOk : Bool) (dst : Quad)
  | aRecvArp (parseOk : Bool) (op : ArpOp) (dst : Quad) (senderIp : IpAddr) (senderEth : Quad) (targetIp : IpAddr) (targetEth : Quad)
  | aTick (ms : Word)
  | aPopF
  | aLookup (ip : IpAddr)
  deriving DecidableEq, Repr

end Sys2Proof
end

