-- ==== Sys2Proof/Machine/State.lean ====
section
/-! DEFINITION. The architectural state of the block (spec/10_state.md), unit by unit, with the two ports (R70, R71), the
reasons a step can stop, and the state after reset (spec/70_reset_and_hazards.md R321). -/

namespace Sys2Proof.Machine

/-- One FIFO instance `F[i]` (R25). -/
structure Fifo where
  /-- `CAP`: capacity in bytes. -/
  cap : Word
  /-- `BW`: total bytes ever accepted. -/
  bw : Quad
  /-- `BR`: total bytes ever popped. -/
  br : Quad
  /-- `WP`: the cell the next accepted byte goes to. -/
  wp : Word
  /-- `RP`: the cell holding the oldest byte. -/
  rp : Word
  /-- `FLAGS`: bit 0 `input_ended`, bit 1 `error`. -/
  flags : BitVec 2
  /-- `MEM`: the circular byte memory, as (cell, byte) pairs in canonical form (`Mem.wf`). -/
  mem : List Host.Cell
  deriving DecidableEq, Repr

/-- A stored segment of unit R: `(start, data)` (R28). -/
structure Seg where
  start : Quad
  data : List Byte
  deriving DecidableEq, Repr

/-- Unit R (R28). -/
structure Reasm where
  /-- `CAP`; always equal to `F[1].CAP`. -/
  cap : Word
  /-- `NEXT`: `next_index`, the first byte not yet written to the output. -/
  next : Quad
  /-- `HASEOF`, sticky. -/
  hasEof : Bool
  /-- `SEG`: the stored segments in increasing order of `start`. -/
  seg : List Seg
  deriving DecidableEq, Repr

/-- A descriptor of an outstanding segment: `(abs_seqno, len)` (R30, R181). -/
structure Desc where
  absSeqno : Quad
  len : BitVec 16
  deriving DecidableEq, Repr

/-- Unit T (R30). -/
structure Timer where
  isn : Word
  initRto : Word
  maxRetx : Word
  nextSeqno : Quad
  lastAckno : Quad
  window : BitVec 16
  /-- `OUTB`: `outstanding_bytes`. -/
  outb : Quad
  /-- `RTO`: the current retransmission timeout, ms. -/
  rto : Word
  /-- `TIMER`: ms since the last restart. -/
  timer : Word
  running : Bool
  /-- `CONSEC`: `consecutive_retransmissions`. -/
  consec : Word
  /-- `OUTQ`: the outstanding descriptors, oldest first. -/
  outq : List Desc
  deriving DecidableEq, Repr

/-- An ARP table entry (R33); `reachable = false` is a pending entry (R220). -/
structure ArpEntry where
  ip : IpAddr
  eth : EthAddr
  reachable : Bool
  expire : Quad
  deriving DecidableEq, Repr

/-- A datagram waiting for its next hop's address (R33). -/
structure Pending where
  ip : IpAddr
  dgram : List Byte
  deriving DecidableEq, Repr

/-- An ARP message record (R35). -/
structure ArpMsg where
  opcode : ArpOp
  senderIp : IpAddr
  senderEth : EthAddr
  targetIp : IpAddr
  targetEth : EthAddr
  deriving DecidableEq, Repr

/-- The type and body of an outbound Ethernet frame (R35). -/
inductive EthBody where
  | ipv4 (dgram : List Byte)
  | arp (msg : ArpMsg)
  deriving DecidableEq, Repr

/-- An outbound Ethernet frame (R35). -/
structure EthFrame where
  dst : EthAddr
  src : EthAddr
  body : EthBody
  deriving DecidableEq, Repr

/-- Unit A (R33). -/
structure Arp where
  eth : EthAddr
  ip : IpAddr
  /-- `NOW`: `current_time_ms`. -/
  now : Quad
  /-- `TAB`: the ARP table, in order of insertion. -/
  tab : List ArpEntry
  /-- `PEND`: the pending datagrams, in order of arrival. -/
  pend : List Pending
  /-- `OUTF`: the outbound Ethernet frames, oldest first. -/
  outf : List EthFrame
  deriving DecidableEq, Repr

/-- What the outside presents to the block between two commands (log entry 3): a command frame (R70), or the platform's
reset signal (R320; an event between commands, spec/93_implementation_defined.md U12). -/
inductive Input where
  | command (fr : Frame)
  | reset
  deriving DecidableEq, Repr

/-- The state of the block. -/
structure State where
  /-- The command port: inputs the block has not looked at yet, oldest first (R51, R57, R70). -/
  port : List Input
  /-- The response port: the responses produced so far, oldest first (R70, R71). -/
  rsp : List Frame
  /-- The build-time parameters, registers `SYS.CAP_MAX` .. `SYS.N_FRAME` (R6, R22). No step changes them. -/
  params : Params
  /-- `SYS.CFGD` (R22): bit 0 `F[0]`, bit 1 unit R and `F[1]`, bit 2 unit T, bit 3 unit A. -/
  cfgd : BitVec 4
  /-- `F[0]`. -/
  f0 : Fifo
  /-- `F[1]`. -/
  f1 : Fifo
  /-- Unit R. -/
  r : Reasm
  /-- Unit T. -/
  t : Timer
  /-- Unit A. -/
  a : Arp
  deriving DecidableEq, Repr

/-- The machine never faults: "there is no trap entry" (R295), and spec/93_implementation_defined.md says that in this
block `fault` never applies. So there is no reason to name; safe, since a refusal of the block is a next state (R291). -/
inductive Fault where
  deriving DecidableEq, Repr

/-- Why the MODEL would have no meaning for a command. No arm of `exec` uses it: a refusal of the block (R290) is a next
state with a response, not this. -/
inductive Refusal where
  /-- An instruction without a meaning, named by its mnemonic. Nobody raises it (every command is modelled); it would be
  safe, because the model would stop. -/
  | notModelled (mnemonic : String)
  deriving DecidableEq, Repr

/-- A FIFO instance after reset (R321). `MEM` is unspecified there: nothing is listed (log entry 2). -/
def Fifo.reset : Fifo :=
  { cap := 0#32, bw := 0#64, br := 0#64, wp := 0#32, rp := 0#32, flags := 0#2, mem := [] }

/-- Unit R after reset (R321). -/
def Reasm.reset : Reasm := { cap := 0#32, next := 0#64, hasEof := false, seg := [] }

/-- Unit T after reset (R321): every value 0 or empty but `WINDOW = 1`. -/
def Timer.reset : Timer :=
  { isn := 0#32, initRto := 0#32, maxRetx := 0#32, nextSeqno := 0#64, lastAckno := 0#64, window := 1#16, outb := 0#64,
    rto := 0#32, timer := 0#32, running := false, consec := 0#32, outq := [] }

/-- Unit A after reset (R321). -/
def Arp.reset : Arp := { eth := 0#48, ip := 0#32, now := 0#64, tab := [], pend := [], outf := [] }

/-- The block right after reset, for given parameters (R321): nothing configured, both ports empty. -/
def State.resetWith (p : Params) : State :=
  { port := [], rsp := [], params := p, cfgd := 0#4, f0 := Fifo.reset, f1 := Fifo.reset, r := Reasm.reset,
    t := Timer.reset, a := Arp.reset }

/-- The block right after reset (R321), with the parameters of log entry 1. -/
def State.reset : State := State.resetWith Config.params

end Sys2Proof.Machine
end

