-- ==== Sys2Proof/Machine/Flags.lean ====
section
/-! DEFINITION. The flag-like state of the block (spec/10_state.md R36): the bits of `SYS.CFGD` (R22) and of a FIFO's
`FLAGS` (R25), and the flag words two commands return (spec/43_rtx_timer.md R199, spec/44_arp.md R244). -/

namespace Sys2Proof.Machine

/-- The units that have a bit in `SYS.CFGD`, by the bit's number (R22). -/
inductive CfgUnit where
  /-- bit 0: `F[0]` -/
  | fifo0
  /-- bit 1: unit R and `F[1]` -/
  | reasm
  /-- bit 2: unit T -/
  | timer
  /-- bit 3: unit A -/
  | arp
  deriving DecidableEq, Repr

/-- The mask of a unit's bit in `SYS.CFGD` (R22). -/
def cfgMask : CfgUnit → BitVec 4
  | .fifo0 => 0b0001#4
  | .reasm => 0b0010#4
  | .timer => 0b0100#4
  | .arp => 0b1000#4

/-- The unit whose bit says that a FIFO instance is configured: bit `i` (R22, spec/41_fifo.md section 2). -/
def cfgOfFifo : FifoId → CfgUnit
  | .f0 => .fifo0
  | .f1 => .reasm

/-- The unit has been configured since reset (R290, R323). -/
def configured (u : CfgUnit) (s : State) : Bool := s.cfgd &&& cfgMask u ≠ 0#4

/-- `SYS.CFGD` with the unit's bit set, as its INIT command leaves it (R128, R159, R196, R241). -/
def cfgdWith (u : CfgUnit) (s : State) : BitVec 4 := s.cfgd ||| cfgMask u

/-- `input_ended`: bit 0 of `FLAGS` (R25). -/
def Fifo.inputEnded (f : Fifo) : Bool := f.flags.getLsbD 0

/-- `error`: bit 1 of `FLAGS` (R25). -/
def Fifo.errorFlag (f : Fifo) : Bool := f.flags.getLsbD 1

/-- `F_end_input`: `input_ended <- 1`, sticky (R127). -/
def Fifo.endInput (f : Fifo) : Fifo := { f with flags := f.flags ||| 0b01#2 }

/-- `F_set_error`: `error <- 1`, sticky (R127). -/
def Fifo.setError (f : Fifo) : Fifo := { f with flags := f.flags ||| 0b10#2 }

/-- T.TICK's `flags` word: bit 0 `expired`, bit 1 `retransmit` (R199). -/
def tickFlags (expired retransmit : Bool) : Word :=
  (if expired then 1#32 else 0#32) ||| (if retransmit then 2#32 else 0#32)

/-- A.RECVARP's `flags` word: bit 0 `learned`, bit 1 `replied` (R244). -/
def arpFlags (learned replied : Bool) : Word :=
  (if learned then 1#32 else 0#32) ||| (if replied then 2#32 else 0#32)

end Sys2Proof.Machine
end

