-- ==== Sys2Proof/WellFormed.lean ====
section
/-! DEFINITION. Which terms of `Instr` are commands: the payload of the three payload commands has a length the 16-bit
header field LEN can hold (spec/30_encoding.md R72, R74; R129, R160, R242: `LEN` is `0 .. 65535`). Every other operand is
bounded by its type. -/

namespace Sys2Proof

/-- A payload length fits the 16-bit `LEN` field (R74). -/
def lenFits (data : List Byte) : Bool := data.length < 65536

/-- The command has an encoding (R72 to R74). -/
def Instr.wellFormed : Instr → Bool
  | .nop => true
  | .rdreg _ => true
  | .sreset => true
  | .wAdd _ _ => true
  | .wDiff _ _ => true
  | .wWrap _ _ => true
  | .wUnwrap _ _ _ => true
  | .fInit _ _ => true
  | .fWrite _ data => lenFits data
  | .fPeek _ _ => true
  | .fPop _ _ => true
  | .fEnd _ => true
  | .fSetErr _ => true
  | .rInit _ => true
  | .rPush _ _ data => lenFits data
  | .tInit _ _ _ => true
  | .tSent _ => true
  | .tAck _ _ => true
  | .tTick _ => true
  | .tSeqno => true
  | .aInit _ _ => true
  | .aSend _ dgram => lenFits dgram
  | .aRecvIp _ _ => true
  | .aRecvArp _ _ _ _ _ _ _ => true
  | .aTick _ => true
  | .aPopF => true
  | .aLookup _ => true

end Sys2Proof
end

