-- ==== Sys2Proof/Decode.lean ====
section
/-! DEFINITION. The command encoding (spec/30_encoding.md R72 to R81): the opcode table of R78 as data, the total decoder
of R79 (rejecting by the name of R80's reason), the encoder, and the byte packing of R73. -/

namespace Sys2Proof

/-! ## Byte packing (R73, R53) -/

/-- The four bytes of a word, byte `k` from bits `8k+7 : 8k` (R73). -/
def unpackWord (w : Word) : List Byte :=
  [w.extractLsb' 0 8, w.extractLsb' 8 8, w.extractLsb' 16 8, w.extractLsb' 24 8]

/-- The bytes of a list of payload words, pad bytes included. -/
def unpackWords : List Word → List Byte
  | [] => []
  | w :: ws => unpackWord w ++ unpackWords ws

/-- The first `len` bytes unpacked from payload words (R79's last line); pad bytes are ignored (R73). -/
def unpack (len : Nat) (ws : List Word) : List Byte := (unpackWords ws).take len

/-- Payload bytes as words, four a word, the last one padded with zero bytes in its upper positions (R73). -/
def pack : List Byte → List Word
  | [] => []
  | [b0] => [0#24 ++ b0]
  | [b0, b1] => [0#16 ++ b1 ++ b0]
  | [b0, b1, b2] => [0#8 ++ b2 ++ b1 ++ b0]
  | b0 :: b1 :: b2 :: b3 :: bs => (b3 ++ b2 ++ b1 ++ b0) :: pack bs

/-- `ceil(len / 4)` (R72). -/
def wordsFor (len : Nat) : Nat := (len + 3) / 4

/-! ## The header word (R74) -/

/-- A command header from its fields, `OPCODE = {UNIT, FUNC}` first. -/
def mkHeader (opcode : BitVec 8) (inst flags : BitVec 4) (len : BitVec 16) : Word :=
  opcode ++ inst ++ flags ++ len

/-- `OPCODE`, bits 31:24. -/
def hdrOpcode (h : Word) : BitVec 8 := h.extractLsb' 24 8

/-- `INST`, bits 23:20. -/
def hdrInst (h : Word) : BitVec 4 := h.extractLsb' 20 4

/-- `FLAGS`, bits 19:16. -/
def hdrFlags (h : Word) : BitVec 4 := h.extractLsb' 16 4

/-- `LEN`, bits 15:0. -/
def hdrLen (h : Word) : BitVec 16 := h.extractLsb' 0 16

/-! ## The opcode map (R78) -/

/-- A row of R78's table, with the header mask and match of R79. -/
structure Row where
  mnemonic : String
  opcode : BitVec 8
  mask : Word
  pattern : Word
  nops : Nat
  payload : Bool
  nres : Nat
  respPayload : Bool
  deriving DecidableEq, Repr

/-- The 27 rows of R78. -/
def opcodeTable : List Row :=
  [ ⟨"NOP", 0x00#8, 0xFFFFFFFF#32, 0x00000000#32, 0, false, 0, false⟩
  , ⟨"RDREG", 0x01#8, 0xFFFF0000#32, 0x01000000#32, 0, false, 2, false⟩
  , ⟨"SRESET", 0x02#8, 0xFFFFFFFF#32, 0x02000000#32, 0, false, 0, false⟩
  , ⟨"W.ADD", 0x10#8, 0xFFFFFFFF#32, 0x10000000#32, 2, false, 1, false⟩
  , ⟨"W.DIFF", 0x11#8, 0xFFFFFFFF#32, 0x11000000#32, 2, false, 1, false⟩
  , ⟨"W.WRAP", 0x12#8, 0xFFFFFFFF#32, 0x12000000#32, 3, false, 1, false⟩
  , ⟨"W.UNWRAP", 0x13#8, 0xFFFFFFFF#32, 0x13000000#32, 4, false, 2, false⟩
  , ⟨"F.INIT", 0x20#8, 0xFFEFFFFF#32, 0x20000000#32, 1, false, 0, false⟩
  , ⟨"F.WRITE", 0x21#8, 0xFFEF0000#32, 0x21000000#32, 0, true, 1, false⟩
  , ⟨"F.PEEK", 0x22#8, 0xFFEF0000#32, 0x22000000#32, 0, false, 0, true⟩
  , ⟨"F.POP", 0x23#8, 0xFFEF0000#32, 0x23000000#32, 0, false, 1, false⟩
  , ⟨"F.END", 0x24#8, 0xFFEFFFFF#32, 0x24000000#32, 0, false, 0, false⟩
  , ⟨"F.SETERR", 0x25#8, 0xFFEFFFFF#32, 0x25000000#32, 0, false, 0, false⟩
  , ⟨"R.INIT", 0x30#8, 0xFFFFFFFF#32, 0x30000000#32, 1, false, 0, false⟩
  , ⟨"R.PUSH", 0x31#8, 0xFFFE0000#32, 0x31000000#32, 2, true, 1, false⟩
  , ⟨"T.INIT", 0x40#8, 0xFFFFFFFF#32, 0x40000000#32, 3, false, 0, false⟩
  , ⟨"T.SENT", 0x41#8, 0xFFFF0000#32, 0x41000000#32, 0, false, 3, false⟩
  , ⟨"T.ACK", 0x42#8, 0xFFFFFFFF#32, 0x42000000#32, 2, false, 2, false⟩
  , ⟨"T.TICK", 0x43#8, 0xFFFFFFFF#32, 0x43000000#32, 1, false, 5, false⟩
  , ⟨"T.SEQNO", 0x44#8, 0xFFFFFFFF#32, 0x44000000#32, 0, false, 1, false⟩
  , ⟨"A.INIT", 0x50#8, 0xFFFFFFFF#32, 0x50000000#32, 3, false, 0, false⟩
  , ⟨"A.SEND", 0x51#8, 0xFFFF0000#32, 0x51000000#32, 1, true, 1, false⟩
  , ⟨"A.RECVIP", 0x52#8, 0xFFFEFFFF#32, 0x52000000#32, 2, false, 1, false⟩
  , ⟨"A.RECVARP", 0x53#8, 0xFFFCFFFF#32, 0x53000000#32, 8, false, 2, false⟩
  , ⟨"A.TICK", 0x54#8, 0xFFFFFFFF#32, 0x54000000#32, 1, false, 1, false⟩
  , ⟨"A.POPF", 0x55#8, 0xFFFFFFFF#32, 0x55000000#32, 0, false, 12, true⟩
  , ⟨"A.LOOKUP", 0x56#8, 0xFFFFFFFF#32, 0x56000000#32, 1, false, 5, false⟩ ]

/-- The row with an opcode, if R78 has one. -/
def rowOf (opcode : BitVec 8) : Option Row := opcodeTable.find? (fun r => r.opcode == opcode)

/-- How many words follow the header of a frame of this row and `LEN` (R72; DEDUCED, log entry 8: three rows have a payload). -/
def tailWords (row : Row) (len : BitVec 16) : Nat :=
  row.nops + if row.payload then wordsFor len.toNat else 0

/-! ## Decoding (R79, R80) -/

/-- Why a frame is illegal (R80): an opcode R78 does not list, a set must-be-zero bit, a wrong word count. -/
inductive Illegal where
  | unknownOpcode
  | mustBeZero
  | wordCount
  deriving DecidableEq, Repr

/-- Operand word `k` (from 0). -/
def opWord (ops : List Word) (k : Nat) : Word := ops.getD k 0#32

/-- The 64-bit operand in words `k` (low) and `k + 1` (high) (R12). -/
def opQuad (ops : List Word) (k : Nat) : Quad := opWord ops (k + 1) ++ opWord ops k

/-- The FIFO instance of the `INST` field, its bit 20 (R74). -/
def instOf (inst : BitVec 4) : FifoId := if inst.getLsbD 0 then .f1 else .f0

/-- The ARP opcode of `FLAGS[1]`: 0 is REQUEST, 1 is REPLY (R77, R78). -/
def arpOpOf (b : Bool) : ArpOp := if b then .reply else .request

/-- The command an opcode stands for, from the header's fields, the operand words and the payload (R78). -/
def buildInstr (opcode : BitVec 8) (inst flags : BitVec 4) (len : BitVec 16) (ops : List Word) (data : List Byte) :
    Option Instr :=
  match opcode.toNat with
  | 0x00 => some .nop
  | 0x01 => some (.rdreg len)
  | 0x02 => some .sreset
  | 0x10 => some (.wAdd (opWord ops 0) (opWord ops 1))
  | 0x11 => some (.wDiff (opWord ops 0) (opWord ops 1))
  | 0x12 => some (.wWrap (opQuad ops 0) (opWord ops 2))
  | 0x13 => some (.wUnwrap (opWord ops 0) (opWord ops 1) (opQuad ops 2))
  | 0x20 => some (.fInit (instOf inst) (opWord ops 0))
  | 0x21 => some (.fWrite (instOf inst) data)
  | 0x22 => some (.fPeek (instOf inst) len)
  | 0x23 => some (.fPop (instOf inst) len)
  | 0x24 => some (.fEnd (instOf inst))
  | 0x25 => some (.fSetErr (instOf inst))
  | 0x30 => some (.rInit (opWord ops 0))
  | 0x31 => some (.rPush (flags.getLsbD 0) (opQuad ops 0) data)
  | 0x40 => some (.tInit (opWord ops 0) (opWord ops 1) (opWord ops 2))
  | 0x41 => some (.tSent len)
  | 0x42 => some (.tAck (opWord ops 0) (opWord ops 1))
  | 0x43 => some (.tTick (opWord ops 0))
  | 0x44 => some .tSeqno
  | 0x50 => some (.aInit (opQuad ops 0) (opWord ops 2))
  | 0x51 => some (.aSend (opWord ops 0) data)
  | 0x52 => some (.aRecvIp (flags.getLsbD 0) (opQuad ops 0))
  | 0x53 => some (.aRecvArp (flags.getLsbD 0) (arpOpOf (flags.getLsbD 1)) (opQuad ops 0) (opWord ops 2) (opQuad ops 3)
      (opWord ops 5) (opQuad ops 6))
  | 0x54 => some (.aTick (opWord ops 0))
  | 0x55 => some .aPopF
  | 0x56 => some (.aLookup (opWord ops 0))
  | _ => none

/-- R79: a frame to a command, or the reason it is illegal. Total, and reads no state of the block. -/
def decode (fr : Frame) : Except Illegal Instr :=
  match rowOf (hdrOpcode fr.header) with
  | none => .error .unknownOpcode
  | some row =>
    if fr.header &&& row.mask ≠ row.pattern then .error .mustBeZero
    else if fr.tail.length ≠ tailWords row (hdrLen fr.header) then .error .wordCount
    else
      match buildInstr (hdrOpcode fr.header) (hdrInst fr.header) (hdrFlags fr.header) (hdrLen fr.header)
          (fr.tail.take row.nops)
          (if row.payload then unpack (hdrLen fr.header).toNat (fr.tail.drop row.nops) else []) with
      | some i => .ok i
      | none => .error .unknownOpcode

/-! ## Encoding -/

/-- A command's 8-bit opcode (R78). -/
def Instr.opcode : Instr → BitVec 8
  | .nop => 0x00#8
  | .rdreg _ => 0x01#8
  | .sreset => 0x02#8
  | .wAdd _ _ => 0x10#8
  | .wDiff _ _ => 0x11#8
  | .wWrap _ _ => 0x12#8
  | .wUnwrap _ _ _ => 0x13#8
  | .fInit _ _ => 0x20#8
  | .fWrite _ _ => 0x21#8
  | .fPeek _ _ => 0x22#8
  | .fPop _ _ => 0x23#8
  | .fEnd _ => 0x24#8
  | .fSetErr _ => 0x25#8
  | .rInit _ => 0x30#8
  | .rPush _ _ _ => 0x31#8
  | .tInit _ _ _ => 0x40#8
  | .tSent _ => 0x41#8
  | .tAck _ _ => 0x42#8
  | .tTick _ => 0x43#8
  | .tSeqno => 0x44#8
  | .aInit _ _ => 0x50#8
  | .aSend _ _ => 0x51#8
  | .aRecvIp _ _ => 0x52#8
  | .aRecvArp _ _ _ _ _ _ _ => 0x53#8
  | .aTick _ => 0x54#8
  | .aPopF => 0x55#8
  | .aLookup _ => 0x56#8

/-- The `INST` field of an instance. -/
def instField : FifoId → BitVec 4
  | .f0 => 0#4
  | .f1 => 1#4

/-- A command's `INST` field: the instance for unit F, else 0 (R74). -/
def Instr.instBits : Instr → BitVec 4
  | .fInit i _ => instField i
  | .fWrite i _ => instField i
  | .fPeek i _ => instField i
  | .fPop i _ => instField i
  | .fEnd i => instField i
  | .fSetErr i => instField i
  | _ => 0#4

/-- `FLAGS[1]` of an ARP opcode (R77, R78). -/
def arpOpBit : ArpOp → BitVec 1
  | .request => 0#1
  | .reply => 1#1

/-- A command's `FLAGS` field: the bits R78 names, else 0. -/
def Instr.flagBits : Instr → BitVec 4
  | .rPush eof _ _ => 0#3 ++ BitVec.ofBool eof
  | .aRecvIp ok _ => 0#3 ++ BitVec.ofBool ok
  | .aRecvArp ok op _ _ _ _ _ => 0#2 ++ arpOpBit op ++ BitVec.ofBool ok
  | _ => 0#4

/-- A command's payload bytes (R72). -/
def Instr.payload : Instr → List Byte
  | .fWrite _ data => data
  | .rPush _ _ data => data
  | .aSend _ dgram => dgram
  | _ => []

/-- A command's `LEN` field: the payload's byte count, the count `n`, the length or the register id (R74), else 0. -/
def Instr.lenBits : Instr → BitVec 16
  | .rdreg id => id
  | .fPeek _ n => n
  | .fPop _ n => n
  | .tSent len => len
  | .fWrite _ data => BitVec.ofNat 16 data.length
  | .rPush _ _ data => BitVec.ofNat 16 data.length
  | .aSend _ dgram => BitVec.ofNat 16 dgram.length
  | _ => 0#16

/-- A 64-bit value as two operand words, low word first (R12). -/
def quadWords (q : Quad) : List Word := [q.extractLsb' 0 32, q.extractLsb' 32 32]

/-- A command's operand words, in R78's order. -/
def Instr.operands : Instr → List Word
  | .wAdd w off => [w, off]
  | .wDiff a b => [a, b]
  | .wWrap n isn => quadWords n ++ [isn]
  | .wUnwrap w isn cp => [w, isn] ++ quadWords cp
  | .fInit _ cap => [cap]
  | .rInit cap => [cap]
  | .rPush _ index _ => quadWords index
  | .tInit isn rto mx => [isn, rto, mx]
  | .tAck ackno window => [ackno, window]
  | .tTick ms => [ms]
  | .aInit eth ip => quadWords eth ++ [ip]
  | .aSend ip _ => [ip]
  | .aRecvIp _ dst => quadWords dst
  | .aRecvArp _ _ dst sip seth tip teth => quadWords dst ++ [sip] ++ quadWords seth ++ [tip] ++ quadWords teth
  | .aTick ms => [ms]
  | .aLookup ip => [ip]
  | _ => []

/-- The command frame of a well-formed command, pad bytes zero (R72 to R74). -/
def encode (i : Instr) : Frame :=
  { header := mkHeader i.opcode i.instBits i.flagBits i.lenBits
    tail := i.operands ++ pack i.payload }

/-! ## Instruction bits as the opcode table numbers them -/

/-- `n` words read from a number, least significant first. -/
def wordsFrom (w : Nat) : Nat → List Word
  | 0 => []
  | n + 1 => BitVec.ofNat 32 w :: wordsFrom (w / 4294967296) n

/-- The frame whose bits are `w` (bit 0 of `w` is bit 0 of the header, the next words count on), `nbits` of them given and
the rest zero: as many words as the header's row asks for, or as `nbits` gives if that is more. -/
def frameOfBits (nbits w : Nat) : Frame :=
  let v := w % 2 ^ nbits
  let h := BitVec.ofNat 32 v
  let want := match rowOf (hdrOpcode h) with
    | some row => tailWords row (hdrLen h)
    | none => 0
  { header := h, tail := wordsFrom (v / 4294967296) (max ((nbits + 31) / 32 - 1) want) }

/-- The instruction the decoder reads from instruction bits numbered as spec/opcode_table.json numbers them. -/
def decodeTableWord (nbits w : Nat) : Option Instr :=
  match decode (frameOfBits nbits w) with
  | .ok i => some i
  | .error _ => none

end Sys2Proof
end

