-- ==== Sys2Proof/Machine/Operands.lean ====
section
/-! DEFINITION. The operand and result forms of the commands: wide values as words (spec/00_scope.md R12), narrow operands
and their unused high bits (spec/30_encoding.md R76), and the port codes of R77. -/

namespace Sys2Proof.Machine

/-- A 48-bit result as two words, low word first, the unused high bits zero (R12, R76). -/
def ethWords (e : EthAddr) : List Word := quadWords (e.zeroExtend 64)

/-- A natural number as one result word. -/
def natWord (n : Nat) : Word := BitVec.ofNat 32 n

/-- A truth value as a result word: 1 or 0. -/
def boolWord (b : Bool) : Word := if b then 1#32 else 0#32

/-- R76: an Ethernet address operand has a set bit among the unused bits 31:16 of its high word. -/
def ethOperandBad (q : Quad) : Bool := q.extractLsb' 48 16 ≠ 0#16

/-- The 48-bit address an Ethernet address operand carries (R12). -/
def ethOperand (q : Quad) : EthAddr := q.extractLsb' 0 48

/-- R76: T.ACK's `window` operand has a set bit among its unused bits 31:16. -/
def windowOperandBad (w : Word) : Bool := w.extractLsb' 16 16 ≠ 0#16

/-- The 16-bit window T.ACK's operand carries. -/
def windowOperand (w : Word) : BitVec 16 := w.extractLsb' 0 16

/-- The port code of an ARP opcode: REQUEST 0, REPLY 1 (R77). -/
def arpOpWord : ArpOp → Word
  | .request => 0#32
  | .reply => 1#32

/-- A FIFO or reassembler capacity outside `1 .. CAP_MAX` (R128, R159). -/
def capBad (p : Params) (cap : Word) : Bool := cap = 0#32 ∨ p.capMax.toNat < cap.toNat

end Sys2Proof.Machine
end

