-- ==== Sys2Proof/Machine/Seqno.lean ====
section
/-! DEFINITION. The pure functions of unit W on sequence numbers (spec/40_wrap32.md R100 to R104), used by unit T too. -/

namespace Sys2Proof.Machine

/-- R101: `add32(w, off) = (w + off) mod 2^32`. -/
def add32 (w off : Word) : Word := BitVec.ofNat 32 ((w.toNat + off.toNat) % 2 ^ 32)

/-- R102: `diff32(a, b) = sext_32((a - b) mod 2^32)`, a signed integer in `-2^31 .. 2^31 - 1`. -/
def diff32 (a b : Word) : Int := (a - b).toInt

/-- R103: `wrap(n, isn) = (isn + (n mod 2^32)) mod 2^32`. -/
def wrap (n : Quad) (isn : Word) : Word := BitVec.ofNat 32 ((isn.toNat + n.toNat % 2 ^ 32) % 2 ^ 32)

/-- R104: `offset = (w - isn) mod 2^32`. -/
def unwrapOffset (w isn : Word) : Word := w - isn

/-- R104: the first candidate, `(checkpoint & 0xFFFFFFFF00000000) | offset`. -/
def unwrapCand (w isn : Word) (checkpoint : Quad) : Nat :=
  ((checkpoint &&& 0xFFFFFFFF00000000#64) ||| (unwrapOffset w isn).zeroExtend 64).toNat

/-- R104's last `if`: take the candidate `2^32` below when it exists and is strictly nearer. -/
def unwrapNearest (cand cp : Nat) : Nat :=
  if cand ≥ 2 ^ 32 ∧ cand - cp > cp - (cand - 2 ^ 32) then cand - 2 ^ 32 else cand

/-- R104: `unwrap(w, isn, checkpoint)`; `none` where the guard refuses with `ERR_RANGE`. -/
def unwrap (w isn : Word) (checkpoint : Quad) : Option Quad :=
  let cand := unwrapCand w isn checkpoint
  let cp := checkpoint.toNat
  if cand < cp then
    if cand + 2 ^ 32 ≥ 2 ^ 64 then none
    else some (BitVec.ofNat 64 (unwrapNearest (cand + 2 ^ 32) cp))
  else some (BitVec.ofNat 64 (unwrapNearest cand cp))

end Sys2Proof.Machine
end

