-- ==== Sys2Proof/Machine/Ops.lean ====
section
/-! DEFINITION. The operations the meanings share: responses and refusals (spec/60_exceptions.md R290, R291), the byte
memories (spec/00_scope.md R11), the FIFO's internal operations (spec/41_fifo.md R121 to R127), the register reads of RDREG
(spec/10_state.md), and reset. -/

namespace Sys2Proof.Machine

/-! ## Responses and refusals

A refusal is the block's only form of an exception (R11: "the block's only form of the format's `raise`"). Nothing is saved,
no mode changes, control goes nowhere (R295), and there is no return from one (R296): `refuse` is the whole of it. -/

/-- The status codes of R290. -/
inductive Status where
  | ok
  | errIllegal
  | errNoCfg
  | errArg
  | errOwner
  | errFull
  | errEmpty
  | errRange
  deriving DecidableEq, Repr

/-- The number of a status (R290). -/
def Status.code : Status → BitVec 8
  | .ok => 0#8
  | .errIllegal => 1#8
  | .errNoCfg => 2#8
  | .errArg => 3#8
  | .errOwner => 4#8
  | .errFull => 5#8
  | .errEmpty => 6#8
  | .errRange => 7#8

/-- The response header `OPCODE STATUS RLEN` (R75). -/
def respHeader (opcode : BitVec 8) (st : Status) (rlen : Nat) : Word :=
  opcode ++ st.code ++ BitVec.ofNat 16 rlen

/-- The response of a refused command: the header word alone, `RLEN = 0` (R75, R291). -/
def refusalFrame (opcode : BitVec 8) (st : Status) : Frame := { header := respHeader opcode st 0, tail := [] }

/-- The response of a completed command: header, result words, payload packed as R73 says (R75). -/
def okFrame (opcode : BitVec 8) (words : List Word) (payload : List Byte) : Frame :=
  { header := respHeader opcode .ok payload.length, tail := words ++ pack payload }

/-- A response leaves on the response port, after the earlier ones (R71). -/
def State.respond (s : State) (fr : Frame) : State := { s with rsp := s.rsp ++ [fr] }

/-- `refuse <STATUS>` (R11, R291): the response is sent and no architectural state changes. -/
def refuse (opcode : BitVec 8) (st : Status) (s : State) : Host.Outcome State Fault Refusal :=
  .next (s.respond (refusalFrame opcode st))

/-- `return (words)` with a response payload (R11, R75), in the state the command leaves. -/
def complete (opcode : BitVec 8) (words : List Word) (payload : List Byte) (s : State) :
    Host.Outcome State Fault Refusal :=
  .next (s.respond (okFrame opcode words payload))

/-! ## Byte memories -/

/-- `MemRead(F[i].MEM, a, 1)` (R11). -/
def memRead : List Host.Cell → Nat → Byte
  | [], _ => Config.unwrittenByte
  | (x, c) :: m, a => if a = x then c else memRead m a

/-- `MemWrite(F[i].MEM, a, 1, b)` (R11), keeping the canonical form: writing what an unlisted cell reads as unlists it. -/
def memWrite : List Host.Cell → Nat → Byte → List Host.Cell
  | [], a, b => if b = Config.unwrittenByte then [] else [(a, b)]
  | (x, c) :: m, a, b =>
    if a < x then (if b = Config.unwrittenByte then (x, c) :: m else (a, b) :: (x, c) :: m)
    else if a = x then (if b = Config.unwrittenByte then m else (a, b) :: m)
    else (x, c) :: memWrite m a b

/-- The canonical form from a lower bound on: cells strictly rising, no byte equal to what an unlisted cell reads as. -/
def memWfFrom : Nat → List Host.Cell → Bool
  | _, [] => true
  | lo, (x, c) :: m => (lo ≤ x) && (c ≠ Config.unwrittenByte) && memWfFrom (x + 1) m

/-- `Memory.wf`: the memory is in its canonical form. -/
def Mem.wf (m : List Host.Cell) : Bool := memWfFrom 0 m

/-- The `for j` loop of R123: byte `j` of the data goes to cell `(start + j) mod cap` (R54). -/
def memWriteRun (m : List Host.Cell) (cap start : Nat) : List Byte → List Host.Cell
  | [] => m
  | b :: bs => memWriteRun (memWrite m (start % cap) b) cap (start + 1) bs

/-- The comprehension of R124: the `k` bytes at cells `(start + j) mod cap`, `j < k` (R54). -/
def memReadRun (m : List Host.Cell) (cap start : Nat) : Nat → List Byte
  | 0 => []
  | k + 1 => memRead m (start % cap) :: memReadRun m cap (start + 1) k

/-! ## The FIFO (spec/41_fifo.md) -/

/-- `F_size(i)` (R121): the derived register SIZE. DESIGN CHOICE (log entry 5): 0 where R27 fails and the exact difference is
negative. -/
def Fifo.size (f : Fifo) : Nat := f.bw.toNat - f.br.toNat

/-- `F_remaining(i)` (R121): the derived register REMAIN. -/
def Fifo.remaining (f : Fifo) : Nat := f.cap.toNat - f.size

/-- `EOF` (R26). -/
def Fifo.eof (f : Fifo) : Bool := f.inputEnded && (f.size == 0)

/-- The byte sequence B of the ByteStream, oldest first (R25). -/
def Fifo.contents (f : Fifo) : List Byte := memReadRun f.mem f.cap.toNat f.rp.toNat f.size

/-- The FIFO after `k` bytes of `data` are appended: the last three lines of R123. -/
def Fifo.append (f : Fifo) (data : List Byte) (k : Nat) : Fifo :=
  { f with
    mem := memWriteRun f.mem f.cap.toNat f.wp.toNat (data.take k)
    wp := BitVec.ofNat 32 ((f.wp.toNat + k) % f.cap.toNat)
    bw := BitVec.ofNat 64 (f.bw.toNat + k) }

/-- `F_write(i, data)` (R123): the FIFO after it and the number of bytes accepted; `none` where R122's guard refuses with
`ERR_RANGE`. -/
def Fifo.write (f : Fifo) (data : List Byte) : Option (Fifo × Nat) :=
  if f.inputEnded then some (f, 0)
  else
    let k := min data.length f.remaining
    if f.bw.toNat + k ≥ 2 ^ 64 then none else some (f.append data k, k)

/-- `F_peek(i, n)` (R124). -/
def Fifo.peek (f : Fifo) (n : Nat) : List Byte := memReadRun f.mem f.cap.toNat f.rp.toNat (min n f.size)

/-- How many bytes `F_pop(i, n)` removes (R125). -/
def Fifo.popCount (f : Fifo) (n : Nat) : Nat := min n f.size

/-- `F_pop(i, n)` (R125); the popped cells are not cleared. -/
def Fifo.pop (f : Fifo) (n : Nat) : Fifo :=
  { f with
    rp := BitVec.ofNat 32 ((f.rp.toNat + f.popCount n) % f.cap.toNat)
    br := BitVec.ofNat 64 (f.br.toNat + f.popCount n) }

/-- Creation of a FIFO of capacity `cap` (R128, R159): empty, flags clear, `MEM` not cleared (said by R128, DEDUCED
for R159: log entry 4). -/
def Fifo.init (f : Fifo) (cap : Word) : Fifo :=
  { cap := cap, bw := 0#64, br := 0#64, wp := 0#32, rp := 0#32, flags := 0#2, mem := f.mem }

/-- `F[i]`. -/
def State.fifo (s : State) : FifoId → Fifo
  | .f0 => s.f0
  | .f1 => s.f1

/-- `F[i] <- f`. -/
def State.setFifo (s : State) (i : FifoId) (f : Fifo) : State :=
  match i with
  | .f0 => { s with f0 := f }
  | .f1 => { s with f1 := f }

/-! ## Derived quantities of units R and T -/

/-- `UNASM`: the sum of the stored segments' lengths (R28, R158). -/
def unasm : List Seg → Nat
  | [] => 0
  | g :: gs => g.data.length + unasm gs

/-- `FUNACC`: `first_unacceptable = NEXT + F[1].REMAIN` (R28, R151). -/
def funacc (s : State) : Nat := s.r.next.toNat + s.f1.remaining

/-- `USABLE = max(0, max(WINDOW, 1) - OUTB)` (R31, R202). -/
def usable (t : Timer) : Nat := max t.window.toNat 1 - t.outb.toNat

/-- `RETX_EXCEEDED = (CONSEC > MAX_RETX)` (R31, R203). -/
def retxExceeded (t : Timer) : Bool := t.maxRetx.toNat < t.consec.toNat

/-- `HEAD_ABS`: the head descriptor's `abs_seqno`, or 0 (R31). -/
def headAbs (t : Timer) : Quad :=
  match t.outq with
  | [] => 0#64
  | d :: _ => d.absSeqno

/-- `HEAD_LEN`: the head descriptor's `len`, or 0 (R31). -/
def headLen (t : Timer) : BitVec 16 :=
  match t.outq with
  | [] => 0#16
  | d :: _ => d.len

/-! ## The registers of RDREG (R22, R272) -/

/-- `zext_64` of a register or derived quantity. -/
def q64 (n : Nat) : Quad := BitVec.ofNat 64 n

/-- The SYS registers, by index (R22). -/
def sysRegs (s : State) : List Quad :=
  [q64 Config.version.toNat, q64 s.cfgd.toNat, q64 s.params.capMax.toNat, q64 s.params.nOut.toNat,
   q64 s.params.nArp.toNat, q64 s.params.nPend.toNat, q64 s.params.nFrame.toNat]

/-- The registers of a FIFO instance, by index (R25, R26). -/
def fifoRegs (f : Fifo) : List Quad :=
  [q64 f.cap.toNat, f.bw, f.br, q64 f.wp.toNat, q64 f.rp.toNat, q64 f.flags.toNat,
   q64 f.size, q64 f.remaining, q64 f.eof.toNat, q64 (f.size == 0).toNat]

/-- The registers of unit R, by index (R28). DEDUCED (log entry 6): FUNACC is read modulo `2^64`. -/
def reasmRegs (s : State) : List Quad :=
  [q64 s.r.cap.toNat, s.r.next, q64 s.r.hasEof.toNat,
   q64 (unasm s.r.seg), q64 s.r.seg.length, q64 s.r.seg.isEmpty.toNat, q64 (funacc s)]

/-- The registers of unit T, by index (R30, R31). -/
def timerRegs (t : Timer) : List Quad :=
  [q64 t.isn.toNat, q64 t.initRto.toNat, q64 t.maxRetx.toNat, t.nextSeqno, t.lastAckno, q64 t.window.toNat, t.outb,
   q64 t.rto.toNat, q64 t.timer.toNat, q64 t.running.toNat, q64 t.consec.toNat,
   q64 t.outq.length, q64 (usable t), q64 (retxExceeded t).toNat, headAbs t, q64 (headLen t).toNat]

/-- The registers of unit A, by index (R33). -/
def arpRegs (a : Arp) : List Quad :=
  [q64 a.eth.toNat, q64 a.ip.toNat, a.now, q64 a.tab.length, q64 a.pend.length, q64 a.outf.length]

/-- The registers of a `{unit, inst}` pair, by index; none for a pair R22 does not use. -/
def regBank (s : State) (unit inst : Nat) : List Quad :=
  match unit, inst with
  | 0, 0 => sysRegs s
  | 2, 0 => fifoRegs s.f0
  | 2, 1 => fifoRegs s.f1
  | 3, 0 => reasmRegs s
  | 4, 0 => timerRegs s.t
  | 5, 0 => arpRegs s.a
  | _, _ => []

/-- The value of register `id = {unit, inst, idx}` zero-extended to 64 bits, or `none` for an id the tables of
spec/10_state.md do not list (R22, R272). -/
def readReg (s : State) (id : BitVec 16) : Option Quad :=
  (regBank s (id.extractLsb' 12 4).toNat (id.extractLsb' 8 4).toNat)[(id.extractLsb' 0 8).toNat]?

/-! ## Reset -/

/-- Every register and list of spec/10_state.md at its reset value (R273, R320, R321): the effect of SRESET and of the
platform's reset signal on the architectural state. The ports are not part of it (DESIGN CHOICE, log entry 7) and the
parameters are constants. -/
def State.reinit (s : State) : State :=
  { State.resetWith s.params with port := s.port, rsp := s.rsp }

end Sys2Proof.Machine
end

