-- ==== Sys2Proof/Machine/ArpUnit.lean ====
section
/-! DEFINITION. Unit A (spec/44_arp.md): the building blocks R220, R221, and the seven commands (R241 to R247). -/

namespace Sys2Proof.Machine

/-- `A_lookup(ip)` (R220). -/
def arpLookup (tab : List ArpEntry) (ip : IpAddr) : Option ArpEntry := tab.find? (fun e => e.ip == ip)

/-- The table with the entry of `ip` replaced in place (R224, R231); at most one entry has that address. -/
def arpUpdate (ip : IpAddr) (new : ArpEntry) : List ArpEntry → List ArpEntry
  | [] => []
  | e :: es => if e.ip = ip then new :: es else e :: arpUpdate ip new es

/-- `ip_frame(eth, dgram)` (R221). -/
def ipFrame (a : Arp) (eth : EthAddr) (dgram : List Byte) : EthFrame :=
  { dst := eth, src := a.eth, body := .ipv4 dgram }

/-- `arp_request(ip)` (R221). -/
def arpRequest (a : Arp) (ip : IpAddr) : EthFrame :=
  { dst := Config.broadcast, src := a.eth
    body := .arp { opcode := .request, senderIp := a.ip, senderEth := a.eth, targetIp := ip, targetEth := Config.ethZero } }

/-- `arp_reply(rip, reth)` (R221). -/
def arpReply (a : Arp) (rip : IpAddr) (reth : EthAddr) : EthFrame :=
  { dst := reth, src := a.eth
    body := .arp { opcode := .reply, senderIp := a.ip, senderEth := a.eth, targetIp := rip, targetEth := reth } }

/-- `A.NOW + ms` as an expiry time. -/
def expiryAt (a : Arp) (ms : Nat) : Quad := BitVec.ofNat 64 (a.now.toNat + ms)

/-- R227: the destination filter passes the local address and the broadcast address. -/
def arpForUs (a : Arp) (dst : EthAddr) : Bool := (dst == a.eth) || (dst == Config.broadcast)

/-- `pending[ip]`: the datagrams queued for one next hop, in order (R33, R233). -/
def pendingFor (pend : List Pending) (ip : IpAddr) : List (List Byte) :=
  (pend.filter (fun p => p.ip == ip)).map (fun p => p.dgram)

/-- R231: the table after `ip -> eth` is learned: overwritten in place, else appended. -/
def learn (a : Arp) (ip : IpAddr) (eth : EthAddr) : List ArpEntry :=
  let new : ArpEntry := { ip := ip, eth := eth, reachable := true, expire := expiryAt a Config.arpStale }
  match arpLookup a.tab ip with
  | none => a.tab ++ [new]
  | some _ => arpUpdate ip new a.tab

/-- R232, R233, R234: the frames an accepted ARP message puts on `OUTF`: the reply if any, then the flushed datagrams. -/
def arpEmits (a : Arp) (op : ArpOp) (ip : IpAddr) (eth : EthAddr) : List EthFrame :=
  (if op = .request then [arpReply a ip eth] else []) ++ (pendingFor a.pend ip).map (fun d => ipFrame a eth d)

/-- R231 to R234: unit A after an accepted ARP message. -/
def Arp.accept (a : Arp) (op : ArpOp) (ip : IpAddr) (eth : EthAddr) : Arp :=
  { a with
    tab := learn a ip eth
    outf := a.outf ++ arpEmits a op ip eth
    pend := a.pend.filter (fun p => p.ip != ip) }

/-- R230: the message is for our address, or its sender is already in the table. -/
def arpAccepts (a : Arp) (senderIp targetIp : IpAddr) : Bool :=
  (targetIp == a.ip) || (arpLookup a.tab senderIp).isSome

/-- R223: unit A after a miss. -/
def Arp.miss (a : Arp) (ip : IpAddr) (dgram : List Byte) : Arp :=
  { a with
    pend := a.pend ++ [⟨ip, dgram⟩]
    outf := a.outf ++ [arpRequest a ip]
    tab := a.tab ++ [{ ip := ip, eth := Config.ethZero, reachable := false, expire := expiryAt a Config.arpWait }] }

/-- R224's resend: unit A after a datagram for a pending entry whose expiry has passed. -/
def Arp.resend (a : Arp) (e : ArpEntry) (ip : IpAddr) (dgram : List Byte) : Arp :=
  { a with
    pend := a.pend ++ [⟨ip, dgram⟩]
    outf := a.outf ++ [arpRequest a ip]
    tab := arpUpdate ip { e with expire := BitVec.ofNat 64 (e.expire.toNat + Config.arpWait) } a.tab }

/-- R236, R237: unit A after the clock advances by `ms`. -/
def Arp.tick (a : Arp) (ms : Word) : Arp :=
  { a with
    now := BitVec.ofNat 64 (a.now.toNat + ms.toNat)
    tab := a.tab.filter (fun e => a.now.toNat + ms.toNat < e.expire.toNat) }

/-- A.POPF's twelve result words for a frame (R246, codes R77). -/
def frameWords (f : EthFrame) : List Word :=
  ethWords f.dst ++ ethWords f.src ++
    match f.body with
    | .ipv4 _ => List.replicate 8 0#32
    | .arp m =>
      [1#32, arpOpWord m.opcode, m.senderIp] ++ ethWords m.senderEth ++ [m.targetIp] ++ ethWords m.targetEth

/-- A.POPF's response payload for a frame: an IPv4 frame's datagram (R246). -/
def framePayload (f : EthFrame) : List Byte :=
  match f.body with
  | .ipv4 d => d
  | .arp _ => []

/-- A.INIT (R241). -/
def execAInit (eth : Quad) (ip : IpAddr) (s : State) : Host.Outcome State Fault Refusal :=
  if ethOperandBad eth then refuse (Instr.aInit eth ip).opcode .errArg s
  else
    complete (Instr.aInit eth ip).opcode [] []
      { s with a := { Arp.reset with eth := ethOperand eth, ip := ip }, cfgd := cfgdWith .arp s }

/-- A.SEND (R242): miss, pending (with or without a resend) or hit; the result is R77's action code. -/
def execASend (nextHop : IpAddr) (dgram : List Byte) (s : State) : Host.Outcome State Fault Refusal :=
  if !configured .arp s then refuse (Instr.aSend nextHop dgram).opcode .errNoCfg s
  else
    match arpLookup s.a.tab nextHop with
    | none =>
      if s.a.pend.length ≥ s.params.nPend.toNat ∨ s.a.outf.length ≥ s.params.nFrame.toNat
          ∨ s.a.tab.length ≥ s.params.nArp.toNat then
        refuse (Instr.aSend nextHop dgram).opcode .errFull s
      else complete (Instr.aSend nextHop dgram).opcode [0#32] [] { s with a := s.a.miss nextHop dgram }
    | some e =>
      if !e.reachable then
        if s.a.pend.length ≥ s.params.nPend.toNat
            ∨ (e.expire.toNat ≤ s.a.now.toNat ∧ s.a.outf.length ≥ s.params.nFrame.toNat) then
          refuse (Instr.aSend nextHop dgram).opcode .errFull s
        else if e.expire.toNat ≤ s.a.now.toNat then
          complete (Instr.aSend nextHop dgram).opcode [2#32] [] { s with a := s.a.resend e nextHop dgram }
        else
          complete (Instr.aSend nextHop dgram).opcode [1#32] []
            { s with a := { s.a with pend := s.a.pend ++ [⟨nextHop, dgram⟩] } }
      else if s.a.outf.length ≥ s.params.nFrame.toNat then refuse (Instr.aSend nextHop dgram).opcode .errFull s
      else
        complete (Instr.aSend nextHop dgram).opcode [3#32] []
          { s with a := { s.a with outf := s.a.outf ++ [ipFrame s.a e.eth dgram] } }

/-- A.RECVIP (R243): `deliver`; no state changes. -/
def execARecvIp (parseOk : Bool) (dst : Quad) (s : State) : Host.Outcome State Fault Refusal :=
  if !configured .arp s then refuse (Instr.aRecvIp parseOk dst).opcode .errNoCfg s
  else if ethOperandBad dst then refuse (Instr.aRecvIp parseOk dst).opcode .errArg s
  else if !arpForUs s.a (ethOperand dst) then complete (Instr.aRecvIp parseOk dst).opcode [0#32] [] s
  else complete (Instr.aRecvIp parseOk dst).opcode [boolWord parseOk] [] s

/-- A.RECVARP (R244): filter, parse, arbitration, capacity, then learning, reply and flush. `targetEth` is carried and only
its unused high bits are looked at. -/
def execARecvArp (parseOk : Bool) (op : ArpOp) (dst : Quad) (senderIp : IpAddr) (senderEth : Quad) (targetIp : IpAddr)
    (targetEth : Quad) (s : State) : Host.Outcome State Fault Refusal :=
  let opc := (Instr.aRecvArp parseOk op dst senderIp senderEth targetIp targetEth).opcode
  if !configured .arp s then refuse opc .errNoCfg s
  else if ethOperandBad dst ∨ ethOperandBad senderEth ∨ ethOperandBad targetEth then refuse opc .errArg s
  else if !arpForUs s.a (ethOperand dst) then complete opc [0#32, 0#32] [] s
  else if !parseOk then complete opc [0#32, 0#32] [] s
  else if !arpAccepts s.a senderIp targetIp then complete opc [0#32, 0#32] [] s
  else if s.a.outf.length + (arpEmits s.a op senderIp (ethOperand senderEth)).length > s.params.nFrame.toNat
      ∨ ((arpLookup s.a.tab senderIp).isNone ∧ s.a.tab.length ≥ s.params.nArp.toNat) then
    refuse opc .errFull s
  else
    complete opc [arpFlags true (op = .request), natWord (pendingFor s.a.pend senderIp).length] []
      { s with a := s.a.accept op senderIp (ethOperand senderEth) }

/-- A.TICK (R245): returns the number of table entries evicted. -/
def execATick (ms : Word) (s : State) : Host.Outcome State Fault Refusal :=
  if !configured .arp s then refuse (Instr.aTick ms).opcode .errNoCfg s
  else if s.a.now.toNat + ms.toNat > 2 ^ 64 - 1 - Config.arpStale then refuse (Instr.aTick ms).opcode .errRange s
  else
    complete (Instr.aTick ms).opcode [natWord (s.a.tab.length - (s.a.tick ms).tab.length)] []
      { s with a := s.a.tick ms }

/-- A.POPF (R246): takes the oldest outbound frame. -/
def execAPopF (s : State) : Host.Outcome State Fault Refusal :=
  if !configured .arp s then refuse Instr.aPopF.opcode .errNoCfg s
  else
    match s.a.outf with
    | [] => refuse Instr.aPopF.opcode .errEmpty s
    | f :: fs => complete Instr.aPopF.opcode (frameWords f) (framePayload f) { s with a := { s.a with outf := fs } }

/-- A.LOOKUP (R247): the entry's state code (R77), address and expiry. -/
def execALookup (ip : IpAddr) (s : State) : Host.Outcome State Fault Refusal :=
  if !configured .arp s then refuse (Instr.aLookup ip).opcode .errNoCfg s
  else
    match arpLookup s.a.tab ip with
    | none => complete (Instr.aLookup ip).opcode [0#32, 0#32, 0#32, 0#32, 0#32] [] s
    | some e =>
      if !e.reachable then complete (Instr.aLookup ip).opcode ([1#32, 0#32, 0#32] ++ quadWords e.expire) [] s
      else complete (Instr.aLookup ip).opcode ([2#32] ++ ethWords e.eth ++ quadWords e.expire) [] s

end Sys2Proof.Machine
end

