-- ==== Sys2Proof/Machine/FifoUnit.lean ====
section
/-! DEFINITION. The commands of unit F (spec/41_fifo.md R128 to R133). The checks come in the order of that file's section 2:
configured, then ownership of instance 1, then the command's own. -/

namespace Sys2Proof.Machine

/-- F.INIT (R128): creates or re-creates `F[0]`. -/
def execFInit (inst : FifoId) (cap : Word) (s : State) : Host.Outcome State Fault Refusal :=
  if inst = .f1 then refuse (Instr.fInit inst cap).opcode .errOwner s
  else if capBad s.params cap then refuse (Instr.fInit inst cap).opcode .errArg s
  else complete (Instr.fInit inst cap).opcode [] [] { s with f0 := s.f0.init cap, cfgd := cfgdWith .fifo0 s }

/-- F.WRITE (R129): returns the number of bytes accepted. -/
def execFWrite (inst : FifoId) (data : List Byte) (s : State) : Host.Outcome State Fault Refusal :=
  if !configured (cfgOfFifo inst) s then refuse (Instr.fWrite inst data).opcode .errNoCfg s
  else if inst = .f1 then refuse (Instr.fWrite inst data).opcode .errOwner s
  else
    match s.f0.write data with
    | none => refuse (Instr.fWrite inst data).opcode .errRange s
    | some (f, k) => complete (Instr.fWrite inst data).opcode [natWord k] [] { s with f0 := f }

/-- F.PEEK (R130): the oldest `min(n, SIZE)` bytes as response payload; no state changes. -/
def execFPeek (inst : FifoId) (n : BitVec 16) (s : State) : Host.Outcome State Fault Refusal :=
  if !configured (cfgOfFifo inst) s then refuse (Instr.fPeek inst n).opcode .errNoCfg s
  else complete (Instr.fPeek inst n).opcode [] ((s.fifo inst).peek n.toNat) s

/-- F.POP (R131): returns the number of bytes removed. -/
def execFPop (inst : FifoId) (n : BitVec 16) (s : State) : Host.Outcome State Fault Refusal :=
  if !configured (cfgOfFifo inst) s then refuse (Instr.fPop inst n).opcode .errNoCfg s
  else
    complete (Instr.fPop inst n).opcode [natWord ((s.fifo inst).popCount n.toNat)] []
      (s.setFifo inst ((s.fifo inst).pop n.toNat))

/-- F.END (R132): closes `F[0]`'s write side. -/
def execFEnd (inst : FifoId) (s : State) : Host.Outcome State Fault Refusal :=
  if !configured (cfgOfFifo inst) s then refuse (Instr.fEnd inst).opcode .errNoCfg s
  else if inst = .f1 then refuse (Instr.fEnd inst).opcode .errOwner s
  else complete (Instr.fEnd inst).opcode [] [] { s with f0 := s.f0.endInput }

/-- F.SETERR (R133): sets the error flag of either instance. -/
def execFSetErr (inst : FifoId) (s : State) : Host.Outcome State Fault Refusal :=
  if !configured (cfgOfFifo inst) s then refuse (Instr.fSetErr inst).opcode .errNoCfg s
  else complete (Instr.fSetErr inst).opcode [] [] (s.setFifo inst (s.fifo inst).setError)

end Sys2Proof.Machine
end

