-- ==== Sys2Proof/Machine/ReasmUnit.lean ====
section
/-! DEFINITION. Unit R (spec/42_reassembler.md): the seven steps of push_substring (R150 to R157) and its two commands
(R159, R160). A stored segment `(a, d)` occupies the stream indices `[a, a + |d|)`. Log entry 5 (DEDUCED) says how 5a's "go to
step 7" and R160's loop agree, and what a state that breaks R29 does. -/

namespace Sys2Proof.Machine

/-- `a + |d|`: the index just past a stored segment. -/
def Seg.stop (g : Seg) : Nat := g.start.toNat + g.data.length

/-- R154 (5a): the stored segment covers the piece `[s, e)`. -/
def Seg.covers (g : Seg) (s e : Nat) : Bool := (g.start.toNat ≤ s) && (e ≤ g.stop)

/-- R154 (5b): the stored segment is covered by the piece `[s, e)`. -/
def Seg.coveredBy (g : Seg) (s e : Nat) : Bool := (s ≤ g.start.toNat) && (g.stop ≤ e)

/-- R154 (5c): the stored segment overlaps the front of a piece that starts at `s`. -/
def Seg.overFront (g : Seg) (s : Nat) : Bool := (g.start.toNat < s) && (s < g.stop)

/-- R154 (5c): the stored segment overlaps the back of a piece that ends at `e`. -/
def Seg.overBack (g : Seg) (e : Nat) : Bool := (g.start.toNat < e) && (e < g.stop)

/-- `data[s - index .. e - index)`: the bytes of the piece `[s, e)` of a substring pushed at `index` (R153). -/
def pieceData (index : Nat) (data : List Byte) (s e : Nat) : List Byte := (data.drop (s - index)).take (e - s)

/-- R155: insertion at its place in increasing order of start. -/
def insertSeg (p : Seg) : List Seg → List Seg
  | [] => [p]
  | g :: gs => if p.start.toNat ≤ g.start.toNat then p :: g :: gs else g :: insertSeg p gs

/-- R154 (5c): the truncated front of the piece. -/
def truncFront (seg : List Seg) (s : Nat) : Nat :=
  match seg.find? (fun g => g.overFront s) with
  | some g => g.stop
  | none => s

/-- R154 (5c): the truncated back of the piece. -/
def truncBack (seg : List Seg) (e : Nat) : Nat :=
  match seg.find? (fun g => g.overBack e) with
  | some g => g.start.toNat
  | none => e

/-- Steps 5b, 5c and the insertion of step 6 (R154, R155) for the piece `[s, e)`. -/
def storePiece (seg : List Seg) (index : Nat) (data : List Byte) (s e : Nat) : List Seg :=
  let kept := seg.filter (fun g => !g.coveredBy s e)
  let s2 := truncFront kept s
  let e2 := truncBack kept e
  if s2 < e2 then insertSeg ⟨BitVec.ofNat 64 s2, pieceData index data s2 e2⟩ kept else kept

/-- Steps 5 and 6's insertion: a piece that is empty (R153) or fully covered (5a) is discarded. -/
def mergePiece (seg : List Seg) (index : Nat) (data : List Byte) (s e : Nat) : List Seg :=
  if s < e ∧ ¬ seg.any (fun g => g.covers s e) then storePiece seg index data s e else seg

/-- Step 6's delivery loop (R156): while the smallest-key segment begins at `next`, write it to the output, remove it whole,
and advance `next` by the bytes written. `none` where `F_write` refuses (R122). -/
def deliver : List Seg → Fifo → Quad → Option (List Seg × Fifo × Quad)
  | [], f, next => some ([], f, next)
  | g :: gs, f, next =>
    if g.start = next then
      match f.write g.data with
      | none => none
      | some (f', k) => deliver gs f' (BitVec.ofNat 64 (next.toNat + k))
    else some (g :: gs, f, next)

/-- Step 3 (R152): nothing to store, everything already delivered, or everything beyond the window. -/
def dropped (index len next fu : Nat) : Bool := (len == 0) || (index + len ≤ next) || (fu ≤ index)

/-- Steps 2 to 6 (R151 to R156): the stored segments, the output FIFO and `NEXT` after them. -/
def pushData (s : State) (index : Quad) (data : List Byte) : Option (List Seg × Fifo × Quad) :=
  let next := s.r.next.toNat
  let fu := funacc s
  if dropped index.toNat data.length next fu then some (s.r.seg, s.f1, s.r.next)
  else
    deliver
      (mergePiece s.r.seg index.toNat data (max index.toNat next) (min (index.toNat + data.length) fu))
      s.f1 s.r.next

/-- Step 7 (R157): close the output once EOF has been flagged and nothing is stored. -/
def closeIfDone (hasEof : Bool) (seg : List Seg) (f : Fifo) : Fifo :=
  if hasEof && seg.isEmpty then f.endInput else f

/-- R.INIT (R159): creates or re-creates unit R and the output FIFO it owns. -/
def execRInit (cap : Word) (s : State) : Host.Outcome State Fault Refusal :=
  if capBad s.params cap then refuse (Instr.rInit cap).opcode .errArg s
  else
    complete (Instr.rInit cap).opcode [] []
      { s with
        r := { cap := cap, next := 0#64, hasEof := false, seg := [] }
        f1 := s.f1.init cap
        cfgd := cfgdWith .reasm s }

/-- R.PUSH (R160): returns the number of bytes this push moved into the output FIFO. -/
def execRPush (eof : Bool) (index : Quad) (data : List Byte) (s : State) : Host.Outcome State Fault Refusal :=
  if !configured .reasm s then refuse (Instr.rPush eof index data).opcode .errNoCfg s
  else if index.toNat + data.length ≥ 2 ^ 64 then refuse (Instr.rPush eof index data).opcode .errRange s
  else
    match pushData s index data with
    | none => refuse (Instr.rPush eof index data).opcode .errRange s
    | some (seg, f, next) =>
      complete (Instr.rPush eof index data).opcode [natWord (next.toNat - s.r.next.toNat)] []
        { s with
          r := { s.r with hasEof := s.r.hasEof || eof, seg := seg, next := next }
          f1 := closeIfDone (s.r.hasEof || eof) seg f }

end Sys2Proof.Machine
end

