-- ==== Sys2Proof/Machine/System.lean ====
section
/-! DEFINITION. The system commands NOP, RDREG and SRESET (spec/45_system.md R270 to R273). They need no configuration. -/

namespace Sys2Proof.Machine

/-- NOP (R271): reads and writes no state. -/
def execNop (s : State) : Host.Outcome State Fault Refusal :=
  complete Instr.nop.opcode [] [] s

/-- RDREG (R272): the value lo, hi, of a listed register in the current state; an unlisted id is refused. -/
def execRdreg (id : BitVec 16) (s : State) : Host.Outcome State Fault Refusal :=
  match readReg s id with
  | none => refuse (Instr.rdreg id).opcode .errArg s
  | some v => complete (Instr.rdreg id).opcode (quadWords v) [] s

/-- SRESET (R273): every register and list takes its reset value; the response is produced after that. -/
def execSreset (s : State) : Host.Outcome State Fault Refusal :=
  complete Instr.sreset.opcode [] [] s.reinit

end Sys2Proof.Machine
end

