-- ==== Sys2Proof/Machine/TimerUnit.lean ====
section
/-! DEFINITION. Unit T (spec/43_rtx_timer.md): recording a sent segment (R183, R184), acknowledgements (R185 to R189), the
passing of time and the RTO backoff (R190 to R195), and the five commands (R196 to R200). -/

namespace Sys2Proof.Machine

/-- R193's and R191's `min(x, 2^32 - 1)`: a saturating 32-bit register (R195). -/
def sat32 (x : Nat) : Word := BitVec.ofNat 32 (min x (2 ^ 32 - 1))

/-- The index just past a descriptor: `abs_seqno + len`. -/
def Desc.stop (d : Desc) : Nat := d.absSeqno.toNat + d.len.toNat

/-- R183, R184: the unit after a segment of length `len` is recorded. -/
def Timer.record (t : Timer) (len : BitVec 16) : Timer :=
  { t with
    outq := t.outq ++ [⟨t.nextSeqno, len⟩]
    nextSeqno := BitVec.ofNat 64 (t.nextSeqno.toNat + len.toNat)
    outb := BitVec.ofNat 64 (t.outb.toNat + len.toNat)
    running := true
    timer := if t.running then t.timer else 0#32 }

/-- R188's loop: pop the head while it is fully acknowledged. Answers the queue, `OUTB` and the number popped. -/
def popAcked (ack : Nat) : List Desc → Nat → Nat → List Desc × Nat × Nat
  | [], outb, p => ([], outb, p)
  | d :: ds, outb, p => if d.stop ≤ ack then popAcked ack ds (outb - d.len.toNat) (p + 1) else (d :: ds, outb, p)

/-- R186 to R189: the unit after a fresh acknowledgement of `ack`. -/
def Timer.freshAck (t : Timer) (ack : Quad) (window : BitVec 16) : Timer :=
  let (q, outb, _) := popAcked ack.toNat t.outq t.outb.toNat 0
  { t with
    window := window
    lastAckno := ack
    outq := q
    outb := BitVec.ofNat 64 outb
    rto := t.initRto
    timer := 0#32
    running := !q.isEmpty
    consec := 0#32 }

/-- R188: how many descriptors a fresh acknowledgement of `ack` pops. -/
def Timer.ackPops (t : Timer) (ack : Quad) : Nat := (popAcked ack.toNat t.outq t.outb.toNat 0).2.2

/-- R191: the advanced timer. -/
def Timer.advanced (t : Timer) (ms : Word) : Word := sat32 (t.timer.toNat + ms.toNat)

/-- R192: the advanced timer has reached the RTO. -/
def Timer.expires (t : Timer) (ms : Word) : Bool := t.rto.toNat ≤ (t.advanced ms).toNat

/-- R193, R194: the unit after an expiry; no backoff when the last advertised window is zero. -/
def Timer.expire (t : Timer) : Timer :=
  { t with
    consec := if t.window = 0#16 then t.consec else sat32 (t.consec.toNat + 1)
    rto := if t.window = 0#16 then t.rto else sat32 (2 * t.rto.toNat)
    timer := 0#32 }

/-- R192: the five result words of an expiry, naming the head descriptor if there is one. -/
def expiryWords (t : Timer) : List Word :=
  match t.outq with
  | [] => [tickFlags true false, 0#32, 0#32, 0#32, 0#32]
  | d :: _ => [tickFlags true true, wrap d.absSeqno t.isn] ++ quadWords d.absSeqno ++ [d.len.zeroExtend 32]

/-- T.INIT (R196). Every operand value is accepted. -/
def execTInit (isn initialRto maxRetx : Word) (s : State) : Host.Outcome State Fault Refusal :=
  complete (Instr.tInit isn initialRto maxRetx).opcode [] []
    { s with
      t := { Timer.reset with isn := isn, initRto := initialRto, maxRetx := maxRetx, rto := initialRto }
      cfgd := cfgdWith .timer s }

/-- T.SENT (R197): records a segment of sequence-space length `len`. -/
def execTSent (len : BitVec 16) (s : State) : Host.Outcome State Fault Refusal :=
  if !configured .timer s then refuse (Instr.tSent len).opcode .errNoCfg s
  else if len = 0#16 then refuse (Instr.tSent len).opcode .errArg s
  else if s.t.outq.length ≥ s.params.nOut.toNat then refuse (Instr.tSent len).opcode .errFull s
  else if s.t.nextSeqno.toNat + len.toNat ≥ 2 ^ 64 then refuse (Instr.tSent len).opcode .errRange s
  else
    complete (Instr.tSent len).opcode ([wrap s.t.nextSeqno s.t.isn] ++ quadWords s.t.nextSeqno) []
      { s with t := s.t.record len }

/-- T.ACK (R198): invalid, stale or fresh (R185, R187, R188). -/
def execTAck (ackno window : Word) (s : State) : Host.Outcome State Fault Refusal :=
  if !configured .timer s then refuse (Instr.tAck ackno window).opcode .errNoCfg s
  else if windowOperandBad window then refuse (Instr.tAck ackno window).opcode .errArg s
  else
    match unwrap ackno s.t.isn s.t.lastAckno with
    | none => refuse (Instr.tAck ackno window).opcode .errRange s
    | some ack =>
      if s.t.nextSeqno.toNat < ack.toNat then complete (Instr.tAck ackno window).opcode [0#32, 0#32] [] s
      else if ack.toNat ≤ s.t.lastAckno.toNat then
        complete (Instr.tAck ackno window).opcode [1#32, 0#32] []
          { s with t := { s.t with window := windowOperand window } }
      else
        complete (Instr.tAck ackno window).opcode [1#32, natWord (s.t.ackPops ack)] []
          { s with t := s.t.freshAck ack (windowOperand window) }

/-- T.TICK (R199): one expiry test after the advance; a stopped timer does not run (R190). -/
def execTTick (ms : Word) (s : State) : Host.Outcome State Fault Refusal :=
  if !configured .timer s then refuse (Instr.tTick ms).opcode .errNoCfg s
  else if !s.t.running then complete (Instr.tTick ms).opcode [0#32, 0#32, 0#32, 0#32, 0#32] [] s
  else if s.t.expires ms then complete (Instr.tTick ms).opcode (expiryWords s.t) [] { s with t := s.t.expire }
  else
    complete (Instr.tTick ms).opcode [0#32, 0#32, 0#32, 0#32, 0#32] []
      { s with t := { s.t with timer := s.t.advanced ms } }

/-- T.SEQNO (R200): the wire form of the current `next_seqno`. -/
def execTSeqno (s : State) : Host.Outcome State Fault Refusal :=
  if !configured .timer s then refuse Instr.tSeqno.opcode .errNoCfg s
  else complete Instr.tSeqno.opcode [wrap s.t.nextSeqno s.t.isn] [] s

end Sys2Proof.Machine
end

