-- ==== Sys2Proof/Machine/WrapUnit.lean ====
section
/-! DEFINITION. The commands of unit W (spec/40_wrap32.md R105 to R108). No state, no configuration. -/

namespace Sys2Proof.Machine

/-- W.ADD (R105). -/
def execWAdd (w off : Word) (s : State) : Host.Outcome State Fault Refusal :=
  complete (Instr.wAdd w off).opcode [add32 w off] [] s

/-- W.DIFF (R106): `diff32(a, b) mod 2^32`. -/
def execWDiff (a b : Word) (s : State) : Host.Outcome State Fault Refusal :=
  complete (Instr.wDiff a b).opcode [BitVec.ofInt 32 (diff32 a b)] [] s

/-- W.WRAP (R107). -/
def execWWrap (n : Quad) (isn : Word) (s : State) : Host.Outcome State Fault Refusal :=
  complete (Instr.wWrap n isn).opcode [wrap n isn] [] s

/-- W.UNWRAP (R108): refused with `ERR_RANGE` exactly where the guard of R104 fires. -/
def execWUnwrap (w isn : Word) (checkpoint : Quad) (s : State) : Host.Outcome State Fault Refusal :=
  match unwrap w isn checkpoint with
  | none => refuse (Instr.wUnwrap w isn checkpoint).opcode .errRange s
  | some n => complete (Instr.wUnwrap w isn checkpoint).opcode (quadWords n) [] s

end Sys2Proof.Machine
end

