-- ==== Sys2Proof/Machine/Dispatch.lean ====
section
/-! DEFINITION. The dispatch: one arm per command, each a direct call of its meaning. -/

namespace Sys2Proof.Machine

def exec (i : Instr) (s : State) : Host.Outcome State Fault Refusal :=
  match i with
  | .nop => Sys2Proof.Machine.execNop s
  | .rdreg id => Sys2Proof.Machine.execRdreg id s
  | .sreset => Sys2Proof.Machine.execSreset s
  | .wAdd w off => Sys2Proof.Machine.execWAdd w off s
  | .wDiff a b => Sys2Proof.Machine.execWDiff a b s
  | .wWrap n isn => Sys2Proof.Machine.execWWrap n isn s
  | .wUnwrap w isn checkpoint => Sys2Proof.Machine.execWUnwrap w isn checkpoint s
  | .fInit inst cap => Sys2Proof.Machine.execFInit inst cap s
  | .fWrite inst data => Sys2Proof.Machine.execFWrite inst data s
  | .fPeek inst n => Sys2Proof.Machine.execFPeek inst n s
  | .fPop inst n => Sys2Proof.Machine.execFPop inst n s
  | .fEnd inst => Sys2Proof.Machine.execFEnd inst s
  | .fSetErr inst => Sys2Proof.Machine.execFSetErr inst s
  | .rInit cap => Sys2Proof.Machine.execRInit cap s
  | .rPush eof index data => Sys2Proof.Machine.execRPush eof index data s
  | .tInit isn initialRto maxRetx => Sys2Proof.Machine.execTInit isn initialRto maxRetx s
  | .tSent len => Sys2Proof.Machine.execTSent len s
  | .tAck ackno window => Sys2Proof.Machine.execTAck ackno window s
  | .tTick ms => Sys2Proof.Machine.execTTick ms s
  | .tSeqno => Sys2Proof.Machine.execTSeqno s
  | .aInit eth ip => Sys2Proof.Machine.execAInit eth ip s
  | .aSend nextHop dgram => Sys2Proof.Machine.execASend nextHop dgram s
  | .aRecvIp parseOk dst => Sys2Proof.Machine.execARecvIp parseOk dst s
  | .aRecvArp parseOk op dst senderIp senderEth targetIp targetEth => Sys2Proof.Machine.execARecvArp parseOk op dst senderIp senderEth targetIp targetEth s
  | .aTick ms => Sys2Proof.Machine.execATick ms s
  | .aPopF => Sys2Proof.Machine.execAPopF s
  | .aLookup ip => Sys2Proof.Machine.execALookup ip s

end Sys2Proof.Machine
end

