-- ==== Sys2Proof/Machine/Fetch.lean ====
section
/-! DEFINITION. How the block takes its next input (spec/30_encoding.md R71, spec/20_memory.md R57): the oldest one of the
command port, which is gone from the port before the command executes. -/

namespace Sys2Proof.Machine

/-- The oldest input of the command port and the state without it. -/
def takeInput (s : State) : Option (Input × State) :=
  match s.port with
  | [] => none
  | x :: xs => some (x, { s with port := xs })

/-- R80: the response to an illegal frame, a header that echoes its bits 31:24 with status `ERR_ILLEGAL`; no state
changes. -/
def refuseIllegal (fr : Frame) (s : State) : Host.Outcome State Fault Refusal :=
  refuse (hdrOpcode fr.header) .errIllegal s

/-- `s` with a frame presented at the head of the command port, so that it is the next one taken. -/
def presentFirst (fr : Frame) (s : State) : State := { s with port := .command fr :: s.port }

end Sys2Proof.Machine
end

