-- ==== Sys2Proof/Machine/Step.lean ====
section
/-! DEFINITION. One step of the block: one input of the command port, to completion (spec/10_state.md R21,
spec/20_memory.md R57, spec/30_encoding.md R71). With no input the block waits (spec/70_reset_and_hazards.md R320). -/

namespace Sys2Proof.Machine

/-- One step: wait, take the reset signal (R320), execute a command, or refuse an illegal frame (R80). -/
def step (s : State) : Host.Outcome State Fault Refusal :=
  match takeInput s with
  | none => .next s
  | some (.reset, s') => .next s'.reinit
  | some (.command fr, s') =>
    match decode fr with
    | .ok i => exec i s'
    | .error _ => refuseIllegal fr s'

/-- `s` with an instruction's bits, numbered as the opcode table numbers them, presented as the next command frame. -/
def State.withFetchWord (s : State) (nbits w : Nat) : State := presentFirst (frameOfBits nbits w) s

end Sys2Proof.Machine
end

