-- ==== Sys2Proof/Safety.lean ====
section
/-! DEFINITION. What the spec's invariants say of a state (spec/10_state.md R27, R29, R32, R34), unit by unit, and what a
safe state is: one that meets all of them. The statements cite these by name. -/

namespace Sys2Proof.Machine

/-- R27: the invariants of a FIFO instance, with the canonical form of its byte memory. -/
structure FifoOk (f : Fifo) : Prop where
  brLeBw : f.br.toNat ≤ f.bw.toNat
  sizeLeCap : f.bw.toNat - f.br.toNat ≤ f.cap.toNat
  wpEq : f.cap ≠ 0#32 → f.wp.toNat = f.bw.toNat % f.cap.toNat
  rpEq : f.cap ≠ 0#32 → f.rp.toNat = f.br.toNat % f.cap.toNat
  memWf : Mem.wf f.mem = true

/-- Segments that are non-empty, in increasing order, pairwise disjoint, and inside `[lo, hi)` (R28, R29). -/
def SegsIn (lo hi : Nat) : List Seg → Prop
  | [] => True
  | g :: gs => g.data ≠ [] ∧ lo ≤ g.start.toNat ∧ g.stop ≤ hi ∧ SegsIn g.stop hi gs

/-- R29 (with R156's "no stored segment begins at `R.NEXT`"): the invariants of unit R. -/
structure ReasmOk (s : State) : Prop where
  capEq : s.r.cap = s.f1.cap
  nextEq : s.r.next = s.f1.bw
  segsIn : SegsIn s.r.next.toNat (s.f1.br.toNat + s.r.cap.toNat) s.r.seg
  stopsFit : ∀ g ∈ s.r.seg, g.stop < 2 ^ 64
  noneAtNext : ∀ g ∈ s.r.seg, g.start ≠ s.r.next
  closed : s.r.hasEof = true → s.r.seg = [] → s.f1.inputEnded = true

/-- R32: each descriptor ends where the next begins, and the last one ends at `stop`. -/
def Contiguous (stop : Nat) : List Desc → Prop
  | [] => True
  | [d] => d.stop = stop
  | d :: d' :: ds => d'.absSeqno.toNat = d.stop ∧ Contiguous stop (d' :: ds)

/-- The sum of the descriptors' lengths. -/
def sumLen : List Desc → Nat
  | [] => 0
  | d :: ds => d.len.toNat + sumLen ds

/-- R32: the invariants of unit T, with the bound of its queue (R30). -/
structure TimerOk (p : Params) (t : Timer) : Prop where
  outbEq : t.outb.toNat = sumLen t.outq
  contiguous : Contiguous t.nextSeqno.toNat t.outq
  lenPos : ∀ d ∈ t.outq, d.len ≠ 0#16
  ackLe : t.lastAckno.toNat ≤ t.nextSeqno.toNat
  unacked : ∀ d ∈ t.outq, t.lastAckno.toNat < d.stop
  runningIff : t.running = true ↔ t.outq ≠ []
  rtoGe : t.initRto.toNat ≤ t.rto.toNat
  timerZero : t.running = false → t.timer = 0#32
  countLe : t.outq.length ≤ p.nOut.toNat

/-- The datagram of a frame, if it carries one, has a length the port's `RLEN` field can hold (R33: 0 .. 65535 bytes). -/
def frameFits (f : EthFrame) : Bool :=
  match f.body with
  | .ipv4 d => d.length < 65536
  | .arp _ => true

/-- R34: the invariants of unit A, with the bounds of its stores (R33) and R236's bound of its clock. -/
structure ArpOk (p : Params) (a : Arp) : Prop where
  oneEach : (a.tab.map ArpEntry.ip).Nodup
  fresh : ∀ e ∈ a.tab, a.now.toNat < e.expire.toNat
  unset : ∀ e ∈ a.tab, e.reachable = false → e.eth = 0#48
  nowLe : a.now.toNat ≤ 2 ^ 64 - 1 - 30000
  tabLe : a.tab.length ≤ p.nArp.toNat
  pendLe : a.pend.length ≤ p.nPend.toNat
  outfLe : a.outf.length ≤ p.nFrame.toNat
  pendFits : ∀ d ∈ a.pend, d.dgram.length < 65536
  outfFits : ∀ f ∈ a.outf, frameFits f = true

/-- R25, R128, R159: a configured FIFO has a capacity in `1 .. CAP_MAX`. -/
def CapsOk (s : State) : Prop :=
  (configured .fifo0 s = true → s.f0.cap ≠ 0#32 ∧ s.f0.cap.toNat ≤ s.params.capMax.toNat) ∧
  (configured .reasm s = true → s.f1.cap ≠ 0#32 ∧ s.f1.cap.toNat ≤ s.params.capMax.toNat)

/-- R272, R321: a unit that has not been configured since reset holds its reset values. -/
def RestOk (s : State) : Prop :=
  (configured .fifo0 s = false → s.f0 = Fifo.reset) ∧
  (configured .reasm s = false → s.f1 = Fifo.reset ∧ s.r = Reasm.reset) ∧
  (configured .timer s = false → s.t = Timer.reset) ∧
  (configured .arp s = false → s.a = Arp.reset)

/-- A safe state: every invariant of the spec holds, and the parameters are legal (R6). -/
structure Safe (s : State) : Prop where
  legal : s.params.Legal
  fifo0 : FifoOk s.f0
  fifo1 : FifoOk s.f1
  reasm : ReasmOk s
  timer : TimerOk s.params s.t
  arp : ArpOk s.params s.a
  caps : CapsOk s
  rest : RestOk s

/-- Two FIFO instances that differ at most in cells outside the window `[RP, RP + SIZE)` (R27, U1). -/
structure SameWindow (f g : Fifo) : Prop where
  cap : f.cap = g.cap
  bw : f.bw = g.bw
  br : f.br = g.br
  wp : f.wp = g.wp
  rp : f.rp = g.rp
  flags : f.flags = g.flags
  contents : f.contents = g.contents

/-- Two states that differ at most in cells of the byte memories that lie outside the windows. -/
structure SameButUnusedCells (s u : State) : Prop where
  port : s.port = u.port
  rsp : s.rsp = u.rsp
  params : s.params = u.params
  cfgd : s.cfgd = u.cfgd
  f0 : SameWindow s.f0 u.f0
  f1 : SameWindow s.f1 u.f1
  r : s.r = u.r
  t : s.t = u.t
  a : s.a = u.a

/-- The byte a set of stored segments holds for a stream index, if any. -/
def storedAt (x : Nat) : List Seg → Option Byte
  | [] => none
  | g :: gs => if g.start.toNat ≤ x ∧ x < g.stop then g.data[x - g.start.toNat]? else storedAt x gs

/-- R73 as a statement about words: byte `k` of a response payload is bits `8*(k mod 4) + 7 : 8*(k mod 4)` of word `k div 4`,
and the pad bytes of the last word are zero. -/
def paddedWords (bytes : List Byte) : List Word :=
  (List.range ((bytes.length + 3) / 4)).map fun w =>
    bytes.getD (4 * w + 3) 0#8 ++ bytes.getD (4 * w + 2) 0#8 ++ bytes.getD (4 * w + 1) 0#8 ++ bytes.getD (4 * w) 0#8

/-- R22, R25, R26, R28, R30, R31, R33: every register id of the tables of spec/10_state.md, with the number its register or
derived quantity stands for. -/
def listedRegisters (s : State) : List (BitVec 16 × Nat) :=
  [ (0x0000#16, 1), (0x0001#16, s.cfgd.toNat), (0x0002#16, s.params.capMax.toNat), (0x0003#16, s.params.nOut.toNat),
    (0x0004#16, s.params.nArp.toNat), (0x0005#16, s.params.nPend.toNat), (0x0006#16, s.params.nFrame.toNat),
    (0x2000#16, s.f0.cap.toNat), (0x2001#16, s.f0.bw.toNat), (0x2002#16, s.f0.br.toNat), (0x2003#16, s.f0.wp.toNat),
    (0x2004#16, s.f0.rp.toNat), (0x2005#16, s.f0.flags.toNat), (0x2006#16, s.f0.bw.toNat - s.f0.br.toNat),
    (0x2007#16, s.f0.cap.toNat - (s.f0.bw.toNat - s.f0.br.toNat)),
    (0x2008#16, if s.f0.flags.getLsbD 0 = true ∧ s.f0.bw.toNat - s.f0.br.toNat = 0 then 1 else 0),
    (0x2009#16, if s.f0.bw.toNat - s.f0.br.toNat = 0 then 1 else 0),
    (0x2100#16, s.f1.cap.toNat), (0x2101#16, s.f1.bw.toNat), (0x2102#16, s.f1.br.toNat), (0x2103#16, s.f1.wp.toNat),
    (0x2104#16, s.f1.rp.toNat), (0x2105#16, s.f1.flags.toNat), (0x2106#16, s.f1.bw.toNat - s.f1.br.toNat),
    (0x2107#16, s.f1.cap.toNat - (s.f1.bw.toNat - s.f1.br.toNat)),
    (0x2108#16, if s.f1.flags.getLsbD 0 = true ∧ s.f1.bw.toNat - s.f1.br.toNat = 0 then 1 else 0),
    (0x2109#16, if s.f1.bw.toNat - s.f1.br.toNat = 0 then 1 else 0),
    (0x3000#16, s.r.cap.toNat), (0x3001#16, s.r.next.toNat), (0x3002#16, if s.r.hasEof then 1 else 0),
    (0x3003#16, (s.r.seg.map (fun g => g.data.length)).sum), (0x3004#16, s.r.seg.length),
    (0x3005#16, if s.r.seg = [] then 1 else 0),
    (0x3006#16, s.r.next.toNat + (s.f1.cap.toNat - (s.f1.bw.toNat - s.f1.br.toNat))),
    (0x4000#16, s.t.isn.toNat), (0x4001#16, s.t.initRto.toNat), (0x4002#16, s.t.maxRetx.toNat),
    (0x4003#16, s.t.nextSeqno.toNat), (0x4004#16, s.t.lastAckno.toNat), (0x4005#16, s.t.window.toNat),
    (0x4006#16, s.t.outb.toNat), (0x4007#16, s.t.rto.toNat), (0x4008#16, s.t.timer.toNat),
    (0x4009#16, if s.t.running then 1 else 0), (0x400A#16, s.t.consec.toNat), (0x400B#16, s.t.outq.length),
    (0x400C#16, max s.t.window.toNat 1 - s.t.outb.toNat),
    (0x400D#16, if s.t.maxRetx.toNat < s.t.consec.toNat then 1 else 0),
    (0x400E#16, (s.t.outq.map (fun d => d.absSeqno.toNat)).headD 0),
    (0x400F#16, (s.t.outq.map (fun d => d.len.toNat)).headD 0),
    (0x5000#16, s.a.eth.toNat), (0x5001#16, s.a.ip.toNat), (0x5002#16, s.a.now.toNat), (0x5003#16, s.a.tab.length),
    (0x5004#16, s.a.pend.length), (0x5005#16, s.a.outf.length)]

end Sys2Proof.Machine
end

