-- ==== Sys2Proof/Certificates/Slice0/Obligations.lean ====
section
/-! DEFINITION. The statements for the provers, from the numbered rules of spec/. A response is written as its words: header
`OPCODE STATUS RLEN`, then the result words, then the payload (R75). `s.respond fr` is `s` with `fr` after the earlier
responses and nothing else changed, so an equation `exec i s = .next (t.respond fr)` says the whole frame of the command. -/

open Sys2Proof Sys2Proof.Machine

/-! ## Encoding -/

/-- R72 to R74, R78, R79: decoding the encoding of any well-formed command gives the command back. -/
def Obligations.DecodeEncodeRoundTrip : Prop :=
  ∀ i : Instr, i.wellFormed = true → decode (encode i) = .ok i

/-- R79, R81: a frame that decodes is the encoding of what it decodes to, but for the pad bytes of its payload. -/
def Obligations.DecodedFrameReencodes : Prop :=
  ∀ (fr : Frame) (i : Instr), decode fr = .ok i →
    i.wellFormed = true ∧ (encode i).header = fr.header ∧ (encode i).tail.length = fr.tail.length ∧
    i.operands = fr.tail.take i.operands.length ∧
    unpack i.payload.length (fr.tail.drop i.operands.length) = i.payload

/-- R83 and the spec's vectors: a few frames, written out bit by bit, decode to the command they stand for. -/
def Obligations.WrittenOutFramesDecode : Prop :=
  decode ⟨0x21000003#32, [0x00746163#32]⟩ = .ok (.fWrite .f0 [0x63#8, 0x61#8, 0x74#8]) ∧
  decode ⟨0x31010003#32, [0x00000003#32, 0x00000000#32, 0x00666564#32]⟩ = .ok (.rPush true 3#64 [0x64#8, 0x65#8, 0x66#8]) ∧
  decode ⟨0x01002007#32, []⟩ = .ok (.rdreg 0x2007#16) ∧
  decode ⟨0x13000000#32, [0x0000000D#32, 0xFFFFFFFE#32, 0x00000000#32, 0x00000003#32]⟩
    = .ok (.wUnwrap 13#32 0xFFFFFFFE#32 0x300000000#64) ∧
  decode ⟨0x42000000#32, [0x00001235#32, 0x00000004#32]⟩ = .ok (.tAck 0x1235#32 4#32) ∧
  decode ⟨0x53030000#32, [0x00000001#32, 0x00000200#32, 0x0A000002#32, 0x00000002#32, 0x00000200#32, 0x0A000001#32,
      0x00000001#32, 0x00000200#32]⟩
    = .ok (.aRecvArp true .reply 0x020000000001#64 0x0A000002#32 0x020000000002#64 0x0A000001#32 0x020000000001#64)

/-! ## The step and the responses -/

/-- R71, R79, on the model's port (log entry 3): the next command frame, if it decodes, is gone from the port and its command runs. -/
def Obligations.StepRunsTheDecodedCommand : Prop :=
  ∀ (s : State) (fr : Frame) (rest : List Input) (i : Instr),
    s.port = .command fr :: rest → decode fr = .ok i → step s = exec i { s with port := rest }

/-- R79, R80, on the model's port (log entry 3): a frame is illegal exactly when no row has its opcode with the masked header
and the word count right; the response to it echoes the opcode byte with status 1, and nothing else changes. -/
def Obligations.IllegalFrameIsRefused : Prop :=
  (∀ fr : Frame, (∃ e, decode fr = .error e) ↔
    ¬ ∃ row ∈ opcodeTable, row.opcode = fr.header.extractLsb' 24 8 ∧ fr.header &&& row.mask = row.pattern ∧
      fr.tail.length = row.nops + if row.payload then (fr.header.toNat % 2 ^ 16 + 3) / 4 else 0) ∧
  (∀ (s : State) (fr : Frame) (rest : List Input) (e : Illegal),
    s.port = .command fr :: rest → decode fr = .error e →
    step s = .next (({ s with port := rest } : State).respond ⟨fr.header.extractLsb' 24 8 ++ 0x01#8 ++ 0x0000#16, []⟩))

/-- R320, on the model's port (log entries 3 and 7): with nothing presented the block waits; the reset signal has SRESET's
effect, and gives no response. (`F[i].MEM` after it, which R321 leaves unspecified, is the model's choice of log entry 2;
that later inputs and earlier responses stay is its choice of log entry 7.) -/
def Obligations.StepWaitsAndResets : Prop :=
  (∀ s : State, s.port = [] → step s = .next s) ∧
  (∀ (s : State) (rest : List Input), s.port = .reset :: rest →
    step s = .next { State.resetWith s.params with port := rest, rsp := s.rsp })

/-- R71, on the model's port (log entry 3): every command frame gets exactly one response, after the earlier ones; no other
step makes a response. R75: the response echoes bits 31:24 of the command header. R6: the parameters never change. (That the
reset signal gives no response and leaves the later inputs and the earlier responses is the model's choice of log entry 7.) -/
def Obligations.OneResponsePerCommandFrame : Prop :=
  (∀ (s : State) (fr : Frame) (rest : List Input), s.port = .command fr :: rest →
    ∃ (t : State) (r : Frame), step s = .next t ∧ t.port = rest ∧ t.rsp = s.rsp ++ [r] ∧ t.params = s.params ∧
      r.header.extractLsb' 24 8 = fr.header.extractLsb' 24 8) ∧
  (∀ s : State, (∀ fr rest, s.port ≠ .command fr :: rest) →
    ∃ t : State, step s = .next t ∧ t.port = s.port.tail ∧ t.rsp = s.rsp ∧ t.params = s.params)

/-- R291 (with R290's range of the code), on the model's port (log entry 3): the status of a response is one of eight. When it is not 0, whether the frame was
illegal or its command was refused, the response is the header alone with RLEN 0, and nothing changes but that the
frame is answered. -/
def Obligations.RefusalChangesNothing : Prop :=
  ∀ (s : State) (fr : Frame) (rest : List Input), s.port = .command fr :: rest →
    ∃ (t : State) (r : Frame), step s = .next t ∧ t.rsp = s.rsp ++ [r] ∧
      (r.header.extractLsb' 16 8).toNat ≤ 7 ∧
      (r.header.extractLsb' 16 8 ≠ 0#8 →
        t = ({ s with port := rest } : State).respond r ∧ r.tail = [] ∧ r.header.extractLsb' 0 16 = 0#16)

/-- R75, R78: a response with status OK has the row's number of result words and then the payload words of its RLEN bytes;
RLEN is 0 unless the row has a response payload. The premise is R33's bound on stored datagrams. -/
def Obligations.OkResponseHasTheRowsShape : Prop :=
  ∀ (i : Instr) (s : State), (∀ f ∈ s.a.outf, frameFits f = true) →
    ∃ (t : State) (r : Frame) (row : Row), exec i s = .next t ∧ t.rsp = s.rsp ++ [r] ∧
      row ∈ opcodeTable ∧ row.opcode = i.opcode ∧
      (r.header.extractLsb' 16 8 = 0#8 →
        r.tail.length = row.nres + ((r.header.extractLsb' 0 16).toNat + 3) / 4 ∧
        (row.respPayload = false → r.header.extractLsb' 0 16 = 0#16))

/-! ## System commands -/

/-- R271: NOP is the all-zero one-word frame; it changes nothing; a longer frame is illegal. -/
def Obligations.NopChangesNothing : Prop :=
  decode ⟨0x00000000#32, []⟩ = .ok .nop ∧
  (∀ (w : Word) (ws : List Word), ∃ e, decode ⟨0x00000000#32, w :: ws⟩ = .error e) ∧
  (∀ s : State, exec .nop s = .next (s.respond ⟨0x00000000#32, []⟩))

/-- R22, R25, R26, R28, R30, R31, R33, R272: RDREG answers the value of every listed register and derived quantity, low
word first, and changes nothing; every other id is refused with ERR_ARG. (FUNACC is read modulo `2^64` where it does not
fit: the model's reading, log entry 6.) -/
def Obligations.RdregReadsEveryListedRegister : Prop :=
  (∀ (s : State) (p : BitVec 16 × Nat), p ∈ listedRegisters s →
    exec (.rdreg p.1) s
      = .next (s.respond ⟨0x01000000#32, [BitVec.ofNat 32 p.2, BitVec.ofNat 32 (p.2 / 2 ^ 32)]⟩)) ∧
  (∀ (s : State) (id : BitVec 16),
    ¬ (id.toNat ≤ 0x0006 ∨ (0x2000 ≤ id.toNat ∧ id.toNat ≤ 0x2009) ∨ (0x2100 ≤ id.toNat ∧ id.toNat ≤ 0x2109) ∨
       (0x3000 ≤ id.toNat ∧ id.toNat ≤ 0x3006) ∨ (0x4000 ≤ id.toNat ∧ id.toNat ≤ 0x400F) ∨
       (0x5000 ≤ id.toNat ∧ id.toNat ≤ 0x5005)) →
    exec (.rdreg id) s = .next (s.respond ⟨0x01030000#32, []⟩))

/-- R273, R321: after SRESET every register and list has its reset value (`MEM`, which the spec leaves unspecified there,
the model's choice of log entry 2), the parameters and the ports are as before, and one response with no result words
has left. -/
def Obligations.SresetRestoresTheResetState : Prop :=
  ∀ s : State, exec .sreset s = .next (({
      port := s.port, rsp := s.rsp, params := s.params, cfgd := 0#4
      f0 := { cap := 0#32, bw := 0#64, br := 0#64, wp := 0#32, rp := 0#32, flags := 0#2, mem := [] }
      f1 := { cap := 0#32, bw := 0#64, br := 0#64, wp := 0#32, rp := 0#32, flags := 0#2, mem := [] }
      r := { cap := 0#32, next := 0#64, hasEof := false, seg := [] }
      t := { isn := 0#32, initRto := 0#32, maxRetx := 0#32, nextSeqno := 0#64, lastAckno := 0#64, window := 1#16,
             outb := 0#64, rto := 0#32, timer := 0#32, running := false, consec := 0#32, outq := [] }
      a := { eth := 0#48, ip := 0#32, now := 0#64, tab := [], pend := [], outf := [] } } : State).respond
    ⟨0x02000000#32, []⟩)

/-! ## Unit W -/

/-- R101, R105: W.ADD answers `(w + off) mod 2^32`, is never refused, and changes nothing. -/
def Obligations.WAddAnswersTheWrappedSum : Prop :=
  ∀ (w off : Word) (s : State),
    decode ⟨0x10000000#32, [w, off]⟩ = .ok (.wAdd w off) ∧
    exec (.wAdd w off) s = .next (s.respond ⟨0x10000000#32, [BitVec.ofNat 32 ((w.toNat + off.toNat) % 2 ^ 32)]⟩)

/-- R106, with R102's formula, which the spec marks as its own choice (D11): W.DIFF answers, as a two's complement word, the unique `d` in `-2^31 .. 2^31 - 1` with
`add32(b, d mod 2^32) = a`; it is `-2^31` when the operands are `2^31` apart. -/
def Obligations.WDiffAnswersTheSignedDifference : Prop :=
  ∀ (a b : Word) (s : State), decode ⟨0x11000000#32, [a, b]⟩ = .ok (.wDiff a b) ∧
    ∃ d : Int, -(2 ^ 31) ≤ d ∧ d < 2 ^ 31 ∧
      exec (.wDiff a b) s = .next (s.respond ⟨0x11000000#32, [BitVec.ofInt 32 d]⟩) ∧
      BitVec.ofInt 32 d = BitVec.ofNat 32 ((a.toNat + 2 ^ 32 - b.toNat) % 2 ^ 32) ∧
      add32 b (BitVec.ofInt 32 d) = a ∧
      (∀ d' : Int, -(2 ^ 31) ≤ d' → d' < 2 ^ 31 → add32 b (BitVec.ofInt 32 d') = a → d' = d) ∧
      (a.toNat + 2 ^ 31 = b.toNat ∨ b.toNat + 2 ^ 31 = a.toNat → d = -(2 ^ 31))

/-- R103, R107: W.WRAP answers `(isn + (n mod 2^32)) mod 2^32`, is never refused, and changes nothing. -/
def Obligations.WWrapAnswersTheWireNumber : Prop :=
  ∀ (lo hi isn : Word) (s : State),
    decode ⟨0x12000000#32, [lo, hi, isn]⟩ = .ok (.wWrap (hi ++ lo) isn) ∧
    exec (.wWrap (hi ++ lo) isn) s
      = .next (s.respond ⟨0x12000000#32, [BitVec.ofNat 32 ((isn.toNat + lo.toNat) % 2 ^ 32)]⟩)

/-- R104, R108: W.UNWRAP answers the number congruent to `w - isn` nearest to the checkpoint, the larger of two equally
near; it is refused exactly where the number just above the checkpoint would not fit 64 bits. Nothing changes. -/
def Obligations.WUnwrapAnswersTheNearest : Prop :=
  ∀ (w isn : Word) (cp : Quad) (s : State),
    decode ⟨0x13000000#32, [w, isn, cp.extractLsb' 0 32, cp.extractLsb' 32 32]⟩ = .ok (.wUnwrap w isn cp) ∧
    (2 ^ 64 - 2 ^ 32 ≤ cp.toNat ∧ (w - isn).toNat < cp.toNat % 2 ^ 32 →
      exec (.wUnwrap w isn cp) s = .next (s.respond ⟨0x13070000#32, []⟩)) ∧
    (¬ (2 ^ 64 - 2 ^ 32 ≤ cp.toNat ∧ (w - isn).toNat < cp.toNat % 2 ^ 32) →
      ∃ n : Quad,
        exec (.wUnwrap w isn cp) s = .next (s.respond ⟨0x13000000#32, [n.extractLsb' 0 32, n.extractLsb' 32 32]⟩) ∧
        n.toNat % 2 ^ 32 = (w - isn).toNat ∧
        ∀ m : Nat, m % 2 ^ 32 = (w - isn).toNat →
          |(n.toNat : Int) - cp.toNat| ≤ |(m : Int) - cp.toNat| ∧
          (|(n.toNat : Int) - cp.toNat| = |(m : Int) - cp.toNat| → m ≤ n.toNat))

/-- R109, which the spec derives from R103 and R104: `unwrap` inverts `wrap` at and near the checkpoint, outside the refused region, and its result is never strictly
farther from the checkpoint than another number with the same wire form. -/
def Obligations.UnwrapInvertsWrap : Prop :=
  (∀ (n : Quad) (isn : Word), unwrap (wrap n isn) isn n = some n) ∧
  (∀ (n m : Quad) (isn : Word), -(2 ^ 31 : Int) < (m.toNat : Int) - n.toNat → (m.toNat : Int) - n.toNat ≤ 2 ^ 31 →
    ¬ (2 ^ 64 - 2 ^ 32 ≤ n.toNat ∧ m.toNat % 2 ^ 32 < n.toNat % 2 ^ 32) → unwrap (wrap m isn) isn n = some m) ∧
  (∀ (w isn : Word) (cp r : Quad), unwrap w isn cp = some r →
    wrap r isn = w ∧ ∀ r' : Quad, wrap r' isn = w → |(r.toNat : Int) - cp.toNat| ≤ |(r'.toNat : Int) - cp.toNat|)

/-! ## Unit F -/

/-- R128: F.INIT on instance 0 with a capacity in `1 .. CAP_MAX` creates an empty FIFO, flags clear, `MEM` as it was, and
sets `SYS.CFGD` bit 0; any other capacity is refused with ERR_ARG, instance 1 with ERR_OWNER. -/
def Obligations.FInitCreatesAnEmptyFifo : Prop :=
  ∀ (cap : Word) (s : State),
    decode ⟨0x20000000#32, [cap]⟩ = .ok (.fInit .f0 cap) ∧
    decode ⟨0x20100000#32, [cap]⟩ = .ok (.fInit .f1 cap) ∧
    exec (.fInit .f1 cap) s = .next (s.respond ⟨0x20040000#32, []⟩) ∧
    (cap.toNat = 0 ∨ s.params.capMax.toNat < cap.toNat →
      exec (.fInit .f0 cap) s = .next (s.respond ⟨0x20030000#32, []⟩)) ∧
    (1 ≤ cap.toNat → cap.toNat ≤ s.params.capMax.toNat →
      exec (.fInit .f0 cap) s = .next (({ s with
        cfgd := s.cfgd ||| 0b0001#4
        f0 := { cap := cap, bw := 0#64, br := 0#64, wp := 0#32, rp := 0#32, flags := 0#2, mem := s.f0.mem } } :
          State).respond ⟨0x20000000#32, []⟩))

/-- R123, R129: F.WRITE appends exactly the first `k = min(|data|, remaining)` bytes at cells `(WP + j) mod CAP`, answers
`k`, and leaves every other cell and everything else as it was; after `input_ended` it answers 0 and changes nothing;
where the byte counter would reach `2^64` it is refused with ERR_RANGE. -/
def Obligations.FWriteAppendsTheAcceptedPrefix : Prop :=
  ∀ (data : List Byte) (s : State) (k : Nat), configured .fifo0 s = true → Mem.wf s.f0.mem = true →
    k = min data.length (s.f0.cap.toNat - (s.f0.bw.toNat - s.f0.br.toNat)) →
    (s.f0.inputEnded = true → exec (.fWrite .f0 data) s = .next (s.respond ⟨0x21000000#32, [0x00000000#32]⟩)) ∧
    (s.f0.inputEnded = false → 2 ^ 64 ≤ s.f0.bw.toNat + k →
      exec (.fWrite .f0 data) s = .next (s.respond ⟨0x21070000#32, []⟩)) ∧
    (s.f0.inputEnded = false → s.f0.bw.toNat + k < 2 ^ 64 →
      ∃ mem : List Host.Cell,
        exec (.fWrite .f0 data) s = .next (({ s with f0 := { s.f0 with
            mem := mem
            wp := BitVec.ofNat 32 ((s.f0.wp.toNat + k) % s.f0.cap.toNat)
            bw := BitVec.ofNat 64 (s.f0.bw.toNat + k) } } : State).respond ⟨0x21000000#32, [BitVec.ofNat 32 k]⟩) ∧
        Mem.wf mem = true ∧
        (∀ j, j < k → some (memRead mem ((s.f0.wp.toNat + j) % s.f0.cap.toNat)) = data[j]?) ∧
        (∀ c, (∀ j, j < k → c ≠ (s.f0.wp.toNat + j) % s.f0.cap.toNat) → memRead mem c = memRead s.f0.mem c))

/-- R124, R130: F.PEEK answers the oldest `min(n, SIZE)` bytes, oldest first, on either instance, and changes nothing. R73:
they are packed four a word, and the pad bytes of the last word are zero. -/
def Obligations.FPeekReturnsTheOldestBytes : Prop :=
  ∀ (i : FifoId) (n : BitVec 16) (s : State), configured (cfgOfFifo i) s = true →
    exec (.fPeek i n) s = .next (s.respond
      ⟨0x22#8 ++ 0x00#8 ++ BitVec.ofNat 16 (min n.toNat ((s.fifo i).bw.toNat - (s.fifo i).br.toNat)),
       paddedWords ((List.range (min n.toNat ((s.fifo i).bw.toNat - (s.fifo i).br.toNat))).map (fun j =>
         memRead (s.fifo i).mem (((s.fifo i).rp.toNat + j) % (s.fifo i).cap.toNat)))⟩)

/-- R125, R131: F.POP removes `min(n, SIZE)` bytes from the front of either instance, answers how many, clears no cell, and
changes nothing else. -/
def Obligations.FPopRemovesTheOldestBytes : Prop :=
  ∀ (n : BitVec 16) (s : State) (k : Nat),
    (configured .fifo0 s = true → k = min n.toNat (s.f0.bw.toNat - s.f0.br.toNat) →
      exec (.fPop .f0 n) s = .next (({ s with f0 := { s.f0 with
        rp := BitVec.ofNat 32 ((s.f0.rp.toNat + k) % s.f0.cap.toNat)
        br := BitVec.ofNat 64 (s.f0.br.toNat + k) } } : State).respond ⟨0x23000000#32, [BitVec.ofNat 32 k]⟩)) ∧
    (configured .reasm s = true → k = min n.toNat (s.f1.bw.toNat - s.f1.br.toNat) →
      exec (.fPop .f1 n) s = .next (({ s with f1 := { s.f1 with
        rp := BitVec.ofNat 32 ((s.f1.rp.toNat + k) % s.f1.cap.toNat)
        br := BitVec.ofNat 64 (s.f1.br.toNat + k) } } : State).respond ⟨0x23000000#32, [BitVec.ofNat 32 k]⟩))

/-- R127, R132, R133: F.END sets `input_ended` of instance 0, F.SETERR sets `error` of either instance; nothing else
changes. -/
def Obligations.FEndAndFSetErrSetTheirFlag : Prop :=
  ∀ s : State,
    (configured .fifo0 s = true → exec (.fEnd .f0) s
      = .next (({ s with f0 := { s.f0 with flags := s.f0.flags ||| 0b01#2 } } : State).respond ⟨0x24000000#32, []⟩)) ∧
    (configured .fifo0 s = true → exec (.fSetErr .f0) s
      = .next (({ s with f0 := { s.f0 with flags := s.f0.flags ||| 0b10#2 } } : State).respond ⟨0x25000000#32, []⟩)) ∧
    (configured .reasm s = true → exec (.fSetErr .f1) s
      = .next (({ s with f1 := { s.f1 with flags := s.f1.flags ||| 0b10#2 } } : State).respond ⟨0x25000000#32, []⟩))

/-- R52, and R126 and R135, which the spec derives: under the invariants of R27 the circular buffer is a queue of bytes. A write adds the accepted prefix
at the back, a pop takes the oldest bytes from the front, and a peek shows the oldest bytes. -/
def Obligations.CircularBufferIsAQueue : Prop :=
  ∀ f : Fifo, FifoOk f →
    f.contents.length = f.bw.toNat - f.br.toNat ∧
    (∀ n : Nat, f.peek n = f.contents.take n) ∧
    (∀ n : Nat, FifoOk (f.pop n) ∧ (f.pop n).contents = f.contents.drop n) ∧
    (∀ (data : List Byte) (f' : Fifo) (k : Nat), f.write data = some (f', k) →
      FifoOk f' ∧ f'.contents = f.contents ++ data.take k ∧
      k = if f.inputEnded then 0 else min data.length (f.cap.toNat - f.contents.length))

/-- R120, R127, R135: once `input_ended` is set on an instance it stays set and `BW` never changes, and `error` stays set,
under every command but that instance's INIT and SRESET. -/
def Obligations.ClosedFifoNeverGrows : Prop :=
  ∀ (i : Instr) (j : FifoId) (s t : State), exec i s = .next t → i ≠ .sreset →
    (∀ k cap, i = .fInit k cap → j = .f1) → (∀ cap, i = .rInit cap → j = .f0) →
    ((s.fifo j).inputEnded = true → (t.fifo j).inputEnded = true ∧ (t.fifo j).bw = (s.fifo j).bw) ∧
    ((s.fifo j).errorFlag = true → (t.fifo j).errorFlag = true)

/-! ## Unit R -/

/-- R159: R.INIT with a capacity in `1 .. CAP_MAX` creates unit R and its output FIFO empty, with one capacity, and sets
`SYS.CFGD` bit 1; any other capacity is refused with ERR_ARG. (That the cells of `F[1].MEM` stay as they were is the model's
reading of log entry 4, DEDUCED: R159 does not list them.) -/
def Obligations.RInitCreatesTheReassembler : Prop :=
  ∀ (cap : Word) (s : State),
    decode ⟨0x30000000#32, [cap]⟩ = .ok (.rInit cap) ∧
    (cap.toNat = 0 ∨ s.params.capMax.toNat < cap.toNat →
      exec (.rInit cap) s = .next (s.respond ⟨0x30030000#32, []⟩)) ∧
    (1 ≤ cap.toNat → cap.toNat ≤ s.params.capMax.toNat →
      exec (.rInit cap) s = .next (({ s with
        cfgd := s.cfgd ||| 0b0010#4
        r := { cap := cap, next := 0#64, hasEof := false, seg := [] }
        f1 := { cap := cap, bw := 0#64, br := 0#64, wp := 0#32, rp := 0#32, flags := 0#2, mem := s.f1.mem } } :
          State).respond ⟨0x30000000#32, []⟩))

/-- R150, R152, R157: a push that is empty, wholly below NEXT or wholly beyond the window stores and delivers nothing; it
still records EOF and still closes the output when EOF has been flagged and nothing is stored. -/
def Obligations.RPushOutsideTheWindowIsDropped : Prop :=
  ∀ (eof : Bool) (index : Quad) (data : List Byte) (s : State),
    configured .reasm s = true → index.toNat + data.length < 2 ^ 64 →
    data = [] ∨ index.toNat + data.length ≤ s.r.next.toNat ∨
      s.r.next.toNat + (s.f1.cap.toNat - (s.f1.bw.toNat - s.f1.br.toNat)) ≤ index.toNat →
    exec (.rPush eof index data) s = .next (({ s with
        r := { s.r with hasEof := s.r.hasEof || eof }
        f1 := if (s.r.hasEof || eof) = true ∧ s.r.seg = [] then { s.f1 with flags := s.f1.flags ||| 0b01#2 } else s.f1 } :
          State).respond ⟨0x31000000#32, [0x00000000#32]⟩)

/-- R154, R155: steps 5 and 6 keep the stored segments non-empty, in order, disjoint and inside the window. A piece that is
empty or covered by one segment changes nothing. Otherwise the segments that the piece covers are gone, every other one stays
as it is, an entry of its own, and exactly one segment may join them: the piece cut to `[a, b)` by the neighbours it overlaps,
if anything of it is left. Touching segments are not joined. So a byte that a segment not covered by the piece holds stays,
the piece's own bytes fill the rest of `[s, e)`, and outside `[s, e)` nothing changes. -/
def Obligations.MergeKeepsTheRightBytes : Prop :=
  ∀ (lo hi : Nat) (seg kept : List Seg) (index : Nat) (data : List Byte) (s e : Nat),
    SegsIn lo hi seg → lo ≤ s → e ≤ hi → index ≤ s → e ≤ index + data.length → e < 2 ^ 64 →
    kept = seg.filter (fun g => ¬ (s ≤ g.start.toNat ∧ g.stop ≤ e)) →
    SegsIn lo hi (mergePiece seg index data s e) ∧
    (e ≤ s ∨ (∃ g ∈ seg, g.start.toNat ≤ s ∧ e ≤ g.stop) → mergePiece seg index data s e = seg) ∧
    (s < e → (∀ g ∈ seg, ¬ (g.start.toNat ≤ s ∧ e ≤ g.stop)) →
      ∃ (before after : List Seg) (a b : Nat), kept = before ++ after ∧ s ≤ a ∧ a ≤ b ∧ b ≤ e ∧
        (∀ g ∈ before, g.stop ≤ a) ∧ (∀ g ∈ after, b ≤ g.start.toNat) ∧
        (a = s ∨ ∃ g ∈ before, g.stop = a) ∧ (b = e ∨ ∃ g ∈ after, g.start.toNat = b) ∧
        mergePiece seg index data s e
          = before ++ (if a < b then [⟨BitVec.ofNat 64 a, (data.drop (a - index)).take (b - a)⟩] else []) ++ after) ∧
    ∀ x : Nat, storedAt x (mergePiece seg index data s e) =
      if s ≤ x ∧ x < e ∧ (∀ g ∈ seg, ¬ (g.start.toNat ≤ s ∧ e ≤ g.stop)) then (storedAt x kept).or data[x - index]?
      else storedAt x seg

/-- R151 to R157, R160: on an output that is not closed, a push in the window merges its piece, then moves the longest
contiguous run of stored bytes from NEXT on into the output, in order, answers how many, removes them from the store,
and closes the output if EOF has been flagged and nothing is left; nothing else changes, nor any other cell of `F[1].MEM`.
`merged` is the store after steps 4 to 6's insertion (R153 to R155); the segments left are its last ones, each as it was. -/
def Obligations.RPushDeliversTheContiguousPrefix : Prop :=
  ∀ (eof : Bool) (index : Quad) (data : List Byte) (s : State) (merged : List Seg),
    FifoOk s.f1 → ReasmOk s → configured .reasm s = true → s.f1.inputEnded = false →
    index.toNat + data.length < 2 ^ 64 →
    data ≠ [] → s.r.next.toNat < index.toNat + data.length →
    index.toNat < s.r.next.toNat + (s.f1.cap.toNat - (s.f1.bw.toNat - s.f1.br.toNat)) →
    merged = mergePiece s.r.seg index.toNat data (max index.toNat s.r.next.toNat)
      (min (index.toNat + data.length) (s.r.next.toNat + (s.f1.cap.toNat - (s.f1.bw.toNat - s.f1.br.toNat)))) →
    ∃ (n : Nat) (mem : List Host.Cell) (seg : List Seg),
      exec (.rPush eof index data) s = .next (({ s with
        r := { s.r with hasEof := s.r.hasEof || eof, seg := seg, next := BitVec.ofNat 64 (s.r.next.toNat + n) }
        f1 := { s.f1 with
          mem := mem
          wp := BitVec.ofNat 32 ((s.f1.wp.toNat + n) % s.f1.cap.toNat)
          bw := BitVec.ofNat 64 (s.f1.bw.toNat + n)
          flags := if (s.r.hasEof || eof) = true ∧ seg = [] then s.f1.flags ||| 0b01#2 else s.f1.flags } } :
          State).respond ⟨0x31000000#32, [BitVec.ofNat 32 n]⟩) ∧
      n ≤ s.f1.cap.toNat - (s.f1.bw.toNat - s.f1.br.toNat) ∧
      (∀ x, s.r.next.toNat ≤ x → x < s.r.next.toNat + n →
        storedAt x merged = some (memRead mem ((s.f1.wp.toNat + (x - s.r.next.toNat)) % s.f1.cap.toNat))) ∧
      storedAt (s.r.next.toNat + n) merged = none ∧ seg <:+ merged ∧
      (∀ x, storedAt x seg = if s.r.next.toNat + n ≤ x then storedAt x merged else none) ∧
      (∀ c, (∀ j, j < n → c ≠ (s.f1.wp.toNat + j) % s.f1.cap.toNat) → memRead mem c = memRead s.f1.mem c)

/-- R152, R153 to R156, R161 case 12: after the output is closed no push delivers anything or changes the output FIFO; NEXT
stays and the answer is 0. The store is as a push leaves it on an open output, but that the segments that begin at NEXT are
removed without being written: a dropped push leaves it alone, and a piece beyond NEXT is merged and stays. -/
def Obligations.RPushAfterCloseDeliversNothing : Prop :=
  ∀ (eof : Bool) (index : Quad) (data : List Byte) (s : State) (fu : Nat) (seg : List Seg),
    ReasmOk s → configured .reasm s = true → s.f1.inputEnded = true → index.toNat + data.length < 2 ^ 64 →
    fu = s.r.next.toNat + (s.f1.cap.toNat - (s.f1.bw.toNat - s.f1.br.toNat)) →
    seg = (if data = [] ∨ index.toNat + data.length ≤ s.r.next.toNat ∨ fu ≤ index.toNat then s.r.seg
      else (mergePiece s.r.seg index.toNat data (max index.toNat s.r.next.toNat) (min (index.toNat + data.length) fu)).filter
        (fun g => g.start ≠ s.r.next)) →
    exec (.rPush eof index data) s = .next (({ s with
        r := { s.r with hasEof := s.r.hasEof || eof, seg := seg } } : State).respond ⟨0x31000000#32, [0x00000000#32]⟩) ∧
    (∀ g ∈ seg, g.start ≠ s.r.next)

/-! ## Unit T -/

/-- R196: T.INIT sets the configuration, every other register of the unit to its initial value, and `SYS.CFGD` bit 2; it
accepts every operand. -/
def Obligations.TInitConstructsTheSender : Prop :=
  ∀ (isn rto mx : Word) (s : State),
    decode ⟨0x40000000#32, [isn, rto, mx]⟩ = .ok (.tInit isn rto mx) ∧
    exec (.tInit isn rto mx) s = .next (({ s with
      cfgd := s.cfgd ||| 0b0100#4
      t := { isn := isn, initRto := rto, maxRetx := mx, nextSeqno := 0#64, lastAckno := 0#64, window := 1#16,
             outb := 0#64, rto := rto, timer := 0#32, running := false, consec := 0#32, outq := [] } } : State).respond
      ⟨0x40000000#32, []⟩)

/-- R183, R184, R197: T.SENT appends the descriptor `(NEXT_SEQNO, len)`, advances NEXT_SEQNO and OUTB by `len`, starts a
stopped timer at 0 (R184, the spec's own choice, D22) and leaves a running one alone, and answers the wire and the absolute number. -/
def Obligations.TSentRecordsTheSegment : Prop :=
  ∀ (len : BitVec 16) (s : State), configured .timer s = true → len ≠ 0#16 →
    s.t.outq.length < s.params.nOut.toNat → s.t.nextSeqno.toNat + len.toNat < 2 ^ 64 →
    exec (.tSent len) s = .next (({ s with t := { s.t with
        outq := s.t.outq ++ [⟨s.t.nextSeqno, len⟩]
        nextSeqno := BitVec.ofNat 64 (s.t.nextSeqno.toNat + len.toNat)
        outb := BitVec.ofNat 64 (s.t.outb.toNat + len.toNat)
        running := true
        timer := if s.t.running = true then s.t.timer else 0#32 } } : State).respond
      ⟨0x41000000#32, [BitVec.ofNat 32 ((s.t.isn.toNat + s.t.nextSeqno.toNat) % 2 ^ 32),
        s.t.nextSeqno.extractLsb' 0 32, s.t.nextSeqno.extractLsb' 32 32]⟩)

/-- R185 to R187, R198: an acknowledgement beyond NEXT_SEQNO is invalid and changes nothing; a valid one that does not
advance LAST_ACKNO sets the window and nothing else. -/
def Obligations.TAckInvalidAndStale : Prop :=
  ∀ (ackno window : Word) (ack : Quad) (s : State), configured .timer s = true → window.toNat < 2 ^ 16 →
    unwrap ackno s.t.isn s.t.lastAckno = some ack →
    (s.t.nextSeqno.toNat < ack.toNat →
      exec (.tAck ackno window) s = .next (s.respond ⟨0x42000000#32, [0x00000000#32, 0x00000000#32]⟩)) ∧
    (ack.toNat ≤ s.t.nextSeqno.toNat → ack.toNat ≤ s.t.lastAckno.toNat →
      exec (.tAck ackno window) s = .next (({ s with t := { s.t with window := window.extractLsb' 0 16 } } :
        State).respond ⟨0x42000000#32, [0x00000001#32, 0x00000000#32]⟩))

/-- R186, R188, R189, R198: a fresh acknowledgement pops from the head every descriptor it covers wholly, takes their
lengths from OUTB, sets the window and LAST_ACKNO, resets the RTO to its initial value, the timer and CONSEC to 0, and
stops the timer exactly when nothing is left outstanding. -/
def Obligations.TAckFreshPopsTheCoveredPrefix : Prop :=
  ∀ (ackno window : Word) (ack : Quad) (s : State), configured .timer s = true → window.toNat < 2 ^ 16 →
    unwrap ackno s.t.isn s.t.lastAckno = some ack →
    ack.toNat ≤ s.t.nextSeqno.toNat → s.t.lastAckno.toNat < ack.toNat →
    exec (.tAck ackno window) s = .next (({ s with t := { s.t with
        window := window.extractLsb' 0 16
        lastAckno := ack
        outq := s.t.outq.dropWhile (fun d => d.absSeqno.toNat + d.len.toNat ≤ ack.toNat)
        outb := BitVec.ofNat 64 (s.t.outb.toNat
          - sumLen (s.t.outq.takeWhile (fun d => d.absSeqno.toNat + d.len.toNat ≤ ack.toNat)))
        rto := s.t.initRto
        timer := 0#32
        running := !(s.t.outq.dropWhile (fun d => d.absSeqno.toNat + d.len.toNat ≤ ack.toNat)).isEmpty
        consec := 0#32 } } : State).respond
      ⟨0x42000000#32, [0x00000001#32,
        BitVec.ofNat 32 (s.t.outq.takeWhile (fun d => d.absSeqno.toNat + d.len.toNat ≤ ack.toNat)).length]⟩)

/-- R188: under the invariants of unit T, popping from the head while the head qualifies removes exactly every descriptor
that the acknowledgement covers wholly. -/
def Obligations.PoppedDescriptorsAreExactlyTheCovered : Prop :=
  ∀ (p : Params) (t : Timer) (ack : Nat), TimerOk p t →
    (popAcked ack t.outq t.outb.toNat 0).1 = t.outq.filter (fun d => ¬ (d.absSeqno.toNat + d.len.toNat ≤ ack)) ∧
    (popAcked ack t.outq t.outb.toNat 0).2.1 = sumLen (t.outq.filter (fun d => ¬ (d.absSeqno.toNat + d.len.toNat ≤ ack))) ∧
    (popAcked ack t.outq t.outb.toNat 0).2.2 = (t.outq.filter (fun d => d.absSeqno.toNat + d.len.toNat ≤ ack)).length

/-- R190 to R195, R199: T.TICK on a stopped timer changes nothing; on a running one that stays below the RTO it adds `ms`
to the timer and nothing else; both answer five zero words. When the advanced timer (exact: the saturation is
invisible) reaches the RTO, it asks for the retransmission of the oldest outstanding segment if there is one, zeroes the
timer, and, unless the last window was zero, counts one more consecutive retransmission and doubles the RTO, both
saturating at `2^32 - 1`; the queue and all else stay. -/
def Obligations.TTickAdvancesOrExpiresAndBacksOff : Prop :=
  ∀ (ms : Word) (s t : State), configured .timer s = true →
    t = { s with t := { s.t with
        consec := if s.t.window = 0#16 then s.t.consec else BitVec.ofNat 32 (min (s.t.consec.toNat + 1) (2 ^ 32 - 1))
        rto := if s.t.window = 0#16 then s.t.rto else BitVec.ofNat 32 (min (2 * s.t.rto.toNat) (2 ^ 32 - 1))
        timer := 0#32 } } →
    (s.t.running = false → exec (.tTick ms) s
      = .next (s.respond ⟨0x43000000#32, [0x00000000#32, 0x00000000#32, 0x00000000#32, 0x00000000#32, 0x00000000#32]⟩)) ∧
    (s.t.running = true → s.t.timer.toNat + ms.toNat < s.t.rto.toNat → exec (.tTick ms) s
      = .next (({ s with t := { s.t with timer := BitVec.ofNat 32 (s.t.timer.toNat + ms.toNat) } } : State).respond
        ⟨0x43000000#32, [0x00000000#32, 0x00000000#32, 0x00000000#32, 0x00000000#32, 0x00000000#32]⟩)) ∧
    (s.t.running = true → s.t.rto.toNat ≤ s.t.timer.toNat + ms.toNat →
      (s.t.outq = [] → exec (.tTick ms) s = .next (t.respond
        ⟨0x43000000#32, [0x00000001#32, 0x00000000#32, 0x00000000#32, 0x00000000#32, 0x00000000#32]⟩)) ∧
      (∀ (d : Desc) (ds : List Desc), s.t.outq = d :: ds → exec (.tTick ms) s = .next (t.respond
        ⟨0x43000000#32, [0x00000003#32, BitVec.ofNat 32 ((s.t.isn.toNat + d.absSeqno.toNat) % 2 ^ 32),
          d.absSeqno.extractLsb' 0 32, d.absSeqno.extractLsb' 32 32, BitVec.ofNat 32 d.len.toNat]⟩)))

/-- R200, R182: T.SEQNO answers the wire form of NEXT_SEQNO and changes nothing. -/
def Obligations.TSeqnoAnswersTheNextNumber : Prop :=
  ∀ s : State, configured .timer s = true →
    exec .tSeqno s
      = .next (s.respond ⟨0x44000000#32, [BitVec.ofNat 32 ((s.t.isn.toNat + s.t.nextSeqno.toNat) % 2 ^ 32)]⟩)

/-! ## Unit A -/

/-- R241: A.INIT with a 48-bit address constructs the interface, empty and at time 0, and sets `SYS.CFGD` bit 3; an address
operand with a set unused bit is refused with ERR_ARG. -/
def Obligations.AInitConstructsTheInterface : Prop :=
  ∀ (lo hi ip : Word) (s : State),
    decode ⟨0x50000000#32, [lo, hi, ip]⟩ = .ok (.aInit (hi ++ lo) ip) ∧
    (2 ^ 16 ≤ hi.toNat → exec (.aInit (hi ++ lo) ip) s = .next (s.respond ⟨0x50030000#32, []⟩)) ∧
    (hi.toNat < 2 ^ 16 → exec (.aInit (hi ++ lo) ip) s = .next (({ s with
      cfgd := s.cfgd ||| 0b1000#4
      a := { eth := BitVec.ofNat 48 (hi.toNat * 2 ^ 32 + lo.toNat), ip := ip, now := 0#64, tab := [], pend := [],
             outf := [] } } : State).respond ⟨0x50000000#32, []⟩))

/-- R221, R223, R242: A.SEND to a next hop without an entry queues the datagram, broadcasts one ARP request and inserts a
pending entry that expires 5000 ms from now; action 0. (The request's source and sender fields are R221's, which the spec
marks as its own choice, D28.) -/
def Obligations.ASendMissBroadcastsARequest : Prop :=
  ∀ (ip : IpAddr) (dgram : List Byte) (s : State), configured .arp s = true → (∀ e ∈ s.a.tab, e.ip ≠ ip) →
    s.a.pend.length < s.params.nPend.toNat → s.a.outf.length < s.params.nFrame.toNat →
    s.a.tab.length < s.params.nArp.toNat →
    exec (.aSend ip dgram) s = .next (({ s with a := { s.a with
        pend := s.a.pend ++ [⟨ip, dgram⟩]
        outf := s.a.outf ++ [⟨0xFFFFFFFFFFFF#48, s.a.eth, .arp ⟨.request, s.a.ip, s.a.eth, ip, 0#48⟩⟩]
        tab := s.a.tab ++ [⟨ip, 0#48, false, BitVec.ofNat 64 (s.a.now.toNat + 5000)⟩] } } : State).respond
      ⟨0x51000000#32, [0x00000000#32]⟩)

/-- R224, R226, R242: A.SEND to a next hop with a live pending entry only queues the datagram (action 1); with one whose
expiry has passed it also broadcasts the request again and adds 5000 ms to that expiry (action 2); with a reachable entry
it emits the IPv4 frame to the learned address and leaves the table alone (action 3). (The request's fields as in
`ASendMissBroadcastsARequest`.) -/
def Obligations.ASendWithAnEntryQueuesResendsOrEmits : Prop :=
  ∀ (dgram : List Byte) (e : ArpEntry) (s : State), configured .arp s = true → (s.a.tab.map ArpEntry.ip).Nodup →
    e ∈ s.a.tab →
    (e.reachable = false → s.a.now.toNat < e.expire.toNat → s.a.pend.length < s.params.nPend.toNat →
      exec (.aSend e.ip dgram) s = .next (({ s with a := { s.a with pend := s.a.pend ++ [⟨e.ip, dgram⟩] } } :
        State).respond ⟨0x51000000#32, [0x00000001#32]⟩)) ∧
    (e.reachable = false → e.expire.toNat ≤ s.a.now.toNat → s.a.now.toNat ≤ 2 ^ 64 - 1 - 30000 →
      s.a.pend.length < s.params.nPend.toNat → s.a.outf.length < s.params.nFrame.toNat →
      exec (.aSend e.ip dgram) s = .next (({ s with a := { s.a with
        pend := s.a.pend ++ [⟨e.ip, dgram⟩]
        outf := s.a.outf ++ [⟨0xFFFFFFFFFFFF#48, s.a.eth, .arp ⟨.request, s.a.ip, s.a.eth, e.ip, 0#48⟩⟩]
        tab := s.a.tab.map (fun x => if x.ip = e.ip then
          ⟨x.ip, x.eth, x.reachable, BitVec.ofNat 64 (x.expire.toNat + 5000)⟩ else x) } } : State).respond
            ⟨0x51000000#32, [0x00000002#32]⟩)) ∧
    (e.reachable = true → s.a.outf.length < s.params.nFrame.toNat →
      exec (.aSend e.ip dgram) s = .next (({ s with a := { s.a with
        outf := s.a.outf ++ [⟨e.eth, s.a.eth, .ipv4 dgram⟩] } } : State).respond ⟨0x51000000#32, [0x00000003#32]⟩))

/-- R225, which the spec derives from R223, R224 and R237: where unit A meets its invariants, no A.SEND takes the resend arm (action 2). -/
def Obligations.ASendResendArmIsDead : Prop :=
  ∀ (ip : IpAddr) (dgram : List Byte) (s : State), ArpOk s.params s.a →
    ∃ (t : State) (r : Frame), exec (.aSend ip dgram) s = .next t ∧ t.rsp = s.rsp ++ [r] ∧ r.tail ≠ [0x00000002#32] ∧
      t.a.tab.take s.a.tab.length = s.a.tab

/-- R227, R228, R243: A.RECVIP answers 1 exactly when the destination is the local or the broadcast address and the host
parsed the datagram; nothing changes. -/
def Obligations.ARecvIpDeliversWhatIsForUs : Prop :=
  ∀ (ok : Bool) (lo hi : Word) (s : State), configured .arp s = true → hi.toNat < 2 ^ 16 →
    exec (.aRecvIp ok (hi ++ lo)) s = .next (s.respond ⟨0x52000000#32,
      [if ok = true ∧ (hi.toNat * 2 ^ 32 + lo.toNat = s.a.eth.toNat ∨ hi.toNat * 2 ^ 32 + lo.toNat = 2 ^ 48 - 1)
       then 0x00000001#32 else 0x00000000#32]⟩)

/-- R227, R229, R230, R244: an ARP message that is not for us by its destination, that did not parse, or that neither
targets the local IP nor comes from a sender in the table, is dropped whole with result (0, 0). -/
def Obligations.ARecvArpDropsTheUnaccepted : Prop :=
  ∀ (ok : Bool) (op : ArpOp) (dst senderEth targetEth : Quad) (senderIp targetIp : IpAddr) (s : State),
    configured .arp s = true → dst.toNat < 2 ^ 48 → senderEth.toNat < 2 ^ 48 → targetEth.toNat < 2 ^ 48 →
    (dst.toNat ≠ s.a.eth.toNat ∧ dst.toNat ≠ 2 ^ 48 - 1) ∨ ok = false ∨
      (targetIp ≠ s.a.ip ∧ ∀ e ∈ s.a.tab, e.ip ≠ senderIp) →
    exec (.aRecvArp ok op dst senderIp senderEth targetIp targetEth) s
      = .next (s.respond ⟨0x53000000#32, [0x00000000#32, 0x00000000#32]⟩)

/-- R230 to R235, R244: an accepted ARP message teaches its sender's address for 30000 ms (in place or as a new entry), is
answered if it is a request, and releases the sender's waiting datagrams in order, the reply first; result
`(1 + 2 * replied, flushed)`. (The reply's fields are R221's, the gating of reply and flush R230's: the spec's own choices,
D27 and D28.) -/
def Obligations.ARecvArpLearnsRepliesAndFlushes : Prop :=
  ∀ (op : ArpOp) (dst senderEth targetEth : Quad) (senderIp targetIp : IpAddr) (s : State) (q : List (List Byte))
    (reply : List EthFrame),
    configured .arp s = true → dst.toNat < 2 ^ 48 → senderEth.toNat < 2 ^ 48 → targetEth.toNat < 2 ^ 48 →
    dst.toNat = s.a.eth.toNat ∨ dst.toNat = 2 ^ 48 - 1 →
    targetIp = s.a.ip ∨ (∃ e ∈ s.a.tab, e.ip = senderIp) →
    (s.a.tab.map ArpEntry.ip).Nodup →
    q = (s.a.pend.filter (fun p => p.ip = senderIp)).map Pending.dgram →
    reply = (if op = .request then [⟨BitVec.ofNat 48 senderEth.toNat, s.a.eth,
      .arp ⟨.reply, s.a.ip, s.a.eth, senderIp, BitVec.ofNat 48 senderEth.toNat⟩⟩] else []) →
    s.a.outf.length + reply.length + q.length ≤ s.params.nFrame.toNat →
    ((∃ e ∈ s.a.tab, e.ip = senderIp) ∨ s.a.tab.length < s.params.nArp.toNat) →
    exec (.aRecvArp true op dst senderIp senderEth targetIp targetEth) s = .next (({ s with a := { s.a with
        tab := if (∃ e ∈ s.a.tab, e.ip = senderIp) then
            s.a.tab.map (fun e => if e.ip = senderIp then
              ⟨senderIp, BitVec.ofNat 48 senderEth.toNat, true, BitVec.ofNat 64 (s.a.now.toNat + 30000)⟩ else e)
          else s.a.tab ++ [⟨senderIp, BitVec.ofNat 48 senderEth.toNat, true, BitVec.ofNat 64 (s.a.now.toNat + 30000)⟩]
        outf := s.a.outf ++ reply ++ q.map (fun d => ⟨BitVec.ofNat 48 senderEth.toNat, s.a.eth, .ipv4 d⟩)
        pend := s.a.pend.filter (fun p => p.ip ≠ senderIp) } } : State).respond
      ⟨0x53000000#32, [if op = .request then 0x00000003#32 else 0x00000001#32, BitVec.ofNat 32 q.length]⟩)

/-- R236, R237, R245: A.TICK advances the clock, evicts exactly the entries whose expiry has been reached, keeps the others
in order, leaves the pending datagrams alone (R238), and answers how many it evicted. -/
def Obligations.ATickEvictsTheExpired : Prop :=
  ∀ (ms : Word) (s : State), configured .arp s = true → s.a.now.toNat + ms.toNat ≤ 2 ^ 64 - 1 - 30000 →
    exec (.aTick ms) s = .next (({ s with a := { s.a with
        now := BitVec.ofNat 64 (s.a.now.toNat + ms.toNat)
        tab := s.a.tab.filter (fun e => s.a.now.toNat + ms.toNat < e.expire.toNat) } } : State).respond
      ⟨0x54000000#32,
       [BitVec.ofNat 32 (s.a.tab.filter (fun e => e.expire.toNat ≤ s.a.now.toNat + ms.toNat)).length]⟩)

/-- R246: A.POPF removes the oldest frame and answers it: an IPv4 frame with its datagram as payload, an ARP frame by its
message's fields. R73: the datagram is packed four bytes a word, and the pad bytes of the last word are zero. -/
def Obligations.APopFReturnsTheOldestFrame : Prop :=
  ∀ (s : State) (f : EthFrame) (fs : List EthFrame), configured .arp s = true → s.a.outf = f :: fs →
    (∀ d : List Byte, f.body = .ipv4 d →
      exec .aPopF s = .next (({ s with a := { s.a with outf := fs } } : State).respond
        ⟨0x55#8 ++ 0x00#8 ++ BitVec.ofNat 16 d.length,
         [BitVec.ofNat 32 f.dst.toNat, BitVec.ofNat 32 (f.dst.toNat / 2 ^ 32), BitVec.ofNat 32 f.src.toNat,
          BitVec.ofNat 32 (f.src.toNat / 2 ^ 32), 0#32, 0#32, 0#32, 0#32, 0#32, 0#32, 0#32, 0#32] ++ paddedWords d⟩)) ∧
    (∀ m : ArpMsg, f.body = .arp m →
      exec .aPopF s = .next (({ s with a := { s.a with outf := fs } } : State).respond
        ⟨0x55000000#32,
         [BitVec.ofNat 32 f.dst.toNat, BitVec.ofNat 32 (f.dst.toNat / 2 ^ 32), BitVec.ofNat 32 f.src.toNat,
          BitVec.ofNat 32 (f.src.toNat / 2 ^ 32), 1#32, if m.opcode = .request then 0#32 else 1#32, m.senderIp,
          BitVec.ofNat 32 m.senderEth.toNat, BitVec.ofNat 32 (m.senderEth.toNat / 2 ^ 32), m.targetIp,
          BitVec.ofNat 32 m.targetEth.toNat, BitVec.ofNat 32 (m.targetEth.toNat / 2 ^ 32)]⟩))

/-- R220, R247: A.LOOKUP answers the entry of the address, 1 with its expiry while pending, 2 with its address and expiry
when reachable, five zero words when there is none; nothing changes. -/
def Obligations.ALookupShowsTheEntry : Prop :=
  ∀ (ip : IpAddr) (s : State), configured .arp s = true → (s.a.tab.map ArpEntry.ip).Nodup →
    ((∀ e ∈ s.a.tab, e.ip ≠ ip) →
      exec (.aLookup ip) s = .next (s.respond ⟨0x56000000#32, [0#32, 0#32, 0#32, 0#32, 0#32]⟩)) ∧
    (∀ e ∈ s.a.tab, e.ip = ip → e.reachable = false →
      exec (.aLookup ip) s = .next (s.respond ⟨0x56000000#32,
        [1#32, 0#32, 0#32, e.expire.extractLsb' 0 32, e.expire.extractLsb' 32 32]⟩)) ∧
    (∀ e ∈ s.a.tab, e.ip = ip → e.reachable = true →
      exec (.aLookup ip) s = .next (s.respond ⟨0x56000000#32,
        [2#32, BitVec.ofNat 32 e.eth.toNat, BitVec.ofNat 32 (e.eth.toNat / 2 ^ 32), e.expire.extractLsb' 0 32,
         e.expire.extractLsb' 32 32]⟩))

/-! ## Refusals -/

/-- R290, R323: every F, R, T and A command but the INITs is refused with ERR_NOCFG while its unit is not configured. -/
def Obligations.UnconfiguredUnitsRefuse : Prop :=
  ∀ (i : Instr) (u : CfgUnit) (s : State), configured u s = false →
    (match i with
      | .fWrite k _ | .fPeek k _ | .fPop k _ | .fEnd k | .fSetErr k => cfgOfFifo k = u
      | .rPush _ _ _ => u = .reasm
      | .tSent _ | .tAck _ _ | .tTick _ | .tSeqno => u = .timer
      | .aSend _ _ | .aRecvIp _ _ | .aRecvArp _ _ _ _ _ _ _ | .aTick _ | .aPopF | .aLookup _ => u = .arp
      | _ => False) →
    exec i s = .next (s.respond ⟨i.opcode ++ 0x02#8 ++ 0x0000#16, []⟩)

/-- R290, R293: the write-side commands on instance 1, the argument checks, the capacity checks and the emptiness check of a
configured unit are refused with their codes, in R293's order. -/
def Obligations.ConfiguredUnitsRefuseByTheirChecks : Prop :=
  ∀ s : State,
    (∀ data, configured .reasm s = true → exec (.fWrite .f1 data) s = .next (s.respond ⟨0x21040000#32, []⟩)) ∧
    (configured .reasm s = true → exec (.fEnd .f1) s = .next (s.respond ⟨0x24040000#32, []⟩)) ∧
    (configured .timer s = true → exec (.tSent 0#16) s = .next (s.respond ⟨0x41030000#32, []⟩)) ∧
    (∀ ackno window : Word, configured .timer s = true → 2 ^ 16 ≤ window.toNat →
      exec (.tAck ackno window) s = .next (s.respond ⟨0x42030000#32, []⟩)) ∧
    (∀ len : BitVec 16, configured .timer s = true → len ≠ 0#16 → s.t.outq.length = s.params.nOut.toNat →
      exec (.tSent len) s = .next (s.respond ⟨0x41050000#32, []⟩)) ∧
    (∀ (ok : Bool) (dst : Quad), configured .arp s = true → 2 ^ 48 ≤ dst.toNat →
      exec (.aRecvIp ok dst) s = .next (s.respond ⟨0x52030000#32, []⟩)) ∧
    (∀ (ok : Bool) (op : ArpOp) (dst seth teth : Quad) (sip tip : IpAddr), configured .arp s = true →
      2 ^ 48 ≤ dst.toNat ∨ 2 ^ 48 ≤ seth.toNat ∨ 2 ^ 48 ≤ teth.toNat →
      exec (.aRecvArp ok op dst sip seth tip teth) s = .next (s.respond ⟨0x53030000#32, []⟩)) ∧
    (∀ (ip : IpAddr) (dgram : List Byte), configured .arp s = true → (∀ e ∈ s.a.tab, e.ip ≠ ip) →
      s.a.pend.length = s.params.nPend.toNat ∨ s.a.outf.length = s.params.nFrame.toNat ∨
        s.a.tab.length = s.params.nArp.toNat →
      exec (.aSend ip dgram) s = .next (s.respond ⟨0x51050000#32, []⟩)) ∧
    (∀ (e : ArpEntry) (dgram : List Byte), configured .arp s = true → (s.a.tab.map ArpEntry.ip).Nodup → e ∈ s.a.tab →
      (e.reachable = false ∧ s.a.pend.length = s.params.nPend.toNat) ∨
        (e.reachable = false ∧ e.expire.toNat ≤ s.a.now.toNat ∧ s.a.outf.length = s.params.nFrame.toNat) ∨
        (e.reachable = true ∧ s.a.outf.length = s.params.nFrame.toNat) →
      exec (.aSend e.ip dgram) s = .next (s.respond ⟨0x51050000#32, []⟩)) ∧
    (∀ (op : ArpOp) (dst seth teth : Quad) (sip tip : IpAddr), configured .arp s = true →
      dst.toNat < 2 ^ 48 → seth.toNat < 2 ^ 48 → teth.toNat < 2 ^ 48 →
      dst.toNat = s.a.eth.toNat ∨ dst.toNat = 2 ^ 48 - 1 → tip = s.a.ip ∨ (∃ e ∈ s.a.tab, e.ip = sip) →
      s.params.nFrame.toNat < s.a.outf.length + (if op = .request then 1 else 0)
          + (s.a.pend.filter (fun p => p.ip = sip)).length ∨
        ((∀ e ∈ s.a.tab, e.ip ≠ sip) ∧ s.a.tab.length = s.params.nArp.toNat) →
      exec (.aRecvArp true op dst sip seth tip teth) s = .next (s.respond ⟨0x53050000#32, []⟩)) ∧
    (configured .arp s = true → s.a.outf = [] → exec .aPopF s = .next (s.respond ⟨0x55060000#32, []⟩))

/-- R290: the arithmetic guards of units R, T and A refuse with ERR_RANGE. -/
def Obligations.RangeGuardsRefuse : Prop :=
  ∀ s : State,
    (∀ (eof : Bool) (index : Quad) (data : List Byte), configured .reasm s = true →
      2 ^ 64 ≤ index.toNat + data.length → exec (.rPush eof index data) s = .next (s.respond ⟨0x31070000#32, []⟩)) ∧
    (∀ len : BitVec 16, configured .timer s = true → len ≠ 0#16 → s.t.outq.length < s.params.nOut.toNat →
      2 ^ 64 ≤ s.t.nextSeqno.toNat + len.toNat → exec (.tSent len) s = .next (s.respond ⟨0x41070000#32, []⟩)) ∧
    (∀ ackno window : Word, configured .timer s = true → window.toNat < 2 ^ 16 →
      2 ^ 64 - 2 ^ 32 ≤ s.t.lastAckno.toNat → (ackno - s.t.isn).toNat < s.t.lastAckno.toNat % 2 ^ 32 →
      exec (.tAck ackno window) s = .next (s.respond ⟨0x42070000#32, []⟩)) ∧
    (∀ ms : Word, configured .arp s = true → 2 ^ 64 - 1 - 30000 < s.a.now.toNat + ms.toNat →
      exec (.aTick ms) s = .next (s.respond ⟨0x54070000#32, []⟩))

/-! ## The whole machine -/

/-- R55: the commands that only read change nothing but the response port. -/
def Obligations.ReadsHaveNoSideEffect : Prop :=
  ∀ (i : Instr) (s : State),
    (match i with
      | .fPeek _ _ | .aLookup _ | .tSeqno | .rdreg _ | .nop | .aRecvIp _ _ | .wAdd _ _ | .wDiff _ _ | .wWrap _ _
      | .wUnwrap _ _ _ => True
      | _ => False) →
    ∃ r : Frame, exec i s = .next (s.respond r)

/-- R13, R323: no command of one unit changes the state of another; only unit R also writes FIFO 1, and a FIFO command
touches only the instance it names. -/
def Obligations.UnitsAreIndependent : Prop :=
  ∀ (i : Instr) (s t : State), exec i s = .next t → i ≠ .sreset →
    (i.opcode.extractLsb' 4 4 ≠ 2#4 → t.f0 = s.f0) ∧
    (i.opcode.extractLsb' 4 4 ≠ 2#4 → i.opcode.extractLsb' 4 4 ≠ 3#4 → t.f1 = s.f1) ∧
    (i.opcode.extractLsb' 4 4 ≠ 3#4 → t.r = s.r) ∧
    (i.opcode.extractLsb' 4 4 ≠ 4#4 → t.t = s.t) ∧
    (i.opcode.extractLsb' 4 4 ≠ 5#4 → t.a = s.a) ∧
    (i.opcode.extractLsb' 4 4 = 2#4 → ∀ k, instField k ≠ i.instBits → t.fifo k = s.fifo k) ∧
    t.port = s.port ∧ t.params = s.params

/-- R27, which the spec derives from R25, R123 and R125: every step keeps the invariants of both FIFO instances, and the canonical form of their memories. -/
def Obligations.StepKeepsFifoInvariant : Prop :=
  ∀ s t : State, FifoOk s.f0 → FifoOk s.f1 → step s = .next t → FifoOk t.f0 ∧ FifoOk t.f1

/-- R29, part of which the spec derives from R150 to R158: every step keeps the invariants of unit R: the stored segments disjoint, in order, beyond NEXT and inside the
window, and the output closed once EOF has been flagged and nothing is stored. -/
def Obligations.StepKeepsReassemblerInvariant : Prop :=
  ∀ s t : State, FifoOk s.f1 → ReasmOk s → step s = .next t → ReasmOk t

/-- R29 and R158, which the spec derives from R151, R153 and R154: under the invariants, the stored bytes and the buffered bytes together never exceed the capacity, and the
number of segments never exceeds the number of stored bytes. -/
def Obligations.StoredBytesFitTheCapacity : Prop :=
  ∀ s : State, FifoOk s.f1 → ReasmOk s →
    unasm s.r.seg + (s.f1.bw.toNat - s.f1.br.toNat) ≤ s.r.cap.toNat ∧ s.r.seg.length ≤ unasm s.r.seg

/-- R32, which the spec derives from R183 to R196: every step keeps the invariants of unit T. -/
def Obligations.StepKeepsTimerInvariant : Prop :=
  ∀ s t : State, TimerOk s.params s.t → step s = .next t → TimerOk t.params t.t

/-- R34, which the spec derives from R223 to R238, with R33's bounds: every step keeps the invariants of unit A: one entry per address, none expired, and every store within its
bound. -/
def Obligations.StepKeepsArpInvariant : Prop :=
  ∀ s t : State, ArpOk s.params s.a → step s = .next t → ArpOk t.params t.a

/-- Every step from a safe state answers a safe state: the invariants R27, R29, R32 and R34, which the spec derives, R33's
bounds, R128's and R159's capacities, and R272's "a register of a unit that has not been configured reads as its reset
value" (with nothing listed in its `MEM`, the model's choice of log entry 2). -/
def Obligations.StepKeepsSafety : Prop :=
  ∀ s : State, Safe s → ∃ t : State, step s = .next t ∧ Safe t

/-- R321: the state after reset is safe for any legal parameters; those of the model's own reset (log entry 1) are
legal. (`F[i].MEM` lists nothing there: the model's choice of log entry 2.) -/
def Obligations.ResetIsSafe : Prop :=
  (∀ p : Params, p.Legal → Safe (State.resetWith p)) ∧ Safe State.reset

/-- R25, R27 (spec/93 U1): cells of the byte memories outside the windows are never observed. Two states that differ at
most there give the same response to every input, and differ at most there afterwards. -/
def Obligations.UnusedCellsAreNeverObserved : Prop :=
  ∀ s u t : State, FifoOk s.f0 → FifoOk s.f1 → FifoOk u.f0 → FifoOk u.f1 → SameButUnusedCells s u → step s = .next t →
    ∃ v : State, step u = .next v ∧ SameButUnusedCells t v
end

