-- ==== Sys2Proof/Laws/State.lean ====
section
/-! SUPPORT. One lemma per field per update, true by `rfl`, so that no proof unfolds a record update. -/

namespace Sys2Proof.Machine

/-! ## `State.respond` -/

@[simp] theorem respond_port (s : State) (fr : Frame) : (s.respond fr).port = s.port := rfl
@[simp] theorem respond_rsp (s : State) (fr : Frame) : (s.respond fr).rsp = s.rsp ++ [fr] := rfl
@[simp] theorem respond_params (s : State) (fr : Frame) : (s.respond fr).params = s.params := rfl
@[simp] theorem respond_cfgd (s : State) (fr : Frame) : (s.respond fr).cfgd = s.cfgd := rfl
@[simp] theorem respond_f0 (s : State) (fr : Frame) : (s.respond fr).f0 = s.f0 := rfl
@[simp] theorem respond_f1 (s : State) (fr : Frame) : (s.respond fr).f1 = s.f1 := rfl
@[simp] theorem respond_r (s : State) (fr : Frame) : (s.respond fr).r = s.r := rfl
@[simp] theorem respond_t (s : State) (fr : Frame) : (s.respond fr).t = s.t := rfl
@[simp] theorem respond_a (s : State) (fr : Frame) : (s.respond fr).a = s.a := rfl

/-! ## `State.reinit` -/

@[simp] theorem reinit_port (s : State) : s.reinit.port = s.port := rfl
@[simp] theorem reinit_rsp (s : State) : s.reinit.rsp = s.rsp := rfl
@[simp] theorem reinit_params (s : State) : s.reinit.params = s.params := rfl
@[simp] theorem reinit_cfgd (s : State) : s.reinit.cfgd = 0#4 := rfl
@[simp] theorem reinit_f0 (s : State) : s.reinit.f0 = Fifo.reset := rfl
@[simp] theorem reinit_f1 (s : State) : s.reinit.f1 = Fifo.reset := rfl
@[simp] theorem reinit_r (s : State) : s.reinit.r = Reasm.reset := rfl
@[simp] theorem reinit_t (s : State) : s.reinit.t = Timer.reset := rfl
@[simp] theorem reinit_a (s : State) : s.reinit.a = Arp.reset := rfl

/-! ## `State.resetWith` -/

@[simp] theorem resetWith_port (p : Params) : (State.resetWith p).port = [] := rfl
@[simp] theorem resetWith_rsp (p : Params) : (State.resetWith p).rsp = [] := rfl
@[simp] theorem resetWith_params (p : Params) : (State.resetWith p).params = p := rfl
@[simp] theorem resetWith_cfgd (p : Params) : (State.resetWith p).cfgd = 0#4 := rfl
@[simp] theorem resetWith_f0 (p : Params) : (State.resetWith p).f0 = Fifo.reset := rfl
@[simp] theorem resetWith_f1 (p : Params) : (State.resetWith p).f1 = Fifo.reset := rfl
@[simp] theorem resetWith_r (p : Params) : (State.resetWith p).r = Reasm.reset := rfl
@[simp] theorem resetWith_t (p : Params) : (State.resetWith p).t = Timer.reset := rfl
@[simp] theorem resetWith_a (p : Params) : (State.resetWith p).a = Arp.reset := rfl

/-! ## `State.fifo` and `State.setFifo` -/

@[simp] theorem fifo_f0 (s : State) : s.fifo .f0 = s.f0 := rfl
@[simp] theorem fifo_f1 (s : State) : s.fifo .f1 = s.f1 := rfl
@[simp] theorem setFifo_f0_port (s : State) (f : Fifo) : (s.setFifo .f0 f).port = s.port := rfl
@[simp] theorem setFifo_f0_rsp (s : State) (f : Fifo) : (s.setFifo .f0 f).rsp = s.rsp := rfl
@[simp] theorem setFifo_f0_params (s : State) (f : Fifo) : (s.setFifo .f0 f).params = s.params := rfl
@[simp] theorem setFifo_f0_cfgd (s : State) (f : Fifo) : (s.setFifo .f0 f).cfgd = s.cfgd := rfl
@[simp] theorem setFifo_f0_f0 (s : State) (f : Fifo) : (s.setFifo .f0 f).f0 = f := rfl
@[simp] theorem setFifo_f0_f1 (s : State) (f : Fifo) : (s.setFifo .f0 f).f1 = s.f1 := rfl
@[simp] theorem setFifo_f0_r (s : State) (f : Fifo) : (s.setFifo .f0 f).r = s.r := rfl
@[simp] theorem setFifo_f0_t (s : State) (f : Fifo) : (s.setFifo .f0 f).t = s.t := rfl
@[simp] theorem setFifo_f0_a (s : State) (f : Fifo) : (s.setFifo .f0 f).a = s.a := rfl
@[simp] theorem setFifo_f1_port (s : State) (f : Fifo) : (s.setFifo .f1 f).port = s.port := rfl
@[simp] theorem setFifo_f1_rsp (s : State) (f : Fifo) : (s.setFifo .f1 f).rsp = s.rsp := rfl
@[simp] theorem setFifo_f1_params (s : State) (f : Fifo) : (s.setFifo .f1 f).params = s.params := rfl
@[simp] theorem setFifo_f1_cfgd (s : State) (f : Fifo) : (s.setFifo .f1 f).cfgd = s.cfgd := rfl
@[simp] theorem setFifo_f1_f0 (s : State) (f : Fifo) : (s.setFifo .f1 f).f0 = s.f0 := rfl
@[simp] theorem setFifo_f1_f1 (s : State) (f : Fifo) : (s.setFifo .f1 f).f1 = f := rfl
@[simp] theorem setFifo_f1_r (s : State) (f : Fifo) : (s.setFifo .f1 f).r = s.r := rfl
@[simp] theorem setFifo_f1_t (s : State) (f : Fifo) : (s.setFifo .f1 f).t = s.t := rfl
@[simp] theorem setFifo_f1_a (s : State) (f : Fifo) : (s.setFifo .f1 f).a = s.a := rfl
@[simp] theorem setFifo_port (s : State) (i : FifoId) (f : Fifo) : (s.setFifo i f).port = s.port := by cases i <;> rfl
@[simp] theorem setFifo_rsp (s : State) (i : FifoId) (f : Fifo) : (s.setFifo i f).rsp = s.rsp := by cases i <;> rfl
@[simp] theorem setFifo_params (s : State) (i : FifoId) (f : Fifo) : (s.setFifo i f).params = s.params := by cases i <;> rfl
@[simp] theorem setFifo_cfgd (s : State) (i : FifoId) (f : Fifo) : (s.setFifo i f).cfgd = s.cfgd := by cases i <;> rfl
@[simp] theorem setFifo_r (s : State) (i : FifoId) (f : Fifo) : (s.setFifo i f).r = s.r := by cases i <;> rfl
@[simp] theorem setFifo_t (s : State) (i : FifoId) (f : Fifo) : (s.setFifo i f).t = s.t := by cases i <;> rfl
@[simp] theorem setFifo_a (s : State) (i : FifoId) (f : Fifo) : (s.setFifo i f).a = s.a := by cases i <;> rfl
@[simp] theorem fifo_setFifo_same (s : State) (i : FifoId) (f : Fifo) : (s.setFifo i f).fifo i = f := by cases i <;> rfl
theorem fifo_setFifo_other (s : State) (i j : FifoId) (f : Fifo) (h : j ≠ i) : (s.setFifo i f).fifo j = s.fifo j := by
  cases i <;> cases j <;> first | rfl | exact absurd rfl h
@[simp] theorem fifo_respond (s : State) (fr : Frame) (i : FifoId) : (s.respond fr).fifo i = s.fifo i := by cases i <;> rfl

/-! ## `presentFirst` -/

@[simp] theorem presentFirst_port (fr : Frame) (s : State) : (presentFirst fr s).port = .command fr :: s.port := rfl
@[simp] theorem presentFirst_rsp (fr : Frame) (s : State) : (presentFirst fr s).rsp = s.rsp := rfl
@[simp] theorem presentFirst_params (fr : Frame) (s : State) : (presentFirst fr s).params = s.params := rfl
@[simp] theorem presentFirst_cfgd (fr : Frame) (s : State) : (presentFirst fr s).cfgd = s.cfgd := rfl
@[simp] theorem presentFirst_f0 (fr : Frame) (s : State) : (presentFirst fr s).f0 = s.f0 := rfl
@[simp] theorem presentFirst_f1 (fr : Frame) (s : State) : (presentFirst fr s).f1 = s.f1 := rfl
@[simp] theorem presentFirst_r (fr : Frame) (s : State) : (presentFirst fr s).r = s.r := rfl
@[simp] theorem presentFirst_t (fr : Frame) (s : State) : (presentFirst fr s).t = s.t := rfl
@[simp] theorem presentFirst_a (fr : Frame) (s : State) : (presentFirst fr s).a = s.a := rfl

/-! ## FIFO updates -/

@[simp] theorem fifoAppend_cap (f : Fifo) (data : List Byte) (k : Nat) : (f.append data k).cap = f.cap := rfl
@[simp] theorem fifoAppend_bw (f : Fifo) (data : List Byte) (k : Nat) : (f.append data k).bw = BitVec.ofNat 64 (f.bw.toNat + k) := rfl
@[simp] theorem fifoAppend_br (f : Fifo) (data : List Byte) (k : Nat) : (f.append data k).br = f.br := rfl
@[simp] theorem fifoAppend_wp (f : Fifo) (data : List Byte) (k : Nat) : (f.append data k).wp = BitVec.ofNat 32 ((f.wp.toNat + k) % f.cap.toNat) := rfl
@[simp] theorem fifoAppend_rp (f : Fifo) (data : List Byte) (k : Nat) : (f.append data k).rp = f.rp := rfl
@[simp] theorem fifoAppend_flags (f : Fifo) (data : List Byte) (k : Nat) : (f.append data k).flags = f.flags := rfl
@[simp] theorem fifoAppend_mem (f : Fifo) (data : List Byte) (k : Nat) : (f.append data k).mem = memWriteRun f.mem f.cap.toNat f.wp.toNat (data.take k) := rfl
@[simp] theorem fifoPop_cap (f : Fifo) (n : Nat) : (f.pop n).cap = f.cap := rfl
@[simp] theorem fifoPop_bw (f : Fifo) (n : Nat) : (f.pop n).bw = f.bw := rfl
@[simp] theorem fifoPop_br (f : Fifo) (n : Nat) : (f.pop n).br = BitVec.ofNat 64 (f.br.toNat + f.popCount n) := rfl
@[simp] theorem fifoPop_wp (f : Fifo) (n : Nat) : (f.pop n).wp = f.wp := rfl
@[simp] theorem fifoPop_rp (f : Fifo) (n : Nat) : (f.pop n).rp = BitVec.ofNat 32 ((f.rp.toNat + f.popCount n) % f.cap.toNat) := rfl
@[simp] theorem fifoPop_flags (f : Fifo) (n : Nat) : (f.pop n).flags = f.flags := rfl
@[simp] theorem fifoPop_mem (f : Fifo) (n : Nat) : (f.pop n).mem = f.mem := rfl
@[simp] theorem fifoInit_cap (f : Fifo) (c : Word) : (f.init c).cap = c := rfl
@[simp] theorem fifoInit_bw (f : Fifo) (c : Word) : (f.init c).bw = 0#64 := rfl
@[simp] theorem fifoInit_br (f : Fifo) (c : Word) : (f.init c).br = 0#64 := rfl
@[simp] theorem fifoInit_wp (f : Fifo) (c : Word) : (f.init c).wp = 0#32 := rfl
@[simp] theorem fifoInit_rp (f : Fifo) (c : Word) : (f.init c).rp = 0#32 := rfl
@[simp] theorem fifoInit_flags (f : Fifo) (c : Word) : (f.init c).flags = 0#2 := rfl
@[simp] theorem fifoInit_mem (f : Fifo) (c : Word) : (f.init c).mem = f.mem := rfl
@[simp] theorem fifoEndInput_cap (f : Fifo) : (f.endInput).cap = f.cap := rfl
@[simp] theorem fifoEndInput_bw (f : Fifo) : (f.endInput).bw = f.bw := rfl
@[simp] theorem fifoEndInput_br (f : Fifo) : (f.endInput).br = f.br := rfl
@[simp] theorem fifoEndInput_wp (f : Fifo) : (f.endInput).wp = f.wp := rfl
@[simp] theorem fifoEndInput_rp (f : Fifo) : (f.endInput).rp = f.rp := rfl
@[simp] theorem fifoEndInput_flags (f : Fifo) : (f.endInput).flags = f.flags ||| 0b01#2 := rfl
@[simp] theorem fifoEndInput_mem (f : Fifo) : (f.endInput).mem = f.mem := rfl
@[simp] theorem fifoSetError_cap (f : Fifo) : (f.setError).cap = f.cap := rfl
@[simp] theorem fifoSetError_bw (f : Fifo) : (f.setError).bw = f.bw := rfl
@[simp] theorem fifoSetError_br (f : Fifo) : (f.setError).br = f.br := rfl
@[simp] theorem fifoSetError_wp (f : Fifo) : (f.setError).wp = f.wp := rfl
@[simp] theorem fifoSetError_rp (f : Fifo) : (f.setError).rp = f.rp := rfl
@[simp] theorem fifoSetError_flags (f : Fifo) : (f.setError).flags = f.flags ||| 0b10#2 := rfl
@[simp] theorem fifoSetError_mem (f : Fifo) : (f.setError).mem = f.mem := rfl
@[simp] theorem fifoReset_cap  : (Fifo.reset).cap = 0#32 := rfl
@[simp] theorem fifoReset_bw  : (Fifo.reset).bw = 0#64 := rfl
@[simp] theorem fifoReset_br  : (Fifo.reset).br = 0#64 := rfl
@[simp] theorem fifoReset_wp  : (Fifo.reset).wp = 0#32 := rfl
@[simp] theorem fifoReset_rp  : (Fifo.reset).rp = 0#32 := rfl
@[simp] theorem fifoReset_flags  : (Fifo.reset).flags = 0#2 := rfl
@[simp] theorem fifoReset_mem  : (Fifo.reset).mem = [] := rfl
@[simp] theorem reasmReset_cap  : (Reasm.reset).cap = 0#32 := rfl
@[simp] theorem reasmReset_next  : (Reasm.reset).next = 0#64 := rfl
@[simp] theorem reasmReset_hasEof  : (Reasm.reset).hasEof = false := rfl
@[simp] theorem reasmReset_seg  : (Reasm.reset).seg = [] := rfl

/-! ## Unit T updates -/

@[simp] theorem timerReset_isn  : (Timer.reset).isn = 0#32 := rfl
@[simp] theorem timerReset_initRto  : (Timer.reset).initRto = 0#32 := rfl
@[simp] theorem timerReset_maxRetx  : (Timer.reset).maxRetx = 0#32 := rfl
@[simp] theorem timerReset_nextSeqno  : (Timer.reset).nextSeqno = 0#64 := rfl
@[simp] theorem timerReset_lastAckno  : (Timer.reset).lastAckno = 0#64 := rfl
@[simp] theorem timerReset_window  : (Timer.reset).window = 1#16 := rfl
@[simp] theorem timerReset_outb  : (Timer.reset).outb = 0#64 := rfl
@[simp] theorem timerReset_rto  : (Timer.reset).rto = 0#32 := rfl
@[simp] theorem timerReset_timer  : (Timer.reset).timer = 0#32 := rfl
@[simp] theorem timerReset_running  : (Timer.reset).running = false := rfl
@[simp] theorem timerReset_consec  : (Timer.reset).consec = 0#32 := rfl
@[simp] theorem timerReset_outq  : (Timer.reset).outq = [] := rfl
@[simp] theorem timerRecord_isn (t : Timer) (len : BitVec 16) : (t.record len).isn = t.isn := rfl
@[simp] theorem timerRecord_initRto (t : Timer) (len : BitVec 16) : (t.record len).initRto = t.initRto := rfl
@[simp] theorem timerRecord_maxRetx (t : Timer) (len : BitVec 16) : (t.record len).maxRetx = t.maxRetx := rfl
@[simp] theorem timerRecord_nextSeqno (t : Timer) (len : BitVec 16) : (t.record len).nextSeqno = BitVec.ofNat 64 (t.nextSeqno.toNat + len.toNat) := rfl
@[simp] theorem timerRecord_lastAckno (t : Timer) (len : BitVec 16) : (t.record len).lastAckno = t.lastAckno := rfl
@[simp] theorem timerRecord_window (t : Timer) (len : BitVec 16) : (t.record len).window = t.window := rfl
@[simp] theorem timerRecord_outb (t : Timer) (len : BitVec 16) : (t.record len).outb = BitVec.ofNat 64 (t.outb.toNat + len.toNat) := rfl
@[simp] theorem timerRecord_rto (t : Timer) (len : BitVec 16) : (t.record len).rto = t.rto := rfl
@[simp] theorem timerRecord_timer (t : Timer) (len : BitVec 16) : (t.record len).timer = if t.running then t.timer else 0#32 := rfl
@[simp] theorem timerRecord_running (t : Timer) (len : BitVec 16) : (t.record len).running = true := rfl
@[simp] theorem timerRecord_consec (t : Timer) (len : BitVec 16) : (t.record len).consec = t.consec := rfl
@[simp] theorem timerRecord_outq (t : Timer) (len : BitVec 16) : (t.record len).outq = t.outq ++ [⟨t.nextSeqno, len⟩] := rfl
@[simp] theorem timerFreshAck_isn (t : Timer) (ack : Quad) (w : BitVec 16) : (t.freshAck ack w).isn = t.isn := rfl
@[simp] theorem timerFreshAck_initRto (t : Timer) (ack : Quad) (w : BitVec 16) : (t.freshAck ack w).initRto = t.initRto := rfl
@[simp] theorem timerFreshAck_maxRetx (t : Timer) (ack : Quad) (w : BitVec 16) : (t.freshAck ack w).maxRetx = t.maxRetx := rfl
@[simp] theorem timerFreshAck_nextSeqno (t : Timer) (ack : Quad) (w : BitVec 16) : (t.freshAck ack w).nextSeqno = t.nextSeqno := rfl
@[simp] theorem timerFreshAck_lastAckno (t : Timer) (ack : Quad) (w : BitVec 16) : (t.freshAck ack w).lastAckno = ack := rfl
@[simp] theorem timerFreshAck_window (t : Timer) (ack : Quad) (w : BitVec 16) : (t.freshAck ack w).window = w := rfl
@[simp] theorem timerFreshAck_outb (t : Timer) (ack : Quad) (w : BitVec 16) : (t.freshAck ack w).outb = BitVec.ofNat 64 (popAcked ack.toNat t.outq t.outb.toNat 0).2.1 := rfl
@[simp] theorem timerFreshAck_rto (t : Timer) (ack : Quad) (w : BitVec 16) : (t.freshAck ack w).rto = t.initRto := rfl
@[simp] theorem timerFreshAck_timer (t : Timer) (ack : Quad) (w : BitVec 16) : (t.freshAck ack w).timer = 0#32 := rfl
@[simp] theorem timerFreshAck_running (t : Timer) (ack : Quad) (w : BitVec 16) : (t.freshAck ack w).running = !(popAcked ack.toNat t.outq t.outb.toNat 0).1.isEmpty := rfl
@[simp] theorem timerFreshAck_consec (t : Timer) (ack : Quad) (w : BitVec 16) : (t.freshAck ack w).consec = 0#32 := rfl
@[simp] theorem timerFreshAck_outq (t : Timer) (ack : Quad) (w : BitVec 16) : (t.freshAck ack w).outq = (popAcked ack.toNat t.outq t.outb.toNat 0).1 := rfl
@[simp] theorem timerExpire_isn (t : Timer) : (t.expire).isn = t.isn := rfl
@[simp] theorem timerExpire_initRto (t : Timer) : (t.expire).initRto = t.initRto := rfl
@[simp] theorem timerExpire_maxRetx (t : Timer) : (t.expire).maxRetx = t.maxRetx := rfl
@[simp] theorem timerExpire_nextSeqno (t : Timer) : (t.expire).nextSeqno = t.nextSeqno := rfl
@[simp] theorem timerExpire_lastAckno (t : Timer) : (t.expire).lastAckno = t.lastAckno := rfl
@[simp] theorem timerExpire_window (t : Timer) : (t.expire).window = t.window := rfl
@[simp] theorem timerExpire_outb (t : Timer) : (t.expire).outb = t.outb := rfl
@[simp] theorem timerExpire_rto (t : Timer) : (t.expire).rto = if t.window = 0#16 then t.rto else sat32 (2 * t.rto.toNat) := rfl
@[simp] theorem timerExpire_timer (t : Timer) : (t.expire).timer = 0#32 := rfl
@[simp] theorem timerExpire_running (t : Timer) : (t.expire).running = t.running := rfl
@[simp] theorem timerExpire_consec (t : Timer) : (t.expire).consec = if t.window = 0#16 then t.consec else sat32 (t.consec.toNat + 1) := rfl
@[simp] theorem timerExpire_outq (t : Timer) : (t.expire).outq = t.outq := rfl

/-! ## Unit A updates -/

@[simp] theorem arpReset_eth  : (Arp.reset).eth = 0#48 := rfl
@[simp] theorem arpReset_ip  : (Arp.reset).ip = 0#32 := rfl
@[simp] theorem arpReset_now  : (Arp.reset).now = 0#64 := rfl
@[simp] theorem arpReset_tab  : (Arp.reset).tab = [] := rfl
@[simp] theorem arpReset_pend  : (Arp.reset).pend = [] := rfl
@[simp] theorem arpReset_outf  : (Arp.reset).outf = [] := rfl
@[simp] theorem arpAccept_eth (a : Arp) (op : ArpOp) (ip : IpAddr) (eth : EthAddr) : (a.accept op ip eth).eth = a.eth := rfl
@[simp] theorem arpAccept_ip (a : Arp) (op : ArpOp) (ip : IpAddr) (eth : EthAddr) : (a.accept op ip eth).ip = a.ip := rfl
@[simp] theorem arpAccept_now (a : Arp) (op : ArpOp) (ip : IpAddr) (eth : EthAddr) : (a.accept op ip eth).now = a.now := rfl
@[simp] theorem arpAccept_tab (a : Arp) (op : ArpOp) (ip : IpAddr) (eth : EthAddr) : (a.accept op ip eth).tab = learn a ip eth := rfl
@[simp] theorem arpAccept_pend (a : Arp) (op : ArpOp) (ip : IpAddr) (eth : EthAddr) : (a.accept op ip eth).pend = a.pend.filter (fun p => p.ip != ip) := rfl
@[simp] theorem arpAccept_outf (a : Arp) (op : ArpOp) (ip : IpAddr) (eth : EthAddr) : (a.accept op ip eth).outf = a.outf ++ arpEmits a op ip eth := rfl
@[simp] theorem arpMiss_eth (a : Arp) (ip : IpAddr) (d : List Byte) : (a.miss ip d).eth = a.eth := rfl
@[simp] theorem arpMiss_ip (a : Arp) (ip : IpAddr) (d : List Byte) : (a.miss ip d).ip = a.ip := rfl
@[simp] theorem arpMiss_now (a : Arp) (ip : IpAddr) (d : List Byte) : (a.miss ip d).now = a.now := rfl
@[simp] theorem arpMiss_tab (a : Arp) (ip : IpAddr) (d : List Byte) : (a.miss ip d).tab = a.tab ++ [{ ip := ip, eth := Config.ethZero, reachable := false, expire := expiryAt a Config.arpWait }] := rfl
@[simp] theorem arpMiss_pend (a : Arp) (ip : IpAddr) (d : List Byte) : (a.miss ip d).pend = a.pend ++ [⟨ip, d⟩] := rfl
@[simp] theorem arpMiss_outf (a : Arp) (ip : IpAddr) (d : List Byte) : (a.miss ip d).outf = a.outf ++ [arpRequest a ip] := rfl
@[simp] theorem arpResend_eth (a : Arp) (e : ArpEntry) (ip : IpAddr) (d : List Byte) : (a.resend e ip d).eth = a.eth := rfl
@[simp] theorem arpResend_ip (a : Arp) (e : ArpEntry) (ip : IpAddr) (d : List Byte) : (a.resend e ip d).ip = a.ip := rfl
@[simp] theorem arpResend_now (a : Arp) (e : ArpEntry) (ip : IpAddr) (d : List Byte) : (a.resend e ip d).now = a.now := rfl
@[simp] theorem arpResend_tab (a : Arp) (e : ArpEntry) (ip : IpAddr) (d : List Byte) : (a.resend e ip d).tab = arpUpdate ip { e with expire := BitVec.ofNat 64 (e.expire.toNat + Config.arpWait) } a.tab := rfl
@[simp] theorem arpResend_pend (a : Arp) (e : ArpEntry) (ip : IpAddr) (d : List Byte) : (a.resend e ip d).pend = a.pend ++ [⟨ip, d⟩] := rfl
@[simp] theorem arpResend_outf (a : Arp) (e : ArpEntry) (ip : IpAddr) (d : List Byte) : (a.resend e ip d).outf = a.outf ++ [arpRequest a ip] := rfl
@[simp] theorem arpTick_eth (a : Arp) (ms : Word) : (a.tick ms).eth = a.eth := rfl
@[simp] theorem arpTick_ip (a : Arp) (ms : Word) : (a.tick ms).ip = a.ip := rfl
@[simp] theorem arpTick_now (a : Arp) (ms : Word) : (a.tick ms).now = BitVec.ofNat 64 (a.now.toNat + ms.toNat) := rfl
@[simp] theorem arpTick_tab (a : Arp) (ms : Word) : (a.tick ms).tab = a.tab.filter (fun e => a.now.toNat + ms.toNat < e.expire.toNat) := rfl
@[simp] theorem arpTick_pend (a : Arp) (ms : Word) : (a.tick ms).pend = a.pend := rfl
@[simp] theorem arpTick_outf (a : Arp) (ms : Word) : (a.tick ms).outf = a.outf := rfl

end Sys2Proof.Machine
end

