-- ==== Sys2Proof/Laws/Arp.lean ====
section
/-! SUPPORT. The ARP table's lookup and in-place update, and the operand checks of unit A. -/

namespace Sys2Proof.Machine

theorem arpLookup_eq_none_iff (tab : List ArpEntry) (ip : IpAddr) : arpLookup tab ip = none ↔ ∀ e ∈ tab, e.ip ≠ ip := by
  simp [arpLookup]

theorem arpLookup_isSome_iff (tab : List ArpEntry) (ip : IpAddr) :
    (arpLookup tab ip).isSome = true ↔ ∃ e ∈ tab, e.ip = ip := by
  simp [arpLookup]

/-- With one entry per address, the lookup answers the entry (R220). -/
theorem arpLookup_of_mem {tab : List ArpEntry} {e : ArpEntry} (hd : (tab.map ArpEntry.ip).Nodup) (he : e ∈ tab) :
    arpLookup tab e.ip = some e := by
  induction tab with
  | nil => cases he
  | cons x xs ih =>
    simp only [List.map_cons, List.nodup_cons] at hd
    rcases List.mem_cons.mp he with rfl | hx
    · simp [arpLookup]
    · have hne : x.ip ≠ e.ip := fun h => hd.1 (h ▸ List.mem_map_of_mem hx)
      simpa [arpLookup, hne] using ih hd.2 hx

/-- What a lookup that finds an entry answers. -/
theorem arpLookup_some {tab : List ArpEntry} {ip : IpAddr} {e : ArpEntry} (h : arpLookup tab ip = some e) :
    e ∈ tab ∧ e.ip = ip := by
  unfold arpLookup at h
  exact ⟨List.mem_of_find?_eq_some h, by simpa using List.find?_some h⟩

/-- With one entry per address, the in-place update is a map (R224, R231). -/
theorem arpUpdate_eq_map {tab : List ArpEntry} (ip : IpAddr) (new : ArpEntry) (hd : (tab.map ArpEntry.ip).Nodup) :
    arpUpdate ip new tab = tab.map (fun e => if e.ip = ip then new else e) := by
  induction tab with
  | nil => rfl
  | cons x xs ih =>
    simp only [List.map_cons, List.nodup_cons] at hd
    unfold arpUpdate
    split
    · next h =>
      simp only [List.map_cons, h, if_true, List.cons.injEq, true_and]
      have hx : ∀ e ∈ xs, (if e.ip = ip then new else e) = e := fun e he =>
        if_neg (fun h' => hd.1 (List.mem_map.mpr ⟨e, he, h'.trans h.symm⟩))
      rw [List.map_congr_left hx, List.map_id']
    · next h => simp [h, ih hd.2]

@[simp] theorem length_arpUpdate (ip : IpAddr) (new : ArpEntry) (tab : List ArpEntry) :
    (arpUpdate ip new tab).length = tab.length := by
  induction tab with
  | nil => rfl
  | cons x xs ih => unfold arpUpdate; split <;> simp [ih]

/-- An update that keeps the address keeps the table's addresses. -/
theorem map_ip_arpUpdate {ip : IpAddr} {new : ArpEntry} (h : new.ip = ip) (tab : List ArpEntry) :
    (arpUpdate ip new tab).map ArpEntry.ip = tab.map ArpEntry.ip := by
  induction tab with
  | nil => rfl
  | cons x xs ih =>
    unfold arpUpdate
    split
    · next hx => simp [h, hx]
    · simp [ih]

/-- Whatever an updated table holds is the new entry or was in the table. -/
theorem mem_arpUpdate {ip : IpAddr} {new e : ArpEntry} {tab : List ArpEntry} (h : e ∈ arpUpdate ip new tab) :
    e = new ∨ e ∈ tab := by
  induction tab with
  | nil => cases h
  | cons x xs ih =>
    unfold arpUpdate at h
    split at h
    · rcases List.mem_cons.mp h with rfl | h
      · exact .inl rfl
      · exact .inr (List.mem_cons_of_mem _ h)
    · rcases List.mem_cons.mp h with rfl | h
      · exact .inr (by simp)
      · exact (ih h).imp id (List.mem_cons_of_mem _)

/-- R76: the unused bits of an Ethernet address operand are zero exactly when its value has 48 bits. -/
theorem ethOperandBad_eq_false_iff (q : Quad) : ethOperandBad q = false ↔ q.toNat < 2 ^ 48 := by
  have := q.isLt
  simp only [ethOperandBad, ne_eq, decide_not, Bool.not_eq_false', decide_eq_true_eq, BitVec.toNat_inj.symm,
    BitVec.extractLsb'_toNat, Nat.shiftRight_eq_div_pow, BitVec.toNat_ofNat]
  omega

theorem ethOperand_toNat {q : Quad} (h : q.toNat < 2 ^ 48) : (ethOperand q).toNat = q.toNat := by
  simp only [ethOperand, BitVec.extractLsb'_toNat, Nat.shiftRight_zero]
  exact Nat.mod_eq_of_lt h

/-- R227, on operands whose unused bits are zero. -/
theorem arpForUs_iff (a : Arp) {q : Quad} (h : q.toNat < 2 ^ 48) :
    arpForUs a (ethOperand q) = true ↔ q.toNat = a.eth.toNat ∨ q.toNat = 2 ^ 48 - 1 := by
  simp [arpForUs, BitVec.toNat_inj.symm, ethOperand_toNat h, Config.broadcast]

end Sys2Proof.Machine
end

