-- ==== Sys2Proof/Laws/Encoding.lean ====
section
/-! SUPPORT. The header's fields, the byte packing, and the opcode table's rows. -/

namespace Sys2Proof

/-! ## Header fields -/

@[simp] theorem hdrOpcode_mkHeader (o : BitVec 8) (i f : BitVec 4) (l : BitVec 16) : hdrOpcode (mkHeader o i f l) = o := by
  ext k hk
  simp only [hdrOpcode, mkHeader, BitVec.getElem_extractLsb', BitVec.getLsbD_append]
  simp [show ¬ (24 + k < 16) by omega, show ¬ (24 + k - 16 < 4) by omega, show ¬ (24 + k - 16 - 4 < 4) by omega,
    show 24 + k - 16 - 4 - 4 = k by omega, BitVec.getLsbD_eq_getElem hk]

@[simp] theorem hdrInst_mkHeader (o : BitVec 8) (i f : BitVec 4) (l : BitVec 16) : hdrInst (mkHeader o i f l) = i := by
  ext k hk
  simp only [hdrInst, mkHeader, BitVec.getElem_extractLsb', BitVec.getLsbD_append]
  simp [show ¬ (20 + k < 16) by omega, show ¬ (20 + k - 16 < 4) by omega,
    show 20 + k - 16 - 4 = k by omega, hk]

@[simp] theorem hdrFlags_mkHeader (o : BitVec 8) (i f : BitVec 4) (l : BitVec 16) : hdrFlags (mkHeader o i f l) = f := by
  ext k hk
  simp only [hdrFlags, mkHeader, BitVec.getElem_extractLsb', BitVec.getLsbD_append]
  simp [show ¬ (16 + k < 16) by omega, show 16 + k - 16 = k by omega, hk]

@[simp] theorem hdrLen_mkHeader (o : BitVec 8) (i f : BitVec 4) (l : BitVec 16) : hdrLen (mkHeader o i f l) = l := by
  ext k hk
  simp only [hdrLen, mkHeader, BitVec.getElem_extractLsb', BitVec.getLsbD_append]
  simp [hk]

/-- A header is its four fields. -/
theorem mkHeader_fields (h : Word) : mkHeader (hdrOpcode h) (hdrInst h) (hdrFlags h) (hdrLen h) = h := by
  apply BitVec.eq_of_getLsbD_eq
  intro k hk
  simp only [mkHeader, BitVec.getLsbD_append, hdrOpcode, hdrInst, hdrFlags, hdrLen, BitVec.getLsbD_extractLsb']
  by_cases h1 : k < 16
  · simp [h1]
  · by_cases h2 : k - 16 < 4
    · simp [h1, h2, show 16 + (k - 16) = k by omega]
    · by_cases h3 : k - 16 - 4 < 4
      · simp [h1, h2, h3, show 20 + (k - 16 - 4) = k by omega]
      · simp [h1, h2, h3, show k - 16 - 4 - 4 < 8 by omega, show 24 + (k - 16 - 4 - 4) = k by omega]

/-- Masking a header masks its fields. -/
theorem mkHeader_and (o o' : BitVec 8) (i i' f f' : BitVec 4) (l l' : BitVec 16) :
    mkHeader o i f l &&& mkHeader o' i' f' l' = mkHeader (o &&& o') (i &&& i') (f &&& f') (l &&& l') := by
  apply BitVec.eq_of_getLsbD_eq
  intro k hk
  simp only [mkHeader, BitVec.getLsbD_and, BitVec.getLsbD_append]
  split
  · rfl
  · split
    · rfl
    · split <;> rfl

/-! ## Words and bytes -/

/-- The two operand words of a 64-bit value, put together again (R12). -/
theorem quad_of_words (q : Quad) : (q.extractLsb' 32 32 ++ q.extractLsb' 0 32 : Quad) = q := by
  ext k hk
  simp only [BitVec.getElem_append]
  split
  · simp [BitVec.getLsbD_eq_getElem hk]
  · simp [show 32 + (k - 32) = k by omega, BitVec.getLsbD_eq_getElem hk]

@[simp] theorem length_quadWords (q : Quad) : (quadWords q).length = 2 := rfl

/-- A packed word gives back its four bytes (R73). -/
theorem unpackWord_append (b0 b1 b2 b3 : Byte) : unpackWord (b3 ++ b2 ++ b1 ++ b0) = [b0, b1, b2, b3] := by
  simp only [unpackWord, List.cons.injEq, and_true]
  refine ⟨?_, ?_, ?_, ?_⟩ <;> ext k hk <;> simp only [BitVec.getElem_extractLsb', BitVec.getLsbD_append]
  · simp [hk]
  · simp [show ¬ (8 + k < 8) by omega, hk, show 8 + k - 8 = k by omega]
  · simp [show ¬ (16 + k < 8) by omega, show ¬ (16 + k - 8 < 8) by omega, show 16 + k - 8 - 8 = k by omega, hk]
  · simp [show ¬ (24 + k < 8) by omega, show ¬ (24 + k - 8 < 8) by omega, show ¬ (24 + k - 8 - 8 < 8) by omega,
      show 24 + k - 8 - 8 - 8 = k by omega, BitVec.getLsbD_eq_getElem hk]

/-- The last word's pad bytes are zero (R73). -/
theorem pad_one (b0 : Byte) : (0#24 ++ b0 : Word) = 0#8 ++ 0#8 ++ 0#8 ++ b0 := by
  ext k hk
  simp only [BitVec.getElem_append]
  split <;> simp

theorem pad_two (b0 b1 : Byte) : (0#16 ++ b1 ++ b0 : Word) = 0#8 ++ 0#8 ++ b1 ++ b0 := by
  ext k hk
  simp only [BitVec.getElem_append]
  split <;> [rfl; split <;> simp]

/-- Packing makes `ceil(len / 4)` words (R72). -/
theorem length_pack : ∀ bs : List Byte, (pack bs).length = wordsFor bs.length
  | [] => rfl
  | [_] => by simp [pack, wordsFor]
  | [_, _] => by simp [pack, wordsFor]
  | [_, _, _] => by simp [pack, wordsFor]
  | _ :: _ :: _ :: _ :: bs => by
    simp only [pack, List.length_cons, length_pack bs, wordsFor]
    omega

/-- Unpacking what was packed gives the bytes back, whatever follows (R73). -/
theorem unpack_pack : ∀ bs : List Byte, unpack bs.length (pack bs) = bs
  | [] => rfl
  | [b0] => by simp [unpack, pack, unpackWords, pad_one, unpackWord_append]
  | [b0, b1] => by simp [unpack, pack, unpackWords, pad_two, unpackWord_append]
  | [b0, b1, b2] => by simp [unpack, pack, unpackWords, unpackWord_append]
  | b0 :: b1 :: b2 :: b3 :: bs => by
    have ih := unpack_pack bs
    simp only [unpack] at ih
    simp [unpack, pack, unpackWords, unpackWord_append, ih]

/-- R73: what packing answers, word by word. -/
theorem pack_eq_paddedWords : ∀ bs : List Byte, pack bs = Machine.paddedWords bs
  | [] => rfl
  | [b0] => by simp [pack, Machine.paddedWords, pad_one]
  | [b0, b1] => by simp [pack, Machine.paddedWords, pad_two]
  | [b0, b1, b2] => by simp [pack, Machine.paddedWords]
  | b0 :: b1 :: b2 :: b3 :: bs => by
    have h : (bs.length + 1 + 1 + 1 + 1 + 3) / 4 = (bs.length + 3) / 4 + 1 := by omega
    simp only [pack, pack_eq_paddedWords bs, Machine.paddedWords, List.length_cons, h, List.range_succ_eq_map,
      List.map_cons, List.map_map]
    simp [Function.comp_def, Nat.mul_add]

/-! ## The table -/

/-- No two rows have one opcode. -/
theorem opcodes_differ : opcodeTable.Pairwise (fun a b => a.opcode ≠ b.opcode) := by decide

/-- The opcode table has 27 rows (R78). -/
theorem length_opcodeTable : opcodeTable.length = 27 := rfl

/-! ## Decoding (R79) -/

/-- A frame that passes the three checks of a row is the command the row builds. -/
theorem decode_eq_ok {h : Word} {tail : List Word} {row : Row} {i : Instr} (hrow : rowOf (hdrOpcode h) = some row)
    (hmask : h &&& row.mask = row.pattern) (hlen : tail.length = tailWords row (hdrLen h))
    (hbuild : buildInstr (hdrOpcode h) (hdrInst h) (hdrFlags h) (hdrLen h) (tail.take row.nops)
      (if row.payload then unpack (hdrLen h).toNat (tail.drop row.nops) else []) = some i) :
    decode ⟨h, tail⟩ = .ok i := by
  simp only [decode, hrow, hmask, hlen, ne_eq, not_true_eq_false, if_false, hbuild]

/-- Everything a frame that decodes satisfies. -/
theorem decode_ok_cases {fr : Frame} {i : Instr} (h : decode fr = .ok i) :
    ∃ row, rowOf (hdrOpcode fr.header) = some row ∧ fr.header &&& row.mask = row.pattern ∧
      fr.tail.length = tailWords row (hdrLen fr.header) ∧
      buildInstr (hdrOpcode fr.header) (hdrInst fr.header) (hdrFlags fr.header) (hdrLen fr.header)
        (fr.tail.take row.nops)
        (if row.payload then unpack (hdrLen fr.header).toNat (fr.tail.drop row.nops) else []) = some i := by
  unfold decode at h
  split at h
  · cases h
  · next row hrow =>
    split at h
    · cases h
    · next hmask =>
      split at h
      · cases h
      · next hlen =>
        split at h
        · next j hb => cases h; exact ⟨row, hrow, by simpa using hmask, by simpa using hlen, hb⟩
        · cases h

end Sys2Proof
end

