-- ==== Sys2Proof/Laws/Memory.lean ====
section
/-! SUPPORT. The byte memories: read after write, the canonical form, and runs of accesses. -/

namespace Sys2Proof.Machine

/-! ## One byte -/

theorem memRead_of_wfFrom_lt {m : List Host.Cell} {lo a : Nat} (h : memWfFrom lo m = true) (ha : a < lo) :
    memRead m a = Config.unwrittenByte := by
  induction m generalizing lo with
  | nil => rfl
  | cons x m ih =>
    obtain ⟨x, c⟩ := x
    simp only [memWfFrom, Bool.and_eq_true, decide_eq_true_eq] at h
    obtain ⟨⟨hlo, -⟩, hm⟩ := h
    simp only [memRead, show a ≠ x by omega, if_false]
    exact ih hm (by omega)

/-- A larger lower bound is a stronger canonical form. -/
theorem memWfFrom_mono {m : List Host.Cell} {lo lo' : Nat} (hl : lo' ≤ lo) (h : memWfFrom lo m = true) :
    memWfFrom lo' m = true := by
  cases m with
  | nil => rfl
  | cons x m =>
    obtain ⟨x, c⟩ := x
    simp only [memWfFrom, Bool.and_eq_true, decide_eq_true_eq] at h ⊢
    exact ⟨⟨by omega, h.1.2⟩, h.2⟩

/-- A byte read at the cell just written is the byte written. -/
theorem memRead_memWrite_same {m : List Host.Cell} {lo : Nat} (h : memWfFrom lo m = true) (a : Nat) (b : Byte) :
    memRead (memWrite m a b) a = b := by
  induction m generalizing lo with
  | nil => by_cases hb : b = Config.unwrittenByte <;> simp [memWrite, memRead, hb]
  | cons x m ih =>
    obtain ⟨x, c⟩ := x
    simp only [memWfFrom, Bool.and_eq_true, decide_eq_true_eq] at h
    obtain ⟨⟨hlo, hc⟩, hm⟩ := h
    unfold memWrite
    split
    · next hlt =>
      split
      · next hb =>
        simp only [memRead, show a ≠ x by omega, if_false, hb]
        exact memRead_of_wfFrom_lt hm (by omega)
      · simp [memRead]
    · split
      · next hnl heq =>
        split
        · next hb => rw [hb]; exact memRead_of_wfFrom_lt hm (by omega)
        · simp [memRead]
      · next hnl hne =>
        simp only [memRead, hne, if_false]
        exact ih hm

/-- A write leaves every other cell as it was. -/
theorem memRead_memWrite_other {m : List Host.Cell} {lo : Nat} (h : memWfFrom lo m = true) {a a' : Nat} (b : Byte)
    (ha : a' ≠ a) : memRead (memWrite m a b) a' = memRead m a' := by
  induction m generalizing lo with
  | nil => by_cases hb : b = Config.unwrittenByte <;> simp [memWrite, memRead, hb, ha]
  | cons x m ih =>
    obtain ⟨x, c⟩ := x
    simp only [memWfFrom, Bool.and_eq_true, decide_eq_true_eq] at h
    obtain ⟨⟨hlo, hc⟩, hm⟩ := h
    unfold memWrite
    split
    · split
      · rfl
      · simp [memRead, ha]
    · split
      · next hnl heq =>
        subst heq
        split <;> simp [memRead, ha]
      · simp only [memRead]
        split
        · rfl
        · exact ih hm

theorem memWfFrom_memWrite {m : List Host.Cell} {lo a : Nat} (b : Byte) (h : memWfFrom lo m = true) (ha : lo ≤ a) :
    memWfFrom lo (memWrite m a b) = true := by
  induction m generalizing lo with
  | nil => by_cases hb : b = Config.unwrittenByte <;> simp [memWrite, memWfFrom, hb, ha]
  | cons x m ih =>
    obtain ⟨x, c⟩ := x
    have h0 := h
    simp only [memWfFrom, Bool.and_eq_true, decide_eq_true_eq] at h
    obtain ⟨⟨hlo, hc⟩, hm⟩ := h
    unfold memWrite
    split
    · next hlt =>
      split
      · exact h0
      · next hb =>
        simp only [memWfFrom, Bool.and_eq_true, decide_eq_true_eq]
        exact ⟨⟨ha, hb⟩, ⟨by omega, hc⟩, hm⟩
    · split
      · next hnl heq =>
        split
        · exact memWfFrom_mono (by omega) hm
        · next hb =>
          simp only [memWfFrom, Bool.and_eq_true, decide_eq_true_eq]
          subst heq
          exact ⟨⟨hlo, hb⟩, hm⟩
      · simp only [memWfFrom, Bool.and_eq_true, decide_eq_true_eq]
        exact ⟨⟨hlo, hc⟩, ih hm (by omega)⟩

/-- Every write keeps the canonical form. -/
theorem memWf_memWrite {m : List Host.Cell} (a : Nat) (b : Byte) (h : Mem.wf m = true) : Mem.wf (memWrite m a b) = true :=
  memWfFrom_memWrite b h (Nat.zero_le a)

/-- The empty memory is in canonical form. -/
@[simp] theorem memWf_nil : Mem.wf [] = true := rfl

/-- A cell of the empty memory reads as an unwritten one. -/
@[simp] theorem memRead_nil (a : Nat) : memRead [] a = Config.unwrittenByte := rfl

/-! ## Runs -/

/-- A run of writes keeps the canonical form. -/
theorem memWf_memWriteRun {m : List Host.Cell} (cap start : Nat) (bs : List Byte) (h : Mem.wf m = true) :
    Mem.wf (memWriteRun m cap start bs) = true := by
  induction bs generalizing m start with
  | nil => exact h
  | cons b bs ih => exact ih (start + 1) (memWf_memWrite _ _ h)

/-- A cell that no byte of a run goes to is left as it was. -/
theorem memRead_memWriteRun_other {m : List Host.Cell} {cap start a : Nat} {bs : List Byte} (h : Mem.wf m = true)
    (ha : ∀ j < bs.length, a ≠ (start + j) % cap) : memRead (memWriteRun m cap start bs) a = memRead m a := by
  induction bs generalizing m start with
  | nil => rfl
  | cons b bs ih =>
    have h0 : a ≠ start % cap := by simpa using ha 0 (by simp)
    rw [memWriteRun, ih (memWf_memWrite _ _ h), memRead_memWrite_other h b h0]
    intro j hj
    have := ha (j + 1) (by simpa using hj)
    rwa [show start + (j + 1) = start + 1 + j by omega] at this

/-- Two cells of a run no longer than `cap` are different. -/
theorem run_cells_ne {cap start i j : Nat} (hij : i < j) (hj : j < cap) :
    (start + i) % cap ≠ (start + j) % cap := by
  intro h
  have h1 := (Nat.modEq_iff_dvd' (show start + i ≤ start + j by omega)).mp (show (start + i) ≡ (start + j) [MOD cap] from h)
  rw [show start + j - (start + i) = j - i by omega] at h1
  have := Nat.le_of_dvd (by omega) h1
  omega

/-- Byte `j` of a run no longer than `cap` is read back at its cell. -/
theorem memRead_memWriteRun_same {m : List Host.Cell} {cap start j : Nat} {bs : List Byte} (h : Mem.wf m = true)
    (hlen : bs.length ≤ cap) (hj : j < bs.length) :
    memRead (memWriteRun m cap start bs) ((start + j) % cap) = bs[j] := by
  induction bs generalizing m start j with
  | nil => simp at hj
  | cons b bs ih =>
    simp only [List.length_cons] at hlen hj
    rw [memWriteRun]
    cases j with
    | zero =>
      rw [memRead_memWriteRun_other (memWf_memWrite _ _ h)]
      · simpa using memRead_memWrite_same h (start % cap) b
      · intro i hi
        rw [show start + 1 + i = start + (i + 1) by omega]
        exact run_cells_ne (by omega) (by omega)
    | succ j =>
      have := ih (start := start + 1) (memWf_memWrite (start % cap) b h) (by omega) (j := j) (by omega)
      rw [show start + (j + 1) = start + 1 + j by omega]
      simpa using this

/-- A run of writes in two parts. -/
theorem memWriteRun_append (m : List Host.Cell) (cap start : Nat) (as bs : List Byte) :
    memWriteRun m cap start (as ++ bs) = memWriteRun (memWriteRun m cap start as) cap (start + as.length) bs := by
  induction as generalizing m start with
  | nil => rfl
  | cons a as ih =>
    simp only [List.cons_append, memWriteRun, List.length_cons, ih]
    rw [show start + 1 + as.length = start + (as.length + 1) by omega]

/-- A run that starts at a cell of the memory or any number of turns on. -/
theorem memWriteRun_mod (m : List Host.Cell) (cap start : Nat) (bs : List Byte) :
    memWriteRun m cap (start % cap) bs = memWriteRun m cap start bs := by
  have h : ∀ (start' : Nat) (m : List Host.Cell), start' % cap = start % cap →
      memWriteRun m cap start' bs = memWriteRun m cap start bs := by
    induction bs generalizing start with
    | nil => intros; rfl
    | cons b bs ih =>
      intro start' m hm
      simp only [memWriteRun, hm]
      exact ih (start + 1) (start' + 1) _ (Nat.ModEq.add_right 1 hm)
  exact h _ m (Nat.mod_mod _ _)

/-- A run of reads has the length asked for. -/
@[simp] theorem length_memReadRun (m : List Host.Cell) (cap start k : Nat) : (memReadRun m cap start k).length = k := by
  induction k generalizing start with
  | zero => rfl
  | succ k ih => simp [memReadRun, ih]

/-- Byte `j` of a run of reads. -/
theorem getElem_memReadRun {m : List Host.Cell} {cap start k j : Nat} (hj : j < (memReadRun m cap start k).length) :
    (memReadRun m cap start k)[j] = memRead m ((start + j) % cap) := by
  induction k generalizing start j with
  | zero => simp [memReadRun] at hj
  | succ k ih =>
    cases j with
    | zero => simp [memReadRun]
    | succ j =>
      simp only [memReadRun, List.getElem_cons_succ]
      rw [ih, show start + 1 + j = start + (j + 1) by omega]

/-- A run of reads as the comprehension of R124. -/
theorem memReadRun_eq_map (m : List Host.Cell) (cap start k : Nat) :
    memReadRun m cap start k = (List.range k).map (fun j => memRead m ((start + j) % cap)) := by
  apply List.ext_getElem
  · simp
  · intro j h1 h2
    simp [getElem_memReadRun]

/-- The first `n` bytes of a run of reads. -/
theorem take_memReadRun (m : List Host.Cell) (cap start k n : Nat) :
    (memReadRun m cap start k).take n = memReadRun m cap start (min n k) := by
  simp only [memReadRun_eq_map, List.map_take.symm, List.take_range]

end Sys2Proof.Machine
end

