-- ==== Sys2Proof/Laws/Fifo.lean ====
section
/-! SUPPORT. What the FIFO's operations can do, and the bits of `SYS.CFGD` and `FLAGS`. -/

namespace Sys2Proof.Machine

/-! ## Bits -/

/-- R22: a unit is configured exactly when its bit of `SYS.CFGD` is set. -/
theorem configured_iff (u : CfgUnit) (s : State) : configured u s = true ↔
    s.cfgd.getLsbD (match u with | .fifo0 => 0 | .reasm => 1 | .timer => 2 | .arp => 3) = true := by
  have h : ∀ c : BitVec 4, (decide (c &&& cfgMask u ≠ 0#4) = true ↔
      c.getLsbD (match u with | .fifo0 => 0 | .reasm => 1 | .timer => 2 | .arp => 3) = true) := by
    cases u <;> decide
  exact h s.cfgd

/-- An INIT command configures its own unit and no other. -/
theorem configured_cfgdWith (u v : CfgUnit) (s : State) (c : BitVec 4) (hc : c = cfgdWith u s) :
    (c &&& cfgMask v ≠ 0#4) ↔ (u = v ∨ configured v s = true) := by
  have h : ∀ c : BitVec 4, ((c ||| cfgMask u) &&& cfgMask v ≠ 0#4) ↔ (u = v ∨ decide (c &&& cfgMask v ≠ 0#4) = true) := by
    cases u <;> cases v <;> decide
  rw [hc]
  exact h s.cfgd

@[simp] theorem inputEnded_endInput (f : Fifo) : f.endInput.inputEnded = true := by
  have h : ∀ c : BitVec 2, (c ||| 0b01#2).getLsbD 0 = true := by decide
  exact h f.flags

@[simp] theorem errorFlag_endInput (f : Fifo) : f.endInput.errorFlag = f.errorFlag := by
  have h : ∀ c : BitVec 2, (c ||| 0b01#2).getLsbD 1 = c.getLsbD 1 := by decide
  exact h f.flags

@[simp] theorem inputEnded_setError (f : Fifo) : f.setError.inputEnded = f.inputEnded := by
  have h : ∀ c : BitVec 2, (c ||| 0b10#2).getLsbD 0 = c.getLsbD 0 := by decide
  exact h f.flags

@[simp] theorem errorFlag_setError (f : Fifo) : f.setError.errorFlag = true := by
  have h : ∀ c : BitVec 2, (c ||| 0b10#2).getLsbD 1 = true := by decide
  exact h f.flags

/-- Closing a closed FIFO changes nothing (R127). -/
theorem endInput_of_ended {f : Fifo} (h : f.inputEnded = true) : f.endInput = f := by
  have hc : ∀ c : BitVec 2, c.getLsbD 0 = true → c ||| 0b01#2 = c := by decide
  simp only [Fifo.endInput, hc f.flags h]

@[simp] theorem inputEnded_append (f : Fifo) (data : List Byte) (k : Nat) : (f.append data k).inputEnded = f.inputEnded := rfl
@[simp] theorem errorFlag_append (f : Fifo) (data : List Byte) (k : Nat) : (f.append data k).errorFlag = f.errorFlag := rfl
@[simp] theorem inputEnded_pop (f : Fifo) (n : Nat) : (f.pop n).inputEnded = f.inputEnded := rfl
@[simp] theorem errorFlag_pop (f : Fifo) (n : Nat) : (f.pop n).errorFlag = f.errorFlag := rfl

/-! ## Operations -/

/-- Everything a write that is not refused can do (R123). -/
theorem write_cases {f f' : Fifo} {data : List Byte} {k : Nat} (h : f.write data = some (f', k)) :
    (f.inputEnded = true ∧ f' = f ∧ k = 0) ∨
    (f.inputEnded = false ∧ k = min data.length f.remaining ∧ f.bw.toNat + k < 2 ^ 64 ∧ f' = f.append data k) := by
  unfold Fifo.write at h
  split at h
  · next he => cases h; exact .inl ⟨he, rfl, rfl⟩
  · next he =>
    dsimp only at h
    split at h
    · cases h
    · next hr => cases h; exact .inr ⟨by simpa using he, rfl, by omega, rfl⟩

/-- A write is refused only by the counter's guard (R122). -/
theorem write_eq_none_iff (f : Fifo) (data : List Byte) : f.write data = none ↔
    f.inputEnded = false ∧ 2 ^ 64 ≤ f.bw.toNat + min data.length f.remaining := by
  unfold Fifo.write
  split
  · next he => simp [he]
  · next he =>
    dsimp only
    split
    · next hr => simpa [he] using hr
    · next hr => simpa [he] using hr

/-- What a peek answers, byte by byte (R124). -/
theorem peek_eq_map (f : Fifo) (n : Nat) :
    f.peek n = (List.range (min n f.size)).map (fun j => memRead f.mem ((f.rp.toNat + j) % f.cap.toNat)) :=
  memReadRun_eq_map _ _ _ _

@[simp] theorem length_peek (f : Fifo) (n : Nat) : (f.peek n).length = min n f.size := length_memReadRun _ _ _ _

@[simp] theorem length_contents (f : Fifo) : f.contents.length = f.size := length_memReadRun _ _ _ _

/-! ## Under R27's invariants -/

/-- Appending no byte changes nothing. -/
theorem append_zero {f : Fifo} (h : FifoOk f) (data : List Byte) : f.append data 0 = f := by
  have hw : BitVec.ofNat 32 ((f.wp.toNat + 0) % f.cap.toNat) = f.wp := by
    by_cases hc : f.cap = 0#32
    · simp [hc]
    · rw [Nat.add_zero, h.wpEq hc, Nat.mod_mod, ← h.wpEq hc, BitVec.ofNat_toNat, BitVec.setWidth_eq]
  simp only [Fifo.append, hw]
  simp [memWriteRun]

theorem append_bw_toNat {f : Fifo} {data : List Byte} {k : Nat} (h : f.bw.toNat + k < 2 ^ 64) :
    (f.append data k).bw.toNat = f.bw.toNat + k := by
  simp only [fifoAppend_bw, BitVec.toNat_ofNat]
  exact Nat.mod_eq_of_lt h

theorem append_wp_toNat {f : Fifo} {data : List Byte} {k : Nat} (hc : f.cap ≠ 0#32) :
    (f.append data k).wp.toNat = (f.wp.toNat + k) % f.cap.toNat := by
  have hpos : 0 < f.cap.toNat := Nat.pos_of_ne_zero fun h0 => hc (BitVec.eq_of_toNat_eq (by simpa using h0))
  have := Nat.mod_lt (f.wp.toNat + k) hpos
  have := f.cap.isLt
  simp only [fifoAppend_wp, BitVec.toNat_ofNat]
  exact Nat.mod_eq_of_lt (by omega)

/-- Bytes for which there is room keep the invariants. -/
theorem FifoOk.append {f : Fifo} (h : FifoOk f) {data : List Byte} {k : Nat} (hk : k ≤ f.remaining)
    (hb : f.bw.toNat + k < 2 ^ 64) : FifoOk (f.append data k) where
  brLeBw := by rw [append_bw_toNat hb]; have := h.brLeBw; simp only [fifoAppend_br]; omega
  sizeLeCap := by
    rw [append_bw_toNat hb]
    have := h.brLeBw
    have := h.sizeLeCap
    simp only [Fifo.remaining, Fifo.size] at hk
    simp only [fifoAppend_br, fifoAppend_cap]
    omega
  wpEq := fun hc => by
    rw [fifoAppend_cap] at hc ⊢
    rw [append_bw_toNat hb, append_wp_toNat hc, h.wpEq hc, Nat.mod_add_mod]
  rpEq := fun hc => h.rpEq hc
  memWf := memWf_memWriteRun _ _ _ h.memWf

/-- Two appends one after the other are one. -/
theorem append_append {f : Fifo} {data data' : List Byte} {k' : Nat} (hb : f.bw.toNat + data.length < 2 ^ 64)
    (hc : f.cap ≠ 0#32) :
    (f.append data data.length).append data' k' = f.append (data ++ data'.take k') (data.length + k') := by
  have hw := append_wp_toNat (f := f) (data := data) (k := data.length) hc
  have htake : (data ++ data'.take k').take (data.length + k') = data ++ data'.take k' := by
    rw [List.take_append, List.take_of_length_le (Nat.le_add_right _ _), Nat.add_sub_cancel_left, List.take_take,
      Nat.min_self]
  unfold Fifo.append at hw ⊢
  simp only [Fifo.mk.injEq, true_and] at hw ⊢
  refine ⟨?_, ?_, ?_⟩
  · simp only [BitVec.toNat_ofNat, Nat.mod_eq_of_lt hb, Nat.add_assoc]
  · rw [hw, Nat.mod_add_mod, Nat.add_assoc]
  · rw [hw, memWriteRun_mod, htake, memWriteRun_append, List.take_length]

end Sys2Proof.Machine
end

