-- ==== Sys2Proof/Laws/PerInstr.lean ====
section
/-! SUPPORT. Laws stated for every instruction, one lemma per constructor. -/

namespace Sys2Proof.Laws.HeaderMatches

/-- The command's frame fits its own row of the opcode table: the row is found, the masked header is the row's pattern
(no must-be-zero bit is set), and the word count is the row's (R72, R78, R79). -/
def Statement (i : Instr) : Prop :=
  i.wellFormed = true →
    ∃ row, rowOf i.opcode = some row ∧ (encode i).header &&& row.mask = row.pattern ∧
      (encode i).tail.length = tailWords row i.lenBits

/-- A mask given by its fields, applied to a header given by its fields. -/
theorem mask_fields {o : BitVec 8} {i f im fm : BitVec 4} {l lm : BitVec 16} (hi : i &&& im = 0#4) (hf : f &&& fm = 0#4)
    (hl : l &&& lm = 0#16) : mkHeader o i f l &&& mkHeader 0xFF#8 im fm lm = mkHeader o 0#4 0#4 0#16 := by
  have h1 : o &&& 0xFF#8 = o := BitVec.and_allOnes (x := o)
  rw [mkHeader_and, hi, hf, hl, h1]

/-- The statement from the opcode, a row, and the row's mask by its fields. -/
theorem of_row {i : Instr} (o : BitVec 8) (row : Row) (im fm : BitVec 4) (lm : BitVec 16) (ho : i.opcode = o)
    (hrow : rowOf o = some row ∧ row.mask = mkHeader 0xFF#8 im fm lm ∧ row.pattern = mkHeader o 0#4 0#4 0#16)
    (hi : i.instBits &&& im = 0#4) (hf : i.flagBits &&& fm = 0#4) (hl : i.lenBits &&& lm = 0#16)
    (hlen : (encode i).tail.length = tailWords row i.lenBits) :
    ∃ row, rowOf i.opcode = some row ∧ (encode i).header &&& row.mask = row.pattern ∧
      (encode i).tail.length = tailWords row i.lenBits := by
  obtain ⟨h1, h2, h3⟩ := hrow
  refine ⟨row, by rw [ho]; exact h1, ?_, hlen⟩
  rw [h2, h3, encode, ho]
  exact mask_fields hi hf hl

/-- The instance field has only its bit 20 (R79). -/
theorem inst_mask (i : FifoId) : instField i &&& 0xE#4 = 0#4 := by cases i <;> rfl

/-- A payload's word count, from the `LEN` field its length is written to. -/
theorem payload_words {data : List Byte} (h : lenFits data = true) :
    (pack data).length = wordsFor (BitVec.ofNat 16 data.length).toNat := by
  have h' : data.length < 65536 := by simpa [lenFits] using h
  rw [length_pack, BitVec.toNat_ofNat, Nat.mod_eq_of_lt (by omega)]

theorem nop : Statement (.nop) := fun _ =>
  of_row 0x00#8 ⟨"NOP", 0x00#8, 0xFFFFFFFF#32, 0x00000000#32, 0, false, 0, false⟩ 0xF#4 0xF#4 0xFFFF#16
    rfl (by decide)
    (by simp [Instr.instBits]) (by simp [Instr.flagBits]) (by simp [Instr.lenBits])
    (by simp [encode, Instr.operands, Instr.payload, pack, tailWords])

theorem rdreg (id : BitVec 16) : Statement (.rdreg id) := fun _ =>
  of_row 0x01#8 ⟨"RDREG", 0x01#8, 0xFFFF0000#32, 0x01000000#32, 0, false, 2, false⟩ 0xF#4 0xF#4 0x0000#16
    rfl (by decide)
    (by simp [Instr.instBits]) (by simp [Instr.flagBits]) BitVec.and_zero
    (by simp [encode, Instr.operands, Instr.payload, pack, tailWords])

theorem sreset : Statement (.sreset) := fun _ =>
  of_row 0x02#8 ⟨"SRESET", 0x02#8, 0xFFFFFFFF#32, 0x02000000#32, 0, false, 0, false⟩ 0xF#4 0xF#4 0xFFFF#16
    rfl (by decide)
    (by simp [Instr.instBits]) (by simp [Instr.flagBits]) (by simp [Instr.lenBits])
    (by simp [encode, Instr.operands, Instr.payload, pack, tailWords])

theorem wAdd (w off : Word) : Statement (.wAdd w off) := fun _ =>
  of_row 0x10#8 ⟨"W.ADD", 0x10#8, 0xFFFFFFFF#32, 0x10000000#32, 2, false, 1, false⟩ 0xF#4 0xF#4 0xFFFF#16
    rfl (by decide)
    (by simp [Instr.instBits]) (by simp [Instr.flagBits]) (by simp [Instr.lenBits])
    (by simp [encode, Instr.operands, Instr.payload, pack, tailWords])

theorem wDiff (a b : Word) : Statement (.wDiff a b) := fun _ =>
  of_row 0x11#8 ⟨"W.DIFF", 0x11#8, 0xFFFFFFFF#32, 0x11000000#32, 2, false, 1, false⟩ 0xF#4 0xF#4 0xFFFF#16
    rfl (by decide)
    (by simp [Instr.instBits]) (by simp [Instr.flagBits]) (by simp [Instr.lenBits])
    (by simp [encode, Instr.operands, Instr.payload, pack, tailWords])

theorem wWrap (n : Quad) (isn : Word) : Statement (.wWrap n isn) := fun _ =>
  of_row 0x12#8 ⟨"W.WRAP", 0x12#8, 0xFFFFFFFF#32, 0x12000000#32, 3, false, 1, false⟩ 0xF#4 0xF#4 0xFFFF#16
    rfl (by decide)
    (by simp [Instr.instBits]) (by simp [Instr.flagBits]) (by simp [Instr.lenBits])
    (by simp [encode, Instr.operands, Instr.payload, pack, tailWords])

theorem wUnwrap (w isn : Word) (checkpoint : Quad) : Statement (.wUnwrap w isn checkpoint) := fun _ =>
  of_row 0x13#8 ⟨"W.UNWRAP", 0x13#8, 0xFFFFFFFF#32, 0x13000000#32, 4, false, 2, false⟩ 0xF#4 0xF#4 0xFFFF#16
    rfl (by decide)
    (by simp [Instr.instBits]) (by simp [Instr.flagBits]) (by simp [Instr.lenBits])
    (by simp [encode, Instr.operands, Instr.payload, pack, tailWords])

theorem fInit (inst : FifoId) (cap : Word) : Statement (.fInit inst cap) := fun _ =>
  of_row 0x20#8 ⟨"F.INIT", 0x20#8, 0xFFEFFFFF#32, 0x20000000#32, 1, false, 0, false⟩ 0xE#4 0xF#4 0xFFFF#16
    rfl (by decide)
    (inst_mask inst) (by simp [Instr.flagBits]) (by simp [Instr.lenBits])
    (by simp [encode, Instr.operands, Instr.payload, pack, tailWords])

theorem fWrite (inst : FifoId) (data : List Byte) : Statement (.fWrite inst data) := fun h =>
  of_row 0x21#8 ⟨"F.WRITE", 0x21#8, 0xFFEF0000#32, 0x21000000#32, 0, true, 1, false⟩ 0xE#4 0xF#4 0x0000#16
    rfl (by decide)
    (inst_mask inst) (by simp [Instr.flagBits]) BitVec.and_zero
    (by simp [encode, Instr.operands, Instr.payload, Instr.lenBits, tailWords, payload_words h])

theorem fPeek (inst : FifoId) (n : BitVec 16) : Statement (.fPeek inst n) := fun _ =>
  of_row 0x22#8 ⟨"F.PEEK", 0x22#8, 0xFFEF0000#32, 0x22000000#32, 0, false, 0, true⟩ 0xE#4 0xF#4 0x0000#16
    rfl (by decide)
    (inst_mask inst) (by simp [Instr.flagBits]) BitVec.and_zero
    (by simp [encode, Instr.operands, Instr.payload, pack, tailWords])

theorem fPop (inst : FifoId) (n : BitVec 16) : Statement (.fPop inst n) := fun _ =>
  of_row 0x23#8 ⟨"F.POP", 0x23#8, 0xFFEF0000#32, 0x23000000#32, 0, false, 1, false⟩ 0xE#4 0xF#4 0x0000#16
    rfl (by decide)
    (inst_mask inst) (by simp [Instr.flagBits]) BitVec.and_zero
    (by simp [encode, Instr.operands, Instr.payload, pack, tailWords])

theorem fEnd (inst : FifoId) : Statement (.fEnd inst) := fun _ =>
  of_row 0x24#8 ⟨"F.END", 0x24#8, 0xFFEFFFFF#32, 0x24000000#32, 0, false, 0, false⟩ 0xE#4 0xF#4 0xFFFF#16
    rfl (by decide)
    (inst_mask inst) (by simp [Instr.flagBits]) (by simp [Instr.lenBits])
    (by simp [encode, Instr.operands, Instr.payload, pack, tailWords])

theorem fSetErr (inst : FifoId) : Statement (.fSetErr inst) := fun _ =>
  of_row 0x25#8 ⟨"F.SETERR", 0x25#8, 0xFFEFFFFF#32, 0x25000000#32, 0, false, 0, false⟩ 0xE#4 0xF#4 0xFFFF#16
    rfl (by decide)
    (inst_mask inst) (by simp [Instr.flagBits]) (by simp [Instr.lenBits])
    (by simp [encode, Instr.operands, Instr.payload, pack, tailWords])

theorem rInit (cap : Word) : Statement (.rInit cap) := fun _ =>
  of_row 0x30#8 ⟨"R.INIT", 0x30#8, 0xFFFFFFFF#32, 0x30000000#32, 1, false, 0, false⟩ 0xF#4 0xF#4 0xFFFF#16
    rfl (by decide)
    (by simp [Instr.instBits]) (by simp [Instr.flagBits]) (by simp [Instr.lenBits])
    (by simp [encode, Instr.operands, Instr.payload, pack, tailWords])

theorem rPush (eof : Bool) (index : Quad) (data : List Byte) : Statement (.rPush eof index data) := fun h =>
  of_row 0x31#8 ⟨"R.PUSH", 0x31#8, 0xFFFE0000#32, 0x31000000#32, 2, true, 1, false⟩ 0xF#4 0xE#4 0x0000#16
    rfl (by decide)
    (by simp [Instr.instBits]) (by cases eof <;> simp only [Instr.flagBits] <;> rfl) BitVec.and_zero
    (by simp [encode, Instr.operands, Instr.payload, Instr.lenBits, tailWords, payload_words h])

theorem tInit (isn initialRto maxRetx : Word) : Statement (.tInit isn initialRto maxRetx) := fun _ =>
  of_row 0x40#8 ⟨"T.INIT", 0x40#8, 0xFFFFFFFF#32, 0x40000000#32, 3, false, 0, false⟩ 0xF#4 0xF#4 0xFFFF#16
    rfl (by decide)
    (by simp [Instr.instBits]) (by simp [Instr.flagBits]) (by simp [Instr.lenBits])
    (by simp [encode, Instr.operands, Instr.payload, pack, tailWords])

theorem tSent (len : BitVec 16) : Statement (.tSent len) := fun _ =>
  of_row 0x41#8 ⟨"T.SENT", 0x41#8, 0xFFFF0000#32, 0x41000000#32, 0, false, 3, false⟩ 0xF#4 0xF#4 0x0000#16
    rfl (by decide)
    (by simp [Instr.instBits]) (by simp [Instr.flagBits]) BitVec.and_zero
    (by simp [encode, Instr.operands, Instr.payload, pack, tailWords])

theorem tAck (ackno window : Word) : Statement (.tAck ackno window) := fun _ =>
  of_row 0x42#8 ⟨"T.ACK", 0x42#8, 0xFFFFFFFF#32, 0x42000000#32, 2, false, 2, false⟩ 0xF#4 0xF#4 0xFFFF#16
    rfl (by decide)
    (by simp [Instr.instBits]) (by simp [Instr.flagBits]) (by simp [Instr.lenBits])
    (by simp [encode, Instr.operands, Instr.payload, pack, tailWords])

theorem tTick (ms : Word) : Statement (.tTick ms) := fun _ =>
  of_row 0x43#8 ⟨"T.TICK", 0x43#8, 0xFFFFFFFF#32, 0x43000000#32, 1, false, 5, false⟩ 0xF#4 0xF#4 0xFFFF#16
    rfl (by decide)
    (by simp [Instr.instBits]) (by simp [Instr.flagBits]) (by simp [Instr.lenBits])
    (by simp [encode, Instr.operands, Instr.payload, pack, tailWords])

theorem tSeqno : Statement (.tSeqno) := fun _ =>
  of_row 0x44#8 ⟨"T.SEQNO", 0x44#8, 0xFFFFFFFF#32, 0x44000000#32, 0, false, 1, false⟩ 0xF#4 0xF#4 0xFFFF#16
    rfl (by decide)
    (by simp [Instr.instBits]) (by simp [Instr.flagBits]) (by simp [Instr.lenBits])
    (by simp [encode, Instr.operands, Instr.payload, pack, tailWords])

theorem aInit (eth : Quad) (ip : IpAddr) : Statement (.aInit eth ip) := fun _ =>
  of_row 0x50#8 ⟨"A.INIT", 0x50#8, 0xFFFFFFFF#32, 0x50000000#32, 3, false, 0, false⟩ 0xF#4 0xF#4 0xFFFF#16
    rfl (by decide)
    (by simp [Instr.instBits]) (by simp [Instr.flagBits]) (by simp [Instr.lenBits])
    (by simp [encode, Instr.operands, Instr.payload, pack, tailWords])

theorem aSend (nextHop : IpAddr) (dgram : List Byte) : Statement (.aSend nextHop dgram) := fun h =>
  of_row 0x51#8 ⟨"A.SEND", 0x51#8, 0xFFFF0000#32, 0x51000000#32, 1, true, 1, false⟩ 0xF#4 0xF#4 0x0000#16
    rfl (by decide)
    (by simp [Instr.instBits]) (by simp [Instr.flagBits]) BitVec.and_zero
    (by simp [encode, Instr.operands, Instr.payload, Instr.lenBits, tailWords, payload_words h, Nat.add_comm])

theorem aRecvIp (parseOk : Bool) (dst : Quad) : Statement (.aRecvIp parseOk dst) := fun _ =>
  of_row 0x52#8 ⟨"A.RECVIP", 0x52#8, 0xFFFEFFFF#32, 0x52000000#32, 2, false, 1, false⟩ 0xF#4 0xE#4 0xFFFF#16
    rfl (by decide)
    (by simp [Instr.instBits]) (by cases parseOk <;> simp only [Instr.flagBits] <;> rfl) (by simp [Instr.lenBits])
    (by simp [encode, Instr.operands, Instr.payload, pack, tailWords])

theorem aRecvArp (parseOk : Bool) (op : ArpOp) (dst : Quad) (senderIp : IpAddr) (senderEth : Quad) (targetIp : IpAddr) (targetEth : Quad) : Statement (.aRecvArp parseOk op dst senderIp senderEth targetIp targetEth) := fun _ =>
  of_row 0x53#8 ⟨"A.RECVARP", 0x53#8, 0xFFFCFFFF#32, 0x53000000#32, 8, false, 2, false⟩ 0xF#4 0xC#4 0xFFFF#16
    rfl (by decide)
    (by simp [Instr.instBits]) (by cases parseOk <;> cases op <;> simp only [Instr.flagBits] <;> rfl) (by simp [Instr.lenBits])
    (by simp [encode, Instr.operands, Instr.payload, pack, tailWords])

theorem aTick (ms : Word) : Statement (.aTick ms) := fun _ =>
  of_row 0x54#8 ⟨"A.TICK", 0x54#8, 0xFFFFFFFF#32, 0x54000000#32, 1, false, 1, false⟩ 0xF#4 0xF#4 0xFFFF#16
    rfl (by decide)
    (by simp [Instr.instBits]) (by simp [Instr.flagBits]) (by simp [Instr.lenBits])
    (by simp [encode, Instr.operands, Instr.payload, pack, tailWords])

theorem aPopF : Statement (.aPopF) := fun _ =>
  of_row 0x55#8 ⟨"A.POPF", 0x55#8, 0xFFFFFFFF#32, 0x55000000#32, 0, false, 12, true⟩ 0xF#4 0xF#4 0xFFFF#16
    rfl (by decide)
    (by simp [Instr.instBits]) (by simp [Instr.flagBits]) (by simp [Instr.lenBits])
    (by simp [encode, Instr.operands, Instr.payload, pack, tailWords])

theorem aLookup (ip : IpAddr) : Statement (.aLookup ip) := fun _ =>
  of_row 0x56#8 ⟨"A.LOOKUP", 0x56#8, 0xFFFFFFFF#32, 0x56000000#32, 1, false, 5, false⟩ 0xF#4 0xF#4 0xFFFF#16
    rfl (by decide)
    (by simp [Instr.instBits]) (by simp [Instr.flagBits]) (by simp [Instr.lenBits])
    (by simp [encode, Instr.operands, Instr.payload, pack, tailWords])

end Sys2Proof.Laws.HeaderMatches
end

