-- ==== Sys2Proof/Laws/Reasm.lean ====
section
/-! SUPPORT. Stored segments and the delivery loop of unit R. -/

namespace Sys2Proof.Machine

/-! ## Stored segments -/

theorem SegsIn.mono_lo {lo lo' hi : Nat} {seg : List Seg} (h : SegsIn lo hi seg) (hl : lo' ≤ lo) : SegsIn lo' hi seg := by
  cases seg with
  | nil => trivial
  | cons g gs => exact ⟨h.1, by have := h.2.1; omega, h.2.2⟩

theorem SegsIn.mono_hi {lo hi hi' : Nat} {seg : List Seg} (h : SegsIn lo hi seg) (hh : hi ≤ hi') : SegsIn lo hi' seg := by
  induction seg generalizing lo with
  | nil => trivial
  | cons g gs ih => exact ⟨h.1, h.2.1, by have := h.2.2.1; omega, ih h.2.2.2⟩

/-- Every stored segment is non-empty and lies inside the bounds. -/
theorem SegsIn.mem {lo hi : Nat} {seg : List Seg} (h : SegsIn lo hi seg) {g : Seg} (hg : g ∈ seg) :
    g.data ≠ [] ∧ lo ≤ g.start.toNat ∧ g.stop ≤ hi := by
  induction seg generalizing lo with
  | nil => cases hg
  | cons x xs ih =>
    rcases List.mem_cons.mp hg with rfl | hg
    · exact ⟨h.1, h.2.1, h.2.2.1⟩
    · have := ih h.2.2.2 hg
      have hx : x.start.toNat ≤ x.stop := Nat.le_add_right _ _
      have := h.2.1
      exact ⟨by tauto, by omega, by tauto⟩

theorem Seg.start_lt_stop {g : Seg} (h : g.data ≠ []) : g.start.toNat < g.stop := by
  have := List.length_pos_iff.mpr h
  simp only [Seg.stop]
  omega

/-- R158: the stored bytes fit between the bounds. -/
theorem SegsIn.unasm_le {lo hi : Nat} {seg : List Seg} (h : SegsIn lo hi seg) (hl : lo ≤ hi) : unasm seg ≤ hi - lo := by
  induction seg generalizing lo with
  | nil => simp [unasm]
  | cons g gs ih =>
    have h1 := ih h.2.2.2 h.2.2.1
    have h2 := h.2.1
    have h3 := h.2.2.1
    simp only [unasm, Seg.stop] at *
    omega

/-- No byte is stored below the lower bound. -/
theorem SegsIn.storedAt_lt {lo hi x : Nat} {seg : List Seg} (h : SegsIn lo hi seg) (hx : x < lo) : storedAt x seg = none := by
  induction seg generalizing lo with
  | nil => rfl
  | cons g gs ih =>
    have := h.2.1
    have hs : g.start.toNat ≤ g.stop := Nat.le_add_right _ _
    simp only [storedAt, show ¬ (g.start.toNat ≤ x ∧ x < g.stop) by omega, if_false]
    exact ih h.2.2.2 (by omega)

/-- A byte is stored exactly inside some segment. -/
theorem storedAt_eq_none_iff (x : Nat) (seg : List Seg) :
    storedAt x seg = none ↔ ∀ g ∈ seg, ¬ (g.start.toNat ≤ x ∧ x < g.stop) := by
  induction seg with
  | nil => simp [storedAt]
  | cons g gs ih =>
    simp only [storedAt, List.forall_mem_cons]
    split
    · next h =>
      have : x - g.start.toNat < g.data.length := by
        have := h.2
        simp only [Seg.stop] at this
        omega
      simp [this, h]
    · next h => simp [h, ih]

/-! ## Merging a piece -/

/-- R155: where a piece is inserted: after every segment that begins before it. -/
theorem insertSeg_eq (p : Seg) (seg : List Seg) : insertSeg p seg =
    seg.takeWhile (fun g => g.start.toNat < p.start.toNat) ++ p :: seg.dropWhile (fun g => g.start.toNat < p.start.toNat) := by
  induction seg with
  | nil => rfl
  | cons g gs ih =>
    by_cases h : p.start.toNat ≤ g.start.toNat
    · simp [insertSeg, h, Nat.not_lt.mpr h]
    · simp [insertSeg, h, Nat.not_le.mp h, ih]

/-- Insertion adds the piece and keeps every segment. -/
@[simp] theorem mem_insertSeg {p g : Seg} {seg : List Seg} : g ∈ insertSeg p seg ↔ g = p ∨ g ∈ seg := by
  rw [insertSeg_eq, List.mem_append, List.mem_cons, or_left_comm, ← List.mem_append, List.takeWhile_append_dropWhile]

/-- R153, 5a: a piece that is empty or covered by one segment changes nothing. -/
theorem mergePiece_of_discarded {seg : List Seg} {index s e : Nat} {data : List Byte}
    (h : e ≤ s ∨ ∃ g ∈ seg, g.start.toNat ≤ s ∧ e ≤ g.stop) : mergePiece seg index data s e = seg := by
  rw [mergePiece, if_neg]
  rintro ⟨h1, h2⟩
  rcases h with h | ⟨g, hg, h3, h4⟩
  · omega
  · exact h2 (List.any_eq_true.mpr ⟨g, hg, by simp [Seg.covers, h3, h4]⟩)

/-- 5b, 5c, R155: any other piece is stored. -/
theorem mergePiece_of_stored {seg : List Seg} {index s e : Nat} {data : List Byte} (h : s < e)
    (hc : ∀ g ∈ seg, ¬ (g.start.toNat ≤ s ∧ e ≤ g.stop)) : mergePiece seg index data s e = storePiece seg index data s e := by
  rw [mergePiece, if_pos]
  refine ⟨h, fun ha => ?_⟩
  obtain ⟨g, hg, h1⟩ := List.any_eq_true.mp ha
  exact hc g hg (by simpa [Seg.covers] using h1)

/-! ## The push -/

@[simp] theorem closeIfDone_of_not {hasEof : Bool} {seg : List Seg} {f : Fifo} (h : ¬ (hasEof = true ∧ seg = [])) :
    closeIfDone hasEof seg f = f := by
  unfold closeIfDone
  split
  · next hc => simp at hc; exact absurd hc h
  · rfl

theorem closeIfDone_eq (hasEof : Bool) (seg : List Seg) (f : Fifo) :
    closeIfDone hasEof seg f = if hasEof = true ∧ seg = [] then f.endInput else f := by
  simp [closeIfDone]

/-- R152's three conditions. -/
theorem dropped_iff (index len next fu : Nat) :
    dropped index len next fu = true ↔ len = 0 ∨ index + len ≤ next ∨ fu ≤ index := by
  simp [dropped, or_assoc]

/-- A closed output takes nothing: the loop only removes the segments that begin at `next` (R156). -/
theorem deliver_of_ended {seg : List Seg} {f : Fifo} {next : Quad} (h : f.inputEnded = true) :
    deliver seg f next = some (seg.dropWhile (fun g => g.start = next), f, next) := by
  induction seg with
  | nil => rfl
  | cons g gs ih =>
    unfold deliver
    split
    · next hg => simp [Fifo.write, h, hg, ih]
    · next hg => simp [hg]

/-- A loop that is not entered changes nothing (R156). -/
theorem deliver_of_head_ne {seg : List Seg} {f : Fifo} {next : Quad} (h : ∀ g ∈ seg, g.start ≠ next) :
    deliver seg f next = some (seg, f, next) := by
  cases seg with
  | nil => rfl
  | cons g gs => simp [deliver, h g (by simp)]

/-- R156: the loop only removes segments from the front. -/
theorem deliver_suffix {seg rest : List Seg} {f f' : Fifo} {next next' : Quad}
    (h : deliver seg f next = some (rest, f', next')) : rest <:+ seg := by
  induction seg generalizing f next with
  | nil => cases h; exact List.suffix_rfl
  | cons g gs ih =>
    unfold deliver at h
    split at h
    · split at h
      · cases h
      · exact (ih h).trans (List.suffix_cons g gs)
    · cases h
      exact List.suffix_rfl

/-- R156 under the invariants: on an open output whose room reaches the upper bound, every segment the loop reaches is
written whole. `data` goes to the output, the bytes stored from `next` on; the first index not stored is the new `next`,
and what is left lies beyond it. -/
theorem deliver_spec {seg : List Seg} {f : Fifo} {next : Quad} {hi : Nat} (hs : SegsIn next.toNat hi seg)
    (hfit : ∀ g ∈ seg, g.stop < 2 ^ 64) (hopen : f.inputEnded = false) (hnext : next = f.bw)
    (hroom : hi ≤ f.bw.toNat + f.remaining) (hok : FifoOk f) :
    ∃ (data : List Byte) (rest : List Seg), data.length ≤ f.remaining ∧ next.toNat + data.length < 2 ^ 64 ∧
      deliver seg f next = some (rest, f.append data data.length, BitVec.ofNat 64 (next.toNat + data.length)) ∧
      SegsIn (next.toNat + data.length) hi rest ∧
      (∀ g ∈ rest, g ∈ seg ∧ g.start.toNat ≠ next.toNat + data.length) ∧
      (∀ j, j < data.length → storedAt (next.toNat + j) seg = data[j]?) ∧
      storedAt (next.toNat + data.length) seg = none ∧
      (∀ x, storedAt x rest = if next.toNat + data.length ≤ x then storedAt x seg else none) := by
  induction seg generalizing f next with
  | nil =>
    refine ⟨[], [], by simp, by simpa using next.isLt, ?_, trivial, by simp, by simp, rfl, by simp [storedAt]⟩
    simp [deliver, append_zero hok]
  | cons g gs ih =>
    obtain ⟨hne, hlo, hhi, hgs⟩ := hs
    have hlt := Seg.start_lt_stop hne
    have hstop : g.stop = g.start.toNat + g.data.length := rfl
    by_cases hg : g.start = next
    · subst hg
      have hroom' : g.data.length ≤ f.remaining := by
        rw [hnext] at hstop
        omega
      have hb : f.bw.toNat + g.data.length < 2 ^ 64 := by
        have := hfit g (by simp)
        rw [← hnext]
        omega
      have hw : f.write g.data = some (f.append g.data g.data.length, g.data.length) := by
        simp only [Fifo.write, hopen, Nat.min_eq_left hroom', Bool.false_eq_true, if_false, ge_iff_le]
        rw [if_neg (by omega)]
      have hcap : f.cap ≠ 0#32 := by
        intro h0
        have hpos := List.length_pos_iff.mpr hne
        have : f.remaining = 0 := by simp [Fifo.remaining, h0]
        omega
      have hn1 : (BitVec.ofNat 64 (g.start.toNat + g.data.length) : Quad).toNat = g.stop := by
        rw [BitVec.toNat_ofNat, Nat.mod_eq_of_lt (by rw [hnext]; exact hb), hstop]
      have hrem : (f.append g.data g.data.length).remaining = f.remaining - g.data.length := by
        have := hok.brLeBw
        have := hok.sizeLeCap
        simp only [Fifo.remaining, Fifo.size, append_bw_toNat hb, fifoAppend_br, fifoAppend_cap] at *
        omega
      obtain ⟨data, rest, h1, h2, h3, h4, h5, h6, h7, h8⟩ := ih (f := f.append g.data g.data.length)
        (next := BitVec.ofNat 64 (g.start.toNat + g.data.length)) (by rw [hn1]; exact hgs)
        (fun x hx => hfit x (List.mem_cons_of_mem _ hx)) hopen (by rw [fifoAppend_bw, hnext])
        (by rw [append_bw_toNat hb, hrem]; omega) (hok.append hroom' hb)
      rw [hn1] at h2 h3 h4 h5 h6 h7 h8
      have hlen : g.start.toNat + (g.data ++ data).length = g.stop + data.length := by
        rw [List.length_append, hstop]; omega
      have hskip : ∀ x, g.stop ≤ x → storedAt x (g :: gs) = storedAt x gs := fun x hx => by
        simp [storedAt, show ¬ x < g.stop by omega]
      refine ⟨g.data ++ data, rest, ?_, by rw [hlen]; exact h2, ?_, by rw [hlen]; exact h4, ?_, ?_, ?_, ?_⟩
      · rw [hrem] at h1
        rw [List.length_append]
        omega
      · rw [deliver, if_pos rfl, hw]
        simp only [h3]
        rw [append_append hb hcap, List.take_length, hlen, List.length_append]
      · intro x hx
        rw [hlen]
        exact ⟨List.mem_cons_of_mem _ (h5 x hx).1, (h5 x hx).2⟩
      · intro j hj
        rw [List.length_append] at hj
        by_cases hj' : j < g.data.length
        · rw [List.getElem?_append_left hj']
          simp [storedAt, hstop, hj']
        · rw [List.getElem?_append_right (by omega), hskip _ (by omega), ← h6 _ (by omega)]
          congr 1
          omega
      · rw [hlen, hskip _ (by omega)]
        exact h7
      · intro x
        rw [h8 x, hlen]
        split
        · rw [hskip _ (by omega)]
        · rfl
    · have hgt : next.toNat < g.start.toNat :=
        Nat.lt_of_le_of_ne hlo fun h => hg (BitVec.eq_of_toNat_eq h.symm)
      have hs' : SegsIn (next.toNat + 1) hi (g :: gs) := ⟨hne, hgt, hhi, hgs⟩
      refine ⟨[], g :: gs, by simp, by simpa using next.isLt, ?_, hs'.mono_lo (by simp), ?_, by simp, ?_, ?_⟩
      · rw [deliver, if_neg hg]
        simp [append_zero hok]
      · intro x hx
        have := (hs'.mem hx).2.1
        exact ⟨hx, by simp; omega⟩
      · exact hs'.storedAt_lt (by simp)
      · intro x
        simp only [List.length_nil, Nat.add_zero]
        split
        · rfl
        · exact hs'.storedAt_lt (by omega)

end Sys2Proof.Machine
end

