-- ==== Sys2Proof/Laws/Seqno.lean ====
section
/-! SUPPORT. What the functions of unit W answer, as numbers. -/

namespace Sys2Proof.Machine

theorem add32_toNat (w off : Word) : (add32 w off).toNat = (w.toNat + off.toNat) % 2 ^ 32 := by
  simp [add32]

theorem wrap_toNat (n : Quad) (isn : Word) : (wrap n isn).toNat = (isn.toNat + n.toNat) % 2 ^ 32 := by
  simp [wrap]

/-- Two absolute numbers have one wire form exactly when they agree modulo `2^32`. -/
theorem wrap_eq_iff (n m : Quad) (isn : Word) : wrap n isn = wrap m isn ↔ n.toNat % 2 ^ 32 = m.toNat % 2 ^ 32 := by
  rw [BitVec.toNat_inj.symm, wrap_toNat, wrap_toNat]
  omega

/-- The wire form of `n` is `w` exactly when `n` has the offset of `w` modulo `2^32`. -/
theorem wrap_eq_iff_offset (n : Quad) (w isn : Word) : wrap n isn = w ↔ n.toNat % 2 ^ 32 = (w - isn).toNat := by
  rw [BitVec.toNat_inj.symm, wrap_toNat, BitVec.toNat_sub]
  have := w.isLt
  have := isn.isLt
  omega

/-- The first candidate of R104 is the checkpoint's block with the offset in it. -/
theorem unwrapCand_eq (w isn : Word) (cp : Quad) :
    unwrapCand w isn cp = cp.toNat / 2 ^ 32 * 2 ^ 32 + (w - isn).toNat := by
  have hsplit : (cp &&& 0xFFFFFFFF00000000#64) ||| (w - isn).zeroExtend 64 = cp.extractLsb' 32 32 ++ (w - isn) := by
    apply BitVec.eq_of_getLsbD_eq
    intro k hk
    simp only [BitVec.getLsbD_or, BitVec.getLsbD_and, BitVec.getLsbD_append, BitVec.getLsbD_extractLsb',
      BitVec.getLsbD_setWidth, BitVec.truncate_eq_setWidth]
    have hmask : (0xFFFFFFFF00000000#64).getLsbD k = decide (32 ≤ k) := by
      interval_cases k <;> decide
    rw [hmask]
    by_cases h : k < 32
    · simp [h, show ¬ 32 ≤ k by omega, hk]
    · rw [BitVec.getLsbD_of_ge (w - isn) k (by omega)]
      simp [h, show 32 ≤ k by omega, show k - 32 < 32 by omega]
  rw [unwrapCand, unwrapOffset, hsplit, BitVec.toNat_append, BitVec.extractLsb'_toNat, Nat.shiftRight_eq_div_pow,
    ← Nat.shiftLeft_add_eq_or_of_lt (w - isn).isLt, Nat.shiftLeft_eq]
  have := cp.isLt
  omega

/-- R104's guard refuses exactly when the checkpoint is in the last block and the offset lies below it. -/
theorem unwrap_eq_none_iff (w isn : Word) (cp : Quad) :
    unwrap w isn cp = none ↔ 2 ^ 64 - 2 ^ 32 ≤ cp.toNat ∧ (w - isn).toNat < cp.toNat % 2 ^ 32 := by
  have := cp.isLt
  have := (w - isn).isLt
  simp only [unwrap, unwrapCand_eq]
  split
  · split
    · simp only [true_iff]; omega
    · simp only [reduceCtorEq, false_iff]; omega
  · simp only [reduceCtorEq, false_iff]; omega

/-- What `unwrap` answers: congruent to the offset, and in the half-open span of `2^32` numbers around the checkpoint that
is closed at its upper end, but for numbers the span's lower half would put below 0. -/
theorem unwrap_some_spec {w isn : Word} {cp n : Quad} (h : unwrap w isn cp = some n) :
    n.toNat % 2 ^ 32 = (w - isn).toNat ∧ n.toNat ≤ cp.toNat + (2 ^ 32 - 1) ∧ cp.toNat < n.toNat + 2 ^ 31 ∧
      (n.toNat ≤ cp.toNat + 2 ^ 31 ∨ n.toNat < 2 ^ 32) := by
  have := cp.isLt
  have := (w - isn).isLt
  simp only [unwrap, unwrapCand_eq, unwrapNearest] at h
  split at h
  · split at h
    · cases h
    · split at h <;> rw [Option.some.injEq] at h <;> subst h <;> simp only [BitVec.toNat_ofNat] <;> omega
  · split at h <;> rw [Option.some.injEq] at h <;> subst h <;> simp only [BitVec.toNat_ofNat] <;> omega

end Sys2Proof.Machine
end

