-- ==== Sys2Proof/Laws/Step.lean ====
section
/-! SUPPORT. Responses and inputs: how a command answers, the fields of a response header, and what a step takes. -/

namespace Sys2Proof.Machine

/-! ## Responses -/

/-- A refusal is a next state: the same one with the refusal's response (R291). -/
@[simp] theorem refuse_eq (opcode : BitVec 8) (st : Status) (s : State) :
    refuse opcode st s = .next (s.respond (refusalFrame opcode st)) := rfl

@[simp] theorem complete_eq (opcode : BitVec 8) (words : List Word) (payload : List Byte) (s : State) :
    complete opcode words payload s = .next (s.respond (okFrame opcode words payload)) := rfl

@[simp] theorem refusalFrame_header (opcode : BitVec 8) (st : Status) :
    (refusalFrame opcode st).header = respHeader opcode st 0 := rfl

@[simp] theorem refusalFrame_tail (opcode : BitVec 8) (st : Status) : (refusalFrame opcode st).tail = [] := rfl

@[simp] theorem okFrame_header (opcode : BitVec 8) (words : List Word) (payload : List Byte) :
    (okFrame opcode words payload).header = respHeader opcode .ok payload.length := rfl

@[simp] theorem okFrame_tail (opcode : BitVec 8) (words : List Word) (payload : List Byte) :
    (okFrame opcode words payload).tail = words ++ pack payload := rfl

/-- R75: bits 31:24 of a response header are the opcode. -/
@[simp] theorem respHeader_opcode (opcode : BitVec 8) (st : Status) (n : Nat) :
    (respHeader opcode st n).extractLsb' 24 8 = opcode := by
  ext k hk
  simp only [respHeader, BitVec.getElem_extractLsb', BitVec.getLsbD_append]
  simp [show ¬ (24 + k < 16) by omega, show ¬ (24 + k - 16 < 8) by omega, show 24 + k - 16 - 8 = k by omega,
    BitVec.getLsbD_eq_getElem hk]

/-- R75: bits 23:16 are the status. -/
@[simp] theorem respHeader_status (opcode : BitVec 8) (st : Status) (n : Nat) :
    (respHeader opcode st n).extractLsb' 16 8 = st.code := by
  ext k hk
  simp only [respHeader, BitVec.getElem_extractLsb', BitVec.getLsbD_append]
  simp [show ¬ (16 + k < 16) by omega, show 16 + k - 16 = k by omega, hk]

/-- R75: bits 15:0 are the payload's length. -/
@[simp] theorem respHeader_rlen (opcode : BitVec 8) (st : Status) (n : Nat) :
    (respHeader opcode st n).extractLsb' 0 16 = BitVec.ofNat 16 n := by
  ext k hk
  simp only [respHeader, BitVec.getElem_extractLsb', BitVec.getLsbD_append]
  simp [hk]

/-- R290: the statuses are 0 to 7, and only `OK` is 0. -/
theorem status_code_le (st : Status) : st.code.toNat ≤ 7 := by cases st <;> decide

theorem status_code_eq_zero_iff (st : Status) : st.code = 0#8 ↔ st = .ok := by cases st <;> decide

/-! ## Inputs -/

@[simp] theorem takeInput_of_nil {s : State} (h : s.port = []) : takeInput s = none := by
  simp [takeInput, h]

@[simp] theorem takeInput_of_cons {s : State} {x : Input} {xs : List Input} (h : s.port = x :: xs) :
    takeInput s = some (x, { s with port := xs }) := by
  simp [takeInput, h]

end Sys2Proof.Machine
end

