-- ==== Sys2Proof/Laws/Timer.lean ====
section
/-! SUPPORT. What unit T's operations do to the descriptor queue and the saturating registers. -/

namespace Sys2Proof.Machine

/-- R188's loop: it drops the longest acknowledged prefix, subtracts its lengths one by one, and counts it. -/
theorem popAcked_eq (ack : Nat) (q : List Desc) (outb p : Nat) :
    popAcked ack q outb p =
      (q.dropWhile (fun d => d.absSeqno.toNat + d.len.toNat ≤ ack),
       outb - sumLen (q.takeWhile (fun d => d.absSeqno.toNat + d.len.toNat ≤ ack)),
       p + (q.takeWhile (fun d => d.absSeqno.toNat + d.len.toNat ≤ ack)).length) := by
  induction q generalizing outb p with
  | nil => simp [popAcked, sumLen]
  | cons d ds ih =>
    unfold popAcked
    by_cases h : d.absSeqno.toNat + d.len.toNat ≤ ack
    · simp [Desc.stop, h, ih, sumLen, Nat.sub_sub]
      omega
    · simp [Desc.stop, h, sumLen]

theorem sumLen_append (q r : List Desc) : sumLen (q ++ r) = sumLen q + sumLen r := by
  induction q with
  | nil => simp [sumLen]
  | cons d ds ih => simp [sumLen, ih, Nat.add_assoc]

theorem sat32_toNat (x : Nat) : (sat32 x).toNat = min x (2 ^ 32 - 1) := by
  simp only [sat32, BitVec.toNat_ofNat]
  omega

/-- R191: the saturation of the timer cannot be seen by the expiry test. -/
theorem expires_iff (t : Timer) (ms : Word) : t.expires ms = true ↔ t.rto.toNat ≤ t.timer.toNat + ms.toNat := by
  simp only [Timer.expires, Timer.advanced, sat32_toNat, decide_eq_true_eq]
  have := t.rto.isLt
  omega

/-- Below the RTO the advanced timer is the exact sum (R191). -/
theorem advanced_of_not_expires {t : Timer} {ms : Word} (h : t.timer.toNat + ms.toNat < t.rto.toNat) :
    t.advanced ms = BitVec.ofNat 32 (t.timer.toNat + ms.toNat) := by
  have := t.rto.isLt
  rw [Timer.advanced, sat32, Nat.min_eq_left (by omega)]

end Sys2Proof.Machine
end

