-- ==== Sys2Proof/Machine/Assembler.lean ====
section
/-! DEFINITION. The text form of a command (spec/30_encoding.md R82): one line to one command frame. No step of the block
reads text; this is the notation in which the spec writes its examples and programs. The spellings R82 does not
settle are a DESIGN CHOICE (log entry 9). -/

namespace Sys2Proof.Machine

/-! ## Splitting a line -/

/-- A line without leading spaces. -/
def dropSpaces (cs : List Char) : List Char := cs.dropWhile (fun c => c == ' ')

/-- A piece of text without spaces at its ends. -/
def trimSpaces (cs : List Char) : List Char := (dropSpaces (dropSpaces cs).reverse).reverse

/-- The double quote that delimits an ASCII payload. -/
def dquote : Char := Char.ofNat 34

/-- The line up to the `;` that starts a comment; a `;` between double quotes is data. -/
def cutComment (quoted : Bool) : List Char → List Char
  | [] => []
  | c :: cs => if c == ';' && !quoted then [] else c :: cutComment (if c == dquote then !quoted else quoted) cs

/-- The pieces between separators; a separator between double quotes is data. -/
def splitAt (sep : Char) (quoted : Bool) : List Char → List (List Char)
  | [] => [[]]
  | c :: cs =>
    let rest := splitAt sep (if c == dquote then !quoted else quoted) cs
    if c == sep && !quoted then [] :: rest
    else
      match rest with
      | [] => [[c]]
      | p :: ps => (c :: p) :: ps

/-- The comma-separated arguments, trimmed; none for an empty text. -/
def splitArgs (cs : List Char) : List (List Char) :=
  if (trimSpaces cs).isEmpty then [] else (splitAt ',' false cs).map trimSpaces

/-! ## Values -/

/-- The value of a decimal or hexadecimal digit. -/
def digitVal (c : Char) : Option Nat :=
  let n := c.toNat
  if 48 ≤ n ∧ n ≤ 57 then some (n - 48)
  else if 97 ≤ n ∧ n ≤ 102 then some (n - 87)
  else if 65 ≤ n ∧ n ≤ 70 then some (n - 55)
  else none

/-- Digits in a base, most significant first, after `acc`. -/
def digitsFrom (base : Nat) : List Char → Nat → Option Nat
  | [], acc => some acc
  | c :: cs, acc =>
    match digitVal c with
    | some d => if d < base then digitsFrom base cs (acc * base + d) else none
    | none => none

/-- A non-empty run of digits in a base. -/
def digits (base : Nat) (cs : List Char) : Option Nat := if cs.isEmpty then none else digitsFrom base cs 0

/-- Bytes written in a base with a separator, most significant first: exactly `n` of them (R12). -/
def dottedBytes (base n : Nat) (sep : Char) (cs : List Char) : Option Nat :=
  let parts := (splitAt sep false cs).map (digits base)
  if parts.length = n ∧ parts.all (fun p => p.any (fun v => v < 256)) then
    some (parts.foldl (fun acc p => acc * 256 + p.getD 0) 0)
  else none

/-- A number: decimal, `0x` hexadecimal, an Ethernet address `a0:a1:a2:a3:a4:a5` in hexadecimal or an IPv4 address
`a.b.c.d` in decimal (R82). -/
def value (cs : List Char) : Option Nat :=
  if cs.any (fun c => c == ':') then dottedBytes 16 6 ':' cs
  else if cs.any (fun c => c == '.') then dottedBytes 10 4 '.' cs
  else
    match cs with
    | '0' :: 'x' :: ds => digits 16 ds
    | ds => digits 10 ds

/-- A value that fits `n` bits. -/
def valueBits (n : Nat) (cs : List Char) : Option (BitVec n) :=
  match value cs with
  | some v => if v < 2 ^ n then some (BitVec.ofNat n v) else none
  | none => none

/-- The FIFO instance argument: 0 or 1. -/
def fifoArg (cs : List Char) : Option FifoId :=
  match value cs with
  | some 0 => some .f0
  | some 1 => some .f1
  | _ => none

/-- Byte pairs in hexadecimal. -/
def hexPairs : List Char → Option (List Byte)
  | [] => some []
  | [_] => none
  | a :: b :: cs =>
    match digits 16 [a, b], hexPairs cs with
    | some v, some bs => some (BitVec.ofNat 8 v :: bs)
    | _, _ => none

/-- The characters of a double-quoted ASCII string, from after the opening quote to the closing one. -/
def quotedBytes : List Char → Option (List Byte)
  | [] => none
  | [c] => if c == dquote then some [] else none
  | c :: cs => if c.toNat < 128 ∧ c ≠ dquote then (quotedBytes cs).map (fun bs => BitVec.ofNat 8 c.toNat :: bs) else none

/-- A payload argument: a double-quoted ASCII string, or `hex:` and byte pairs (R82). -/
def payloadArg (cs : List Char) : Option (List Byte) :=
  match cs with
  | 'h' :: 'e' :: 'x' :: ':' :: ds => hexPairs ds
  | c :: ds => if c == dquote then quotedBytes ds else none
  | [] => none

/-- A flag argument: its name when set, its other name when clear (R82: `ok`/`bad`, `rep`/`req`). -/
def flagArg (setName clearName : String) (cs : List Char) : Option Bool :=
  if cs = setName.toList then some true else if cs = clearName.toList then some false else none

/-! ## Register names (spec/10_state.md) -/

/-- The register names of a bank, in the order of their indices, at the bank's first id. -/
def bankNames (pre : String) (first : Nat) (names : List String) : List (List Char × Nat) :=
  names.mapIdx (fun k n => (pre.toList ++ '.' :: n.toList, first + k))

/-- The names of one FIFO instance's registers (R25, R26). -/
def fifoNames : List String := ["CAP", "BW", "BR", "WP", "RP", "FLAGS", "SIZE", "REMAIN", "EOF", "EMPTY"]

/-- Every register name with its id (R22, R25, R26, R28, R30, R31, R33). -/
def regNames : List (List Char × Nat) :=
  bankNames "SYS" 0x0000 ["VERSION", "CFGD", "CAP_MAX", "N_OUT", "N_ARP", "N_PEND", "N_FRAME"] ++
  bankNames "F[0]" 0x2000 fifoNames ++ bankNames "F[1]" 0x2100 fifoNames ++
  bankNames "R" 0x3000 ["CAP", "NEXT", "HASEOF", "UNASM", "NSEG", "EMPTY", "FUNACC"] ++
  bankNames "T" 0x4000 ["ISN", "INIT_RTO", "MAX_RETX", "NEXT_SEQNO", "LAST_ACKNO", "WINDOW", "OUTB", "RTO", "TIMER",
    "RUNNING", "CONSEC", "NOUT", "USABLE", "RETX_EXCEEDED", "HEAD_ABS", "HEAD_LEN"] ++
  bankNames "A" 0x5000 ["ETH", "IP", "NOW", "NENT", "NPEND", "NFRAME"]

/-- RDREG's argument: a register name or a numeric id (R82). -/
def regArg (cs : List Char) : Option (BitVec 16) :=
  match regNames.find? (fun r => r.1 == cs) with
  | some r => some (BitVec.ofNat 16 r.2)
  | none => valueBits 16 cs

/-! ## Commands -/

/-- The command with a mnemonic's opcode and its arguments in R82's order: instance, flags, operands, payload. -/
def parseArgs (opcode : BitVec 8) (args : List (List Char)) : Option Instr :=
  match opcode.toNat, args with
  | 0x00, [] => some .nop
  | 0x01, [r] => do return .rdreg (← regArg r)
  | 0x02, [] => some .sreset
  | 0x10, [w, off] => do return .wAdd (← valueBits 32 w) (← valueBits 32 off)
  | 0x11, [a, b] => do return .wDiff (← valueBits 32 a) (← valueBits 32 b)
  | 0x12, [n, isn] => do return .wWrap (← valueBits 64 n) (← valueBits 32 isn)
  | 0x13, [w, isn, cp] => do return .wUnwrap (← valueBits 32 w) (← valueBits 32 isn) (← valueBits 64 cp)
  | 0x20, [i, cap] => do return .fInit (← fifoArg i) (← valueBits 32 cap)
  | 0x21, [i, d] => do return .fWrite (← fifoArg i) (← payloadArg d)
  | 0x22, [i, n] => do return .fPeek (← fifoArg i) (← valueBits 16 n)
  | 0x23, [i, n] => do return .fPop (← fifoArg i) (← valueBits 16 n)
  | 0x24, [i] => do return .fEnd (← fifoArg i)
  | 0x25, [i] => do return .fSetErr (← fifoArg i)
  | 0x30, [cap] => do return .rInit (← valueBits 32 cap)
  | 0x31, [index, d] => do return .rPush false (← valueBits 64 index) (← payloadArg d)
  | 0x31, [f, index, d] => do
    if f = "eof".toList then return .rPush true (← valueBits 64 index) (← payloadArg d) else none
  | 0x40, [isn, rto, mx] => do return .tInit (← valueBits 32 isn) (← valueBits 32 rto) (← valueBits 32 mx)
  | 0x41, [len] => do return .tSent (← valueBits 16 len)
  | 0x42, [ackno, window] => do return .tAck (← valueBits 32 ackno) (← valueBits 32 window)
  | 0x43, [ms] => do return .tTick (← valueBits 32 ms)
  | 0x44, [] => some .tSeqno
  | 0x50, [eth, ip] => do return .aInit (← valueBits 64 eth) (← valueBits 32 ip)
  | 0x51, [ip, d] => do return .aSend (← valueBits 32 ip) (← payloadArg d)
  | 0x52, [ok, dst] => do return .aRecvIp (← flagArg "ok" "bad" ok) (← valueBits 64 dst)
  | 0x53, [ok, op, dst, sip, seth, tip, teth] => do
    return .aRecvArp (← flagArg "ok" "bad" ok) (arpOpOf (← flagArg "rep" "req" op)) (← valueBits 64 dst)
      (← valueBits 32 sip) (← valueBits 64 seth) (← valueBits 32 tip) (← valueBits 64 teth)
  | 0x54, [ms] => do return .aTick (← valueBits 32 ms)
  | 0x55, [] => some .aPopF
  | 0x56, [ip] => do return .aLookup (← valueBits 32 ip)
  | _, _ => none

/-- A line's command: its mnemonic, looked up in the opcode table, then its arguments (R82). -/
def parseLine (line : List Char) : Option Instr :=
  let text := dropSpaces (cutComment false line)
  let name := text.takeWhile (fun c => c != ' ')
  match opcodeTable.find? (fun row => row.mnemonic.toList == name) with
  | some row =>
    match parseArgs row.opcode (splitArgs (text.drop name.length)) with
    | some i => if i.wellFormed then some i else none
    | none => none
  | none => none

/-- R82: a line assembles to exactly one command frame, or to none if it is not of the text form. -/
def assemble (line : String) : Option Frame := (parseLine line.toList).map encode

end Sys2Proof.Machine
end

