-- ==== Sys2Proof/Tests/Slice0.lean ====
section
/-! SUPPORT. The model's own tests: expected values are the spec's worked examples (the rule is named at each). Then, for
every statement with hypotheses, states and operands that meet them (`witness_…`), one for each clause. -/

namespace Sys2Proof.Tests

open Sys2Proof Sys2Proof.Machine

/-! ## Helpers -/

/-- The state an outcome goes on in. -/
def after (o : Host.Outcome State Fault Refusal) : State :=
  match o with
  | .next s => s
  | .fault _ => State.reset
  | .refused _ => State.reset

/-- The response to one command in a state. -/
def answer (i : Instr) (s : State) : Option Frame := (after (exec i s)).rsp.getLast?

/-- R128's example FIFO: capacity 4, empty. -/
def fifo4 : Fifo := { Fifo.reset with cap := 4#32 }

/-- R130's and R131's example FIFO: capacity 4, "cat" written. -/
def fifoCat : Fifo := { fifo4 with bw := 3#64, wp := 3#32, mem := [(0, 0x63#8), (1, 0x61#8), (2, 0x74#8)] }

/-- Every unit configured and empty; the addresses of spec/44_arp.md's examples, the sender of spec/43_rtx_timer.md's. -/
def fresh : State :=
  { State.reset with
    cfgd := 0xF#4, f0 := fifo4, f1 := { Fifo.reset with cap := 9#32 }, r := { Reasm.reset with cap := 9#32 }
    t := { Timer.reset with isn := 0x1234#32, initRto := 1000#32, maxRetx := 8#32, rto := 1000#32 }
    a := { Arp.reset with eth := 0x020000000001#48, ip := 0x0A000001#32 } }

/-- `fresh` with "cat" in `F[0]`. -/
def cat : State := { fresh with f0 := fifoCat }

/-- `fresh` after `T.SENT 1` (R197's example). -/
def sent : State := { fresh with t := fresh.t.record 1#16 }

/-- `fresh` after `A.SEND 10.0.0.2` with one byte (R242's example). -/
def asked : State := { fresh with a := fresh.a.miss 0x0A000002#32 [0x45#8] }

/-- `fresh` with the entry of 10.0.0.2 learned at time 0 (R245's example). -/
def learned : State := { fresh with a := fresh.a.accept .reply 0x0A000002#32 0x020000000002#48 }

/-! ## Well-formedness -/

theorem test_wf_fWrite_long : Instr.wellFormed (.fWrite .f0 (List.replicate 65536 0#8)) = false := by
  rw [Instr.wellFormed, lenFits, List.length_replicate]; decide

theorem test_wf_rPush_long : Instr.wellFormed (.rPush false 0#64 (List.replicate 65536 0#8)) = false := by
  rw [Instr.wellFormed, lenFits, List.length_replicate]; decide

theorem test_wf_aSend_long : Instr.wellFormed (.aSend 0#32 (List.replicate 65536 0#8)) = false := by
  rw [Instr.wellFormed, lenFits, List.length_replicate]; decide

/-! ## Decoding: words written out from R74 and R78 -/

theorem test_decode_nop : decode ⟨0x00000000#32, []⟩ = .ok .nop := by decide
theorem test_decode_rdreg : decode ⟨0x01002007#32, []⟩ = .ok (.rdreg 0x2007#16) := by decide
theorem test_decode_sreset : decode ⟨0x02000000#32, []⟩ = .ok .sreset := by decide
theorem test_decode_wAdd : decode ⟨0x10000000#32, [0xFFFFFFFE#32, 15#32]⟩ = .ok (.wAdd 0xFFFFFFFE#32 15#32) := by decide
theorem test_decode_wDiff : decode ⟨0x11000000#32, [5#32, 0xFFFFFFFE#32]⟩ = .ok (.wDiff 5#32 0xFFFFFFFE#32) := by decide
theorem test_decode_wWrap :
    decode ⟨0x12000000#32, [15#32, 3#32, 0xFFFFFFFE#32]⟩ = .ok (.wWrap 0x30000000F#64 0xFFFFFFFE#32) := by decide
theorem test_decode_wUnwrap : decode ⟨0x13000000#32, [13#32, 0xFFFFFFFE#32, 0#32, 3#32]⟩
    = .ok (.wUnwrap 13#32 0xFFFFFFFE#32 0x300000000#64) := by decide
theorem test_decode_fInit : decode ⟨0x20000000#32, [4#32]⟩ = .ok (.fInit .f0 4#32) := by decide
theorem test_decode_fWrite :
    decode ⟨0x21000003#32, [0x00746163#32]⟩ = .ok (.fWrite .f0 [0x63#8, 0x61#8, 0x74#8]) := by decide
theorem test_decode_fPeek : decode ⟨0x2200000A#32, []⟩ = .ok (.fPeek .f0 10#16) := by decide
theorem test_decode_fPop : decode ⟨0x23100002#32, []⟩ = .ok (.fPop .f1 2#16) := by decide
theorem test_decode_fEnd : decode ⟨0x24000000#32, []⟩ = .ok (.fEnd .f0) := by decide
theorem test_decode_fSetErr : decode ⟨0x25100000#32, []⟩ = .ok (.fSetErr .f1) := by decide
theorem test_decode_rInit : decode ⟨0x30000000#32, [8#32]⟩ = .ok (.rInit 8#32) := by decide
theorem test_decode_rPush : decode ⟨0x31010003#32, [3#32, 0#32, 0x00666564#32]⟩
    = .ok (.rPush true 3#64 [0x64#8, 0x65#8, 0x66#8]) := by decide
theorem test_decode_tInit :
    decode ⟨0x40000000#32, [0x1234#32, 0x3E8#32, 8#32]⟩ = .ok (.tInit 0x1234#32 1000#32 8#32) := by decide
theorem test_decode_tSent : decode ⟨0x41000001#32, []⟩ = .ok (.tSent 1#16) := by decide
theorem test_decode_tAck : decode ⟨0x42000000#32, [0x1235#32, 4#32]⟩ = .ok (.tAck 0x1235#32 4#32) := by decide
theorem test_decode_tTick : decode ⟨0x43000000#32, [999#32]⟩ = .ok (.tTick 999#32) := by decide
theorem test_decode_tSeqno : decode ⟨0x44000000#32, []⟩ = .ok .tSeqno := by decide
theorem test_decode_aInit : decode ⟨0x50000000#32, [1#32, 0x200#32, 0x0A000001#32]⟩
    = .ok (.aInit 0x020000000001#64 0x0A000001#32) := by decide
theorem test_decode_aSend :
    decode ⟨0x51000002#32, [0x0A000002#32, 0x00000045#32]⟩ = .ok (.aSend 0x0A000002#32 [0x45#8, 0x00#8]) := by decide
theorem test_decode_aRecvIp : decode ⟨0x52010000#32, [0xFFFFFFFF#32, 0x0000FFFF#32]⟩
    = .ok (.aRecvIp true 0xFFFFFFFFFFFF#64) := by decide
theorem test_decode_aRecvArp : decode ⟨0x53030000#32, [1#32, 0x200#32, 0x0A000002#32, 2#32, 0x200#32, 0x0A000001#32, 1#32, 0x200#32]⟩
    = .ok (.aRecvArp true .reply 0x020000000001#64 0x0A000002#32 0x020000000002#64 0x0A000001#32 0x020000000001#64) := by
  decide
theorem test_decode_aTick : decode ⟨0x54000000#32, [29999#32]⟩ = .ok (.aTick 29999#32) := by decide
theorem test_decode_aPopF : decode ⟨0x55000000#32, []⟩ = .ok .aPopF := by decide
theorem test_decode_aLookup : decode ⟨0x56000000#32, [0x0A000002#32]⟩ = .ok (.aLookup 0x0A000002#32) := by decide

/-- R80: an unlisted opcode, a set must-be-zero bit, a wrong word count. -/
theorem test_decode_illegal : decode ⟨0x60000000#32, []⟩ = .error .unknownOpcode ∧
    decode ⟨0x00000001#32, []⟩ = .error .mustBeZero ∧ decode ⟨0x00000000#32, [0#32]⟩ = .error .wordCount := by decide

/-- R73: pad bytes of a command's payload are ignored. -/
theorem test_decode_pad :
    decode ⟨0x21000003#32, [0xFF746163#32]⟩ = .ok (.fWrite .f0 [0x63#8, 0x61#8, 0x74#8]) := by decide

/-! ## Encoding and the text form (R82, R83) -/

theorem test_encode_rPush :
    encode (.rPush true 3#64 [0x64#8, 0x65#8, 0x66#8]) = ⟨0x31010003#32, [3#32, 0#32, 0x00666564#32]⟩ := by decide

theorem test_text_fWrite : assemble "F.WRITE 0, \"cat\"" = some ⟨0x21000003#32, [0x00746163#32]⟩ := by decide
theorem test_text_fPeek : assemble "F.PEEK 0, 10" = some ⟨0x2200000A#32, []⟩ := by decide
theorem test_text_rPush_eof :
    assemble "R.PUSH eof, 3, \"def\"" = some ⟨0x31010003#32, [3#32, 0#32, 0x00666564#32]⟩ := by decide
theorem test_text_rPush : assemble "R.PUSH 6, \"ghi\"" = some ⟨0x31000003#32, [6#32, 0#32, 0x00696867#32]⟩ := by decide
theorem test_text_wUnwrap : assemble "W.UNWRAP 13, 0xFFFFFFFE, 0x300000000"
    = some ⟨0x13000000#32, [13#32, 0xFFFFFFFE#32, 0#32, 3#32]⟩ := by decide
theorem test_text_tSent : assemble "T.SENT 1" = some ⟨0x41000001#32, []⟩ := by decide
theorem test_text_tAck : assemble "T.ACK 0x1235, 4" = some ⟨0x42000000#32, [0x1235#32, 4#32]⟩ := by decide
theorem test_text_aRecvArp :
    assemble "A.RECVARP ok, rep, 02:00:00:00:00:01, 10.0.0.2, 02:00:00:00:00:02, 10.0.0.1, 02:00:00:00:00:01"
      = some ⟨0x53030000#32, [1#32, 0x200#32, 0x0A000002#32, 2#32, 0x200#32, 0x0A000001#32, 1#32, 0x200#32]⟩ := by decide
theorem test_text_rdreg : assemble "RDREG F[0].SIZE" = some ⟨0x01002006#32, []⟩ := by decide
theorem test_text_hex : assemble "A.SEND 10.0.0.2, hex:4500 ; comment"
    = some ⟨0x51000002#32, [0x0A000002#32, 0x00000045#32]⟩ := by decide

/-! ## The host's two questions -/

theorem test_tableWord_rPush : decodeTableWord 96 0x0000000000000003_31010000 = some (.rPush true 3#64 []) := by decide
theorem test_tableWord_payload : decodeTableWord 32 0x21000003 = some (.fWrite .f0 [0#8, 0#8, 0#8]) := by decide
theorem test_tableWord_operands : decodeTableWord 32 0x10000000 = some (.wAdd 0#32 0#32) := by decide

/-- The presented command runs as the first one after reset: `F.INIT 0, 4`. -/
theorem test_fetch_fInit :
    (after (step (State.reset.withFetchWord 64 0x0000000420000000))).f0 = fifo4 := by decide

/-! ## One step of each command -/

/-- R271. -/
theorem test_nop : exec .nop cat = .next (cat.respond ⟨0#32, []⟩) := rfl

/-- R272's example: `RDREG F[0].REMAIN`. -/
theorem test_rdreg : answer (.rdreg 0x2007#16) cat = some ⟨0x01000000#32, [1#32, 0#32]⟩ := by decide
theorem test_rdreg_unlisted : answer (.rdreg 0x200A#16) cat = some ⟨0x01030000#32, []⟩ := by decide

/-- R273's example: after SRESET `F.PEEK 0, 1` is refused with ERR_NOCFG. -/
theorem test_sreset : answer .sreset cat = some ⟨0x02000000#32, []⟩ ∧
    answer (.fPeek .f0 1#16) (after (exec .sreset cat)) = some ⟨0x22020000#32, []⟩ := by decide

/-- R105. -/
theorem test_wAdd : answer (.wAdd 0xFFFFFFFE#32 15#32) fresh = some ⟨0x10000000#32, [13#32]⟩ := by decide
theorem test_wAdd_wraps : answer (.wAdd 0xFFFFFFFF#32 1#32) fresh = some ⟨0x10000000#32, [0#32]⟩ := by decide

/-- R106. -/
theorem test_wDiff : answer (.wDiff 5#32 0xFFFFFFFE#32) fresh = some ⟨0x11000000#32, [7#32]⟩ := by decide
theorem test_wDiff_half : answer (.wDiff 0#32 0x80000000#32) fresh = some ⟨0x11000000#32, [0x80000000#32]⟩ := by decide

/-- R107. -/
theorem test_wWrap : answer (.wWrap 0x30000000F#64 0xFFFFFFFE#32) fresh = some ⟨0x12000000#32, [13#32]⟩ := by decide

/-- R108. -/
theorem test_wUnwrap :
    answer (.wUnwrap 13#32 0xFFFFFFFE#32 0x300000000#64) fresh = some ⟨0x13000000#32, [15#32, 3#32]⟩ := by decide
/-- R104: two candidates `2^31` away; the larger is taken. -/
theorem test_wUnwrap_tie :
    answer (.wUnwrap 0#32 0#32 0x180000000#64) fresh = some ⟨0x13000000#32, [0#32, 2#32]⟩ := by decide

/-- R128. -/
theorem test_fInit : (after (exec (.fInit .f0 4#32) State.reset)).f0 = fifo4 := by decide
theorem test_fInit_owner : answer (.fInit .f1 4#32) State.reset = some ⟨0x20040000#32, []⟩ := by decide

/-- R129's example. -/
theorem test_fWrite : (after (exec (.fWrite .f0 [0x63#8, 0x61#8, 0x74#8]) fresh)).f0 = fifoCat := by decide
/-- R123: only the prefix that fits is taken. -/
theorem test_fWrite_suffix : answer (.fWrite .f0 [1#8, 2#8]) cat = some ⟨0x21000000#32, [1#32]⟩ := by decide

/-- R130's example. -/
theorem test_fPeek : answer (.fPeek .f0 10#16) cat = some ⟨0x22000003#32, [0x00746163#32]⟩ := by decide

/-- R131's example. -/
theorem test_fPop : (after (exec (.fPop .f0 2#16) cat)).f0 = { fifoCat with br := 2#64, rp := 2#32 } := by decide

/-- R132. -/
theorem test_fEnd : (after (exec (.fEnd .f0) cat)).f0.flags = 1#2 := by decide

/-- R133. -/
theorem test_fSetErr : (after (exec (.fSetErr .f1) cat)).f1.flags = 2#2 := by decide

/-- R159. -/
theorem test_rInit : (after (exec (.rInit 9#32) State.reset)).f1.cap = 9#32 := by decide

/-- R162: the first push of CS144 scenario 2, capacity 9. -/
theorem test_rPush_stores : (after (exec (.rPush false 6#64 [0x67#8, 0x68#8, 0x69#8]) fresh)).r.seg
    = [⟨6#64, [0x67#8, 0x68#8, 0x69#8]⟩] := by decide
/-- R160 with R162's `cap = 8`: a tail beyond the window is trimmed, the rest is delivered. -/
theorem test_rPush_delivers : (after (exec (.rPush true 0#64 (List.replicate 10 0x61#8)) fresh)).r.next = 9#64 := by decide

/-- R196. -/
theorem test_tInit : (after (exec (.tInit 0x1234#32 1000#32 8#32) State.reset)).t = fresh.t := by decide

/-- R197's example. -/
theorem test_tSent : answer (.tSent 1#16) fresh = some ⟨0x41000000#32, [0x1234#32, 0#32, 0#32]⟩ := by decide
theorem test_tSent_state : (after (exec (.tSent 1#16) fresh)).t.outq = [⟨0#64, 1#16⟩] := by decide

/-- R198's example. -/
theorem test_tAck : answer (.tAck 0x1235#32 4#32) sent = some ⟨0x42000000#32, [1#32, 1#32]⟩ := by decide
theorem test_tAck_unsent : answer (.tAck 0x1235#32 4#32) fresh = some ⟨0x42000000#32, [0#32, 0#32]⟩ := by decide

/-- R199's example. -/
theorem test_tTick_below : (after (exec (.tTick 999#32) sent)).t.timer = 999#32 := by decide
theorem test_tTick_expires :
    answer (.tTick 1000#32) sent = some ⟨0x43000000#32, [3#32, 0x1234#32, 0#32, 0#32, 1#32]⟩ := by decide

/-- R200's example. -/
theorem test_tSeqno : answer .tSeqno sent = some ⟨0x44000000#32, [0x1235#32]⟩ := by decide

/-- R241. -/
theorem test_aInit : (after (exec (.aInit 0x020000000001#64 0x0A000001#32) State.reset)).a = fresh.a := by decide

/-- R242's example: the request of `A.SEND 10.0.0.2`, and the second datagram behind it. -/
theorem test_aSend : (after (exec (.aSend 0x0A000002#32 [0x45#8]) fresh)).a.tab = [⟨0x0A000002#32, 0#48, false, 5000#64⟩] := by decide
theorem test_aSend_second : answer (.aSend 0x0A000002#32 []) asked = some ⟨0x51000000#32, [1#32]⟩ := by decide

/-- R243's example. -/
theorem test_aRecvIp : answer (.aRecvIp true 0xFFFFFFFFFFFF#64) fresh = some ⟨0x52000000#32, [1#32]⟩ := by decide
theorem test_aRecvIp_other : answer (.aRecvIp true 0x020000000009#64) fresh = some ⟨0x52000000#32, [0#32]⟩ := by decide

/-- R249: the reply releases the waiting datagram; R232: a request for another's address is answered if its sender is
known. -/
theorem test_aRecvArp : answer (.aRecvArp true .reply 0x020000000001#64 0x0A000002#32 0x020000000002#64 0x0A000001#32 0x020000000001#64) asked
    = some ⟨0x53000000#32, [1#32, 1#32]⟩ := by decide
theorem test_aRecvArp_request : answer (.aRecvArp true .request 0xFFFFFFFFFFFF#64 0x0A000002#32 0x020000000002#64 0x0A000009#32 0#64) asked
    = some ⟨0x53000000#32, [3#32, 1#32]⟩ := by decide

/-- R245's example. -/
theorem test_aTick_before : answer (.aTick 29999#32) learned = some ⟨0x54000000#32, [0#32]⟩ := by decide
theorem test_aTick_at : answer (.aTick 30000#32) learned = some ⟨0x54000000#32, [1#32]⟩ := by decide

/-- R246's example. -/
theorem test_aPopF : answer .aPopF asked = some ⟨0x55000000#32, [0xFFFFFFFF#32, 0xFFFF#32, 1#32, 0x200#32, 1#32, 0#32,
    0x0A000001#32, 1#32, 0x200#32, 0x0A000002#32, 0#32, 0#32]⟩ := by decide

/-- R247's example. -/
theorem test_aLookup :
    answer (.aLookup 0x0A000002#32) asked = some ⟨0x56000000#32, [1#32, 0#32, 0#32, 5000#32, 0#32]⟩ := by decide

/-! ## Witnesses: hypotheses that are met -/

/-- `F[0]` with its byte counters two below their limit. -/
def fifoFull64 : Fifo := { fifo4 with bw := 0xFFFFFFFFFFFFFFFE#64, br := 0xFFFFFFFFFFFFFFFE#64, wp := 2#32, rp := 2#32 }

/-- Unit R in the middle of a stream: 3 bytes delivered, 1 popped, one byte stored at index 5. -/
def midStream : State :=
  { fresh with
    f1 := { Fifo.reset with cap := 9#32, bw := 3#64, br := 1#64, wp := 3#32, rp := 1#32, mem := [(1, 2#8), (2, 3#8)] }
    r := { cap := 9#32, next := 3#64, hasEof := true, seg := [⟨5#64, [7#8]⟩] } }

/-- `fresh` with its output closed after the end of the stream was flagged. -/
def closedStream : State :=
  { fresh with f1 := { fresh.f1 with flags := 1#2 }, r := { fresh.r with hasEof := true } }

/-- Two segments sent, the first one acknowledged, the timer running. -/
def twoSent : State :=
  { fresh with t := { fresh.t with
      nextSeqno := 5#64, lastAckno := 1#64, outb := 4#64, running := true, timer := 400#32
      outq := [⟨1#64, 2#16⟩, ⟨3#64, 2#16⟩] } }

/-- One pending and one reachable entry, one waiting datagram, an IPv4 and an ARP frame to send. -/
def busyArp : State :=
  { fresh with a := { fresh.a with
      now := 100#64
      tab := [⟨0x0A000002#32, 0#48, false, 5000#64⟩, ⟨0x0A000003#32, 0x020000000003#48, true, 30000#64⟩]
      pend := [⟨0x0A000002#32, [0x45#8]⟩]
      outf := [⟨0x020000000003#48, 0x020000000001#48, .ipv4 [0x45#8]⟩, arpRequest fresh.a 0x0A000002#32] } }

/-- `busyArp` with every store of unit A full (N_PEND 4, N_FRAME 8, N_ARP 4 in `State.reset`). -/
def fullArp : State :=
  { busyArp with a := { busyArp.a with
      tab := busyArp.a.tab ++ [⟨0x0A000004#32, 0#48, false, 5000#64⟩, ⟨0x0A000005#32, 0#48, false, 5000#64⟩]
      pend := List.replicate 4 ⟨0x0A000002#32, []⟩
      outf := List.replicate 8 (arpRequest fresh.a 0x0A000002#32) } }

/-- A state with one command frame on the port. -/
def withFrame (fr : Frame) (s : State) : State := { s with port := [.command fr] }

theorem fifoOk_reset : FifoOk Fifo.reset := ⟨by decide, by decide, by decide, by decide, by decide⟩
theorem fifoOk_fifo4 : FifoOk fifo4 := ⟨by decide, by decide, by decide, by decide, by decide⟩
theorem fifoOk_cat : FifoOk fifoCat := ⟨by decide, by decide, by decide, by decide, by decide⟩
theorem fifoOk_full64 : FifoOk fifoFull64 := ⟨by decide, by decide, by decide, by decide, by decide⟩
theorem fifoOk_fresh1 : FifoOk fresh.f1 := ⟨by decide, by decide, by decide, by decide, by decide⟩
theorem fifoOk_midStream : FifoOk midStream.f1 := ⟨by decide, by decide, by decide, by decide, by decide⟩
theorem reasmOk_fresh : ReasmOk fresh := ⟨by decide, by decide, trivial, by decide, by decide, by decide⟩
theorem reasmOk_midStream : ReasmOk midStream :=
  ⟨by decide, by decide, ⟨by decide, by decide, by decide, trivial⟩, by decide, by decide, by decide⟩
theorem reasmOk_closedStream : ReasmOk closedStream := ⟨by decide, by decide, trivial, by decide, by decide, by decide⟩
theorem timerOk_fresh : TimerOk fresh.params fresh.t :=
  ⟨by decide, trivial, by decide, by decide, by decide, by decide, by decide, by decide, by decide⟩
theorem timerOk_twoSent : TimerOk twoSent.params twoSent.t :=
  ⟨by decide, ⟨by decide, rfl⟩, by decide, by decide, by decide, by decide, by decide, by decide, by decide⟩
theorem arpOk_fresh : ArpOk fresh.params fresh.a :=
  ⟨by decide, by decide, by decide, by decide, by decide, by decide, by decide, by decide, by decide⟩
theorem arpOk_busyArp : ArpOk busyArp.params busyArp.a :=
  ⟨by decide, by decide, by decide, by decide, by decide, by decide, by decide, by decide, by decide⟩
theorem arpOk_fullArp : ArpOk fullArp.params fullArp.a :=
  ⟨by decide, by decide, by decide, by decide, by decide, by decide, by decide, by decide, by decide⟩

/-- Every unit busy at once. -/
def busy : State := { cat with f1 := midStream.f1, r := midStream.r, t := twoSent.t, a := busyArp.a }

/-- StepKeepsSafety, and the invariants of the four units in one state. -/
theorem witness_safe : Safe busy where
  legal := by decide
  fifo0 := fifoOk_cat
  fifo1 := fifoOk_midStream
  reasm := ⟨by decide, by decide, ⟨by decide, by decide, by decide, trivial⟩, by decide, by decide, by decide⟩
  timer := ⟨by decide, ⟨by decide, rfl⟩, by decide, by decide, by decide, by decide, by decide, by decide, by decide⟩
  arp := ⟨by decide, by decide, by decide, by decide, by decide, by decide, by decide, by decide, by decide⟩
  caps := ⟨by decide, by decide⟩
  rest := ⟨by decide, by decide, by decide, by decide⟩

/-- ResetIsSafe: legal parameters at their bounds. -/
theorem witness_params : (⟨1#32, 1#32, 1#32, 1#32, 1#32⟩ : Params).Legal ∧
    (⟨0xFFFFFFFF#32, 0xFFFFFFFF#32, 0xFFFFFFFF#32, 0xFFFFFFFF#32, 0xFFFFFFFF#32⟩ : Params).Legal := by decide

/-! ### Encoding and the step -/

theorem witness_wellFormed : Instr.wellFormed (.fWrite .f1 [1#8, 2#8]) = true ∧
    Instr.wellFormed (.aRecvArp true .reply 1#64 2#32 3#64 4#32 5#64) = true := by decide
theorem witness_wellFormed_longest : Instr.wellFormed (.rPush true 0#64 (List.replicate 65535 0#8)) = true := by
  rw [Instr.wellFormed, lenFits, List.length_replicate]; decide
theorem witness_decodes : decode ⟨0x21000003#32, [0xFF746163#32]⟩ = .ok (.fWrite .f0 [0x63#8, 0x61#8, 0x74#8]) := by decide
theorem witness_step : (withFrame ⟨0x44000000#32, []⟩ busy).port = .command ⟨0x44000000#32, []⟩ :: [] ∧
    decode ⟨0x44000000#32, []⟩ = .ok .tSeqno := by decide
theorem witness_illegal : (withFrame ⟨0xF0000000#32, []⟩ busy).port = .command ⟨0xF0000000#32, []⟩ :: [] ∧
    decode ⟨0xF0000000#32, []⟩ = .error .unknownOpcode := by decide
theorem witness_wait_and_reset : State.reset.port = [] ∧ ({ busy with port := [.reset] } : State).port = .reset :: [] := by decide
theorem witness_no_command : ∀ fr rest, ({ busy with port := [.reset] } : State).port ≠ .command fr :: rest := by
  intro fr rest h; cases h
theorem witness_refused :
    (after (step (withFrame ⟨0x41000000#32, []⟩ busy))).rsp = [⟨0x41030000#32, []⟩] := by decide
theorem witness_frames_fit : ∀ f ∈ busy.a.outf, frameFits f = true := by decide

/-! ### System and unit W -/

theorem witness_rdreg_first : (0x0000#16, 1) ∈ listedRegisters busy := List.mem_of_getElem? (i := 0) (by decide)
theorem witness_rdreg_funacc : (0x3006#16, 10) ∈ listedRegisters busy := List.mem_of_getElem? (i := 33) (by decide)
theorem witness_rdreg_last : (0x5005#16, 2) ∈ listedRegisters busy := List.mem_of_getElem? (i := 55) (by decide)
theorem witness_rdreg_unlisted : ∀ id ∈ [0x0007#16, 0x1FFF#16, 0x200A#16, 0x20FF#16, 0x210A#16, 0x3007#16, 0x4010#16, 0x5006#16],
    ¬ (id.toNat ≤ 0x0006 ∨ (0x2000 ≤ id.toNat ∧ id.toNat ≤ 0x2009) ∨ (0x2100 ≤ id.toNat ∧ id.toNat ≤ 0x2109) ∨
       (0x3000 ≤ id.toNat ∧ id.toNat ≤ 0x3006) ∨ (0x4000 ≤ id.toNat ∧ id.toNat ≤ 0x400F) ∨
       (0x5000 ≤ id.toNat ∧ id.toNat ≤ 0x5005)) := by simp
theorem witness_wDiff_half : (0x80000000#32).toNat + 2 ^ 31 ≠ (0#32).toNat ∧ (0#32).toNat + 2 ^ 31 = (0x80000000#32).toNat := by
  decide
theorem witness_unwrap_refused : 2 ^ 64 - 2 ^ 32 ≤ (0xFFFFFFFF00000001#64).toNat ∧
    (0#32 - 0#32).toNat < (0xFFFFFFFF00000001#64).toNat % 2 ^ 32 := by decide
theorem witness_unwrap_answers : ¬ (2 ^ 64 - 2 ^ 32 ≤ (0xFFFFFFFF00000000#64).toNat ∧
    (0#32 - 0#32).toNat < (0xFFFFFFFF00000000#64).toNat % 2 ^ 32) := by decide
/-- UnwrapInvertsWrap: `d` at both ends of its range, and an answered `unwrap`. -/
theorem witness_unwrap_near :
    (-(2 ^ 31 : Int) < ((0x180000000#64).toNat : Int) - (0x100000000#64).toNat ∧
      ((0x180000000#64).toNat : Int) - (0x100000000#64).toNat ≤ 2 ^ 31) ∧
    (-(2 ^ 31 : Int) < ((0x80000001#64).toNat : Int) - (0x100000000#64).toNat ∧
      ((0x80000001#64).toNat : Int) - (0x100000000#64).toNat ≤ 2 ^ 31) ∧
    unwrap 13#32 0xFFFFFFFE#32 0x300000000#64 = some 0x30000000F#64 := by decide

/-! ### Unit F -/

theorem witness_fInit : (0#32).toNat = 0 ∧ State.reset.params.capMax.toNat < (65537#32).toNat ∧ 1 ≤ (1#32).toNat ∧
    (65536#32).toNat ≤ State.reset.params.capMax.toNat := by decide
theorem witness_fWrite_appends : configured .fifo0 cat = true ∧ Mem.wf cat.f0.mem = true ∧
    1 = min [1#8, 2#8].length (cat.f0.cap.toNat - (cat.f0.bw.toNat - cat.f0.br.toNat)) ∧ cat.f0.inputEnded = false ∧
    cat.f0.bw.toNat + 1 < 2 ^ 64 := by decide
theorem witness_fWrite_ended : configured .fifo0 { fresh with f0 := fifoCat.endInput } = true ∧
    Mem.wf fifoCat.endInput.mem = true ∧ fifoCat.endInput.inputEnded = true := by decide
theorem witness_fWrite_range : configured .fifo0 { fresh with f0 := fifoFull64 } = true ∧ Mem.wf fifoFull64.mem = true ∧
    2 = min [1#8, 2#8].length (fifoFull64.cap.toNat - (fifoFull64.bw.toNat - fifoFull64.br.toNat)) ∧
    fifoFull64.inputEnded = false ∧ 2 ^ 64 ≤ fifoFull64.bw.toNat + 2 := by decide
/-- FPeekReturnsTheOldestBytes, FPopRemovesTheOldestBytes, FEndAndFSetErrSetTheirFlag: both instances configured. -/
theorem witness_fifo_configured : configured (cfgOfFifo .f0) busy = true ∧ configured (cfgOfFifo .f1) busy = true ∧
    2 = min (2#16).toNat (busy.f0.bw.toNat - busy.f0.br.toNat) ∧
    2 = min (0xFFFF#16).toNat (busy.f1.bw.toNat - busy.f1.br.toNat) := by decide
/-- CircularBufferIsAQueue: a write that succeeds, on an instance that meets R27's invariants. -/
theorem witness_queue : FifoOk fifoCat ∧ fifoCat.write [1#8, 2#8] = some (fifoCat.append [1#8, 2#8] 1, 1) :=
  ⟨fifoOk_cat, by decide⟩
/-- ClosedFifoNeverGrows: a closed instance under a write to it. -/
theorem witness_closed : (∀ k cap, Instr.fWrite .f0 [1#8] = .fInit k cap → FifoId.f0 = .f1) ∧
    (∀ cap, Instr.fWrite .f0 [1#8] = .rInit cap → FifoId.f0 = .f0) ∧ Instr.fWrite .f0 [1#8] ≠ .sreset ∧
    ({ fresh with f0 := fifoCat.endInput.setError } : State).f0.inputEnded = true ∧
    ({ fresh with f0 := fifoCat.endInput.setError } : State).f0.errorFlag = true :=
  ⟨fun _ _ h => (by cases h), fun _ h => (by cases h), by decide, by decide, by decide⟩

/-! ### Unit R -/

/-- RPushOutsideTheWindowIsDropped: its three clauses, each at its boundary (`NEXT` is 3, the window ends at 10). -/
theorem witness_rPush_dropped : configured .reasm midStream = true ∧ (9#64).toNat + ([] : List Byte).length < 2 ^ 64 ∧
    (2#64).toNat + [1#8].length ≤ midStream.r.next.toNat ∧
    midStream.r.next.toNat + (midStream.f1.cap.toNat - (midStream.f1.bw.toNat - midStream.f1.br.toNat)) ≤ (10#64).toNat := by
  decide
/-- MergeKeepsTheRightBytes: a piece over the front of one segment, the whole of the next, and the back of a third. -/
theorem witness_merge :
    SegsIn 0 20 [⟨2#64, [1#8, 2#8]⟩, ⟨5#64, [3#8]⟩, ⟨7#64, [4#8, 5#8]⟩] ∧ 0 ≤ 3 ∧ 8 ≤ 20 ∧ 3 ≤ 3 ∧
      8 ≤ 3 + [9#8, 9#8, 9#8, 9#8, 9#8].length ∧ 3 < 8 ∧
      (∀ g ∈ ([⟨2#64, [1#8, 2#8]⟩, ⟨5#64, [3#8]⟩, ⟨7#64, [4#8, 5#8]⟩] : List Seg), ¬ (g.start.toNat ≤ 3 ∧ 8 ≤ g.stop)) :=
  ⟨⟨by decide, by decide, by decide, by decide, by decide, by decide, by decide, by decide, by decide, trivial⟩,
    by decide, by decide, by decide, by decide, by decide, by decide⟩
/-- MergeKeepsTheRightBytes: an empty piece, and one that is exactly a stored segment. -/
theorem witness_merge_discarded : SegsIn 0 20 [⟨2#64, [1#8, 2#8]⟩] ∧ 4 ≤ 4 ∧
    (∃ g ∈ ([⟨2#64, [1#8, 2#8]⟩] : List Seg), g.start.toNat ≤ 2 ∧ 4 ≤ g.stop) ∧ 4 ≤ 2 + [9#8, 9#8].length :=
  ⟨⟨by decide, by decide, by decide, trivial⟩, by decide, ⟨_, List.mem_singleton_self _, by decide, by decide⟩, by decide⟩
/-- RPushDeliversTheContiguousPrefix: a piece at `NEXT`, up to the stored segment. -/
theorem witness_rPush_delivers : FifoOk midStream.f1 ∧ ReasmOk midStream ∧ configured .reasm midStream = true ∧
    midStream.f1.inputEnded = false ∧ (3#64).toNat + [1#8, 2#8].length < 2 ^ 64 ∧ [1#8, 2#8] ≠ [] ∧
    midStream.r.next.toNat < (3#64).toNat + [1#8, 2#8].length ∧
    (3#64).toNat < midStream.r.next.toNat + (midStream.f1.cap.toNat - (midStream.f1.bw.toNat - midStream.f1.br.toNat)) :=
  ⟨fifoOk_midStream, reasmOk_midStream, by decide, by decide, by decide, by decide, by decide, by decide⟩
/-- RPushAfterCloseDeliversNothing: a dropped push, one at NEXT, and one beyond it, which R161 case 12 says stays stored. -/
theorem witness_rPush_closed : ReasmOk closedStream ∧ configured .reasm closedStream = true ∧
    closedStream.f1.inputEnded = true ∧ (2#64).toNat + [1#8].length < 2 ^ 64 ∧
    (after (exec (.rPush false 0#64 []) closedStream)).r.seg = [] ∧
    (after (exec (.rPush false 0#64 [1#8]) closedStream)).r.seg = [] ∧
    (after (exec (.rPush false 2#64 [1#8]) closedStream)).r.seg = [⟨2#64, [1#8]⟩] :=
  ⟨reasmOk_closedStream, by decide, by decide, by decide, by decide, by decide, by decide⟩
/-- StoredBytesFitTheCapacity, StepKeepsReassemblerInvariant, StepKeepsFifoInvariant: with a step that succeeds. -/
theorem witness_rPush_step : FifoOk midStream.f0 ∧ FifoOk midStream.f1 ∧ ReasmOk midStream ∧
    (after (step (withFrame (encode (.rPush false 3#64 [1#8, 2#8])) midStream))).r.next = 6#64 :=
  ⟨fifoOk_fifo4, fifoOk_midStream, reasmOk_midStream, by decide⟩

/-! ### Unit T -/

theorem witness_tSent : configured .timer twoSent = true ∧ 65535#16 ≠ 0#16 ∧
    twoSent.t.outq.length < twoSent.params.nOut.toNat ∧ twoSent.t.nextSeqno.toNat + (65535#16).toNat < 2 ^ 64 := by decide
/-- TAckInvalidAndStale, TAckFreshPopsTheCoveredPrefix: an invalid, a stale and a fresh acknowledgement, each at its
boundary (`NEXT_SEQNO` is 5, `LAST_ACKNO` 1). -/
theorem witness_tAck : configured .timer twoSent = true ∧ (65535#32).toNat < 2 ^ 16 ∧
    (unwrap 0x123A#32 twoSent.t.isn twoSent.t.lastAckno = some 6#64 ∧ twoSent.t.nextSeqno.toNat < (6#64).toNat) ∧
    (unwrap 0x1235#32 twoSent.t.isn twoSent.t.lastAckno = some 1#64 ∧ (1#64).toNat ≤ twoSent.t.nextSeqno.toNat ∧
      (1#64).toNat ≤ twoSent.t.lastAckno.toNat) ∧
    (unwrap 0x1239#32 twoSent.t.isn twoSent.t.lastAckno = some 5#64 ∧ (5#64).toNat ≤ twoSent.t.nextSeqno.toNat ∧
      twoSent.t.lastAckno.toNat < (5#64).toNat) := by decide
/-- TTickAdvancesOrExpiresAndBacksOff: stopped; running and just below the RTO; running and at it, with and (in a state no
run reaches) without a segment outstanding. -/
theorem witness_tTick : configured .timer twoSent = true ∧ fresh.t.running = false ∧ twoSent.t.running = true ∧
    twoSent.t.timer.toNat + (599#32).toNat < twoSent.t.rto.toNat ∧ twoSent.t.rto.toNat ≤ twoSent.t.timer.toNat + (600#32).toNat ∧
    twoSent.t.outq = ⟨1#64, 2#16⟩ :: [⟨3#64, 2#16⟩] ∧
    ({ fresh.t with running := true, timer := 1000#32 } : Timer).outq = [] := by decide
/-- StepKeepsTimerInvariant, PoppedDescriptorsAreExactlyTheCovered: with a step that succeeds. -/
theorem witness_tAck_step : TimerOk twoSent.params twoSent.t ∧
    (after (step (withFrame (encode (.tAck 0x1237#32 4#32)) twoSent))).t.outq = [⟨3#64, 2#16⟩] :=
  ⟨timerOk_twoSent, by decide⟩

/-! ### Unit A -/

theorem witness_aInit : 2 ^ 16 ≤ (0x10000#32).toNat ∧ (0xFFFF#32).toNat < 2 ^ 16 := by decide
theorem witness_aSend_miss : configured .arp busyArp = true ∧ (∀ e ∈ busyArp.a.tab, e.ip ≠ 0x0A000009#32) ∧
    busyArp.a.pend.length < busyArp.params.nPend.toNat ∧ busyArp.a.outf.length < busyArp.params.nFrame.toNat ∧
    busyArp.a.tab.length < busyArp.params.nArp.toNat := by decide
/-- ASendWithAnEntryQueuesResendsOrEmits: a live pending entry, a reachable one, and (in a state no run reaches) a pending
one whose expiry has passed. -/
theorem witness_aSend_entry : configured .arp busyArp = true ∧ (busyArp.a.tab.map ArpEntry.ip).Nodup ∧
    (⟨0x0A000002#32, 0#48, false, 5000#64⟩ ∈ busyArp.a.tab ∧ busyArp.a.now.toNat < (5000#64).toNat) ∧
    ⟨0x0A000003#32, 0x020000000003#48, true, 30000#64⟩ ∈ busyArp.a.tab ∧
    busyArp.a.pend.length < busyArp.params.nPend.toNat ∧ busyArp.a.outf.length < busyArp.params.nFrame.toNat ∧
    (5000#64).toNat ≤ ({ busyArp.a with now := 5000#64 } : Arp).now.toNat ∧ (5000#64).toNat ≤ 2 ^ 64 - 1 - 30000 := by decide
theorem witness_aRecvIp : configured .arp busyArp = true ∧ (0xFFFF#32).toNat < 2 ^ 16 := by decide
/-- ARecvArpDropsTheUnaccepted: not for us; not parsed; not accepted. -/
theorem witness_aRecvArp_drop : configured .arp busyArp = true ∧ (0xFFFFFFFFFFFF#64).toNat < 2 ^ 48 ∧
    ((0x020000000009#64).toNat ≠ busyArp.a.eth.toNat ∧ (0x020000000009#64).toNat ≠ 2 ^ 48 - 1) ∧
    (0x0A000009#32 ≠ busyArp.a.ip ∧ ∀ e ∈ busyArp.a.tab, e.ip ≠ 0x0A000008#32) := by decide
/-- ARecvArpLearnsRepliesAndFlushes: a request from a known sender with a waiting datagram; a reply from a new one. -/
theorem witness_aRecvArp_learn : configured .arp busyArp = true ∧ (0x020000000001#64).toNat = busyArp.a.eth.toNat ∧
    (0x020000000002#64).toNat < 2 ^ 48 ∧ (∃ e ∈ busyArp.a.tab, e.ip = 0x0A000002#32) ∧ (busyArp.a.tab.map ArpEntry.ip).Nodup ∧
    [[0x45#8]] = (busyArp.a.pend.filter (fun p => p.ip = 0x0A000002#32)).map Pending.dgram ∧
    busyArp.a.outf.length + 1 + 1 ≤ busyArp.params.nFrame.toNat ∧
    (0x0A000001#32 = busyArp.a.ip ∧ busyArp.a.tab.length < busyArp.params.nArp.toNat) := by decide
theorem witness_aTick : configured .arp busyArp = true ∧ busyArp.a.now.toNat + (0xFFFFFFFF#32).toNat ≤ 2 ^ 64 - 1 - 30000 := by decide
theorem witness_aPopF : configured .arp busyArp = true ∧
    busyArp.a.outf = ⟨0x020000000003#48, 0x020000000001#48, .ipv4 [0x45#8]⟩ :: [arpRequest fresh.a 0x0A000002#32] ∧
    asked.a.outf = [⟨0xFFFFFFFFFFFF#48, 0x020000000001#48,
      .arp ⟨.request, 0x0A000001#32, 0x020000000001#48, 0x0A000002#32, 0#48⟩⟩] := by decide
/-- ALookupShowsTheEntry: no entry, a pending one, a reachable one. -/
theorem witness_aLookup : configured .arp busyArp = true ∧ (busyArp.a.tab.map ArpEntry.ip).Nodup ∧
    (∀ e ∈ busyArp.a.tab, e.ip ≠ 0x0A000009#32) ∧ ⟨0x0A000002#32, 0#48, false, 5000#64⟩ ∈ busyArp.a.tab ∧
    ⟨0x0A000003#32, 0x020000000003#48, true, 30000#64⟩ ∈ busyArp.a.tab := by decide
/-- StepKeepsArpInvariant, ASendResendArmIsDead: with a step that succeeds. -/
theorem witness_aTick_step : ArpOk busyArp.params busyArp.a ∧
    (after (step (withFrame (encode (.aTick 4900#32)) busyArp))).a.tab = [⟨0x0A000003#32, 0x020000000003#48, true, 30000#64⟩] :=
  ⟨arpOk_busyArp, by decide⟩

/-! ### Refusals -/

/-- UnconfiguredUnitsRefuse: nothing is configured after reset. -/
theorem witness_unconfigured : configured .fifo0 State.reset = false ∧ configured .reasm State.reset = false ∧
    configured .timer State.reset = false ∧ configured .arp State.reset = false ∧ cfgOfFifo .f1 = .reasm := by decide
/-- ConfiguredUnitsRefuseByTheirChecks: the operand checks at their boundary. -/
theorem witness_refused_operands : configured .reasm busy = true ∧ configured .timer busy = true ∧ configured .arp busy = true ∧
    2 ^ 16 ≤ (0x10000#32).toNat ∧ 2 ^ 48 ≤ (0x1000000000000#64).toNat ∧ fresh.a.outf = [] := by decide
/-- ConfiguredUnitsRefuseByTheirChecks: the stores of unit A full, for a miss, a pending entry, a hit, and a message. -/
theorem witness_refused_full : configured .arp fullArp = true ∧ (∀ e ∈ fullArp.a.tab, e.ip ≠ 0x0A000009#32) ∧
    fullArp.a.pend.length = fullArp.params.nPend.toNat ∧ fullArp.a.outf.length = fullArp.params.nFrame.toNat ∧
    fullArp.a.tab.length = fullArp.params.nArp.toNat ∧ (fullArp.a.tab.map ArpEntry.ip).Nodup ∧
    ⟨0x0A000002#32, 0#48, false, 5000#64⟩ ∈ fullArp.a.tab ∧ ⟨0x0A000003#32, 0x020000000003#48, true, 30000#64⟩ ∈ fullArp.a.tab ∧
    (0x020000000001#64).toNat = fullArp.a.eth.toNat ∧ 0x0A000001#32 = fullArp.a.ip ∧
    fullArp.params.nFrame.toNat < fullArp.a.outf.length + 1 + 0 := by decide
/-- ConfiguredUnitsRefuseByTheirChecks: a pending entry whose expiry has passed (in a state no run reaches), OUTF full, PEND not. -/
theorem witness_refused_resend : configured .arp { fullArp with a := { fullArp.a with now := 5000#64, pend := [] } } = true ∧
    (fullArp.a.tab.map ArpEntry.ip).Nodup ∧ ⟨0x0A000002#32, 0#48, false, 5000#64⟩ ∈ fullArp.a.tab ∧
    (5000#64).toNat ≤ ({ fullArp.a with now := 5000#64, pend := [] } : Arp).now.toNat ∧
    fullArp.a.outf.length = fullArp.params.nFrame.toNat ∧ ([] : List Pending).length < fullArp.params.nPend.toNat := by decide
/-- ConfiguredUnitsRefuseByTheirChecks: the queue of unit T full (N_OUT is 8 in `State.reset`). -/
theorem witness_refused_queue : configured .timer { fresh with t := { fresh.t with outq := List.replicate 8 ⟨0#64, 1#16⟩ } } = true ∧
    1#16 ≠ 0#16 ∧ (List.replicate 8 (⟨0#64, 1#16⟩ : Desc)).length = fresh.params.nOut.toNat := by decide
/-- RangeGuardsRefuse: each guard at its boundary. -/
theorem witness_refused_range : 2 ^ 64 ≤ (0xFFFFFFFFFFFFFFFF#64).toNat + [1#8].length ∧
    fresh.t.outq.length < fresh.params.nOut.toNat ∧ 2 ^ 64 ≤ (0xFFFFFFFFFFFFFFFF#64).toNat + (1#16).toNat ∧
    (2 ^ 64 - 2 ^ 32 ≤ (0xFFFFFFFF00000001#64).toNat ∧ (0x1234#32 - fresh.t.isn).toNat < (0xFFFFFFFF00000001#64).toNat % 2 ^ 32) ∧
    2 ^ 64 - 1 - 30000 < (0xFFFFFFFFFFFF8ACF#64).toNat + (1#32).toNat := by decide

/-! ### The whole machine -/

/-- UnitsAreIndependent: a command with a next state, of each unit with state. -/
theorem witness_units : (after (exec (.fPop .f0 1#16) busy)).f0.br = 1#64 ∧ (after (exec (.tTick 1#32) busy)).t.timer = 401#32 ∧
    Instr.fPop .f0 1#16 ≠ .sreset := by decide
/-- UnusedCellsAreNeverObserved: `F[0]` of `busy` with another byte in its free cell. -/
theorem witness_unused : SameButUnusedCells busy { busy with f0 := { fifoCat with mem := fifoCat.mem ++ [(3, 9#8)] } } where
  port := rfl
  rsp := rfl
  params := rfl
  cfgd := rfl
  f0 := ⟨rfl, rfl, rfl, rfl, rfl, rfl, by decide⟩
  f1 := ⟨rfl, rfl, rfl, rfl, rfl, rfl, rfl⟩
  r := rfl
  t := rfl
  a := rfl
theorem witness_unused_fifoOk : FifoOk { fifoCat with mem := fifoCat.mem ++ [(3, 9#8)] } :=
  ⟨by decide, by decide, by decide, by decide, by decide⟩

end Sys2Proof.Tests
end

/-! # What a command can do

The inversion of `exec`: every command answers a next state with one response, and that state is one of the ten effects
below. Frames, refusals and invariants of the whole machine are read off it, so that no later proof unfolds `exec`. -/

namespace Sys2Proof.Machine

/-! ## The changes inside one unit -/

/-- What a command of unit F other than F.INIT does to the FIFO it names (R129 to R133). -/
inductive FifoCmd : Instr → FifoId → Fifo → Fifo → Prop
  | write {f f' : Fifo} {data : List Byte} {k : Nat} (h : f.write data = some (f', k)) :
      FifoCmd (.fWrite .f0 data) .f0 f f'
  | pop (id : FifoId) (n : BitVec 16) (f : Fifo) : FifoCmd (.fPop id n) id f (f.pop n.toNat)
  | endInput (f : Fifo) : FifoCmd (.fEnd .f0) .f0 f f.endInput
  | setError (id : FifoId) (f : Fifo) : FifoCmd (.fSetErr id) id f f.setError

/-- What a command of unit T other than T.INIT does to the unit (R197 to R199). -/
inductive TimerCmd (p : Params) : Instr → Timer → Timer → Prop
  | sent {t : Timer} {len : BitVec 16} (hpos : len ≠ 0#16) (hroom : t.outq.length < p.nOut.toNat)
      (hfit : t.nextSeqno.toNat + len.toNat < 2 ^ 64) : TimerCmd p (.tSent len) t (t.record len)
  | ackStale (ackno window : Word) (t : Timer) :
      TimerCmd p (.tAck ackno window) t { t with window := windowOperand window }
  | ackFresh {t : Timer} {ack : Quad} (ackno window : Word) (hsent : ack.toNat ≤ t.nextSeqno.toNat)
      (hfresh : t.lastAckno.toNat < ack.toNat) :
      TimerCmd p (.tAck ackno window) t (t.freshAck ack (windowOperand window))
  | expire {t : Timer} (ms : Word) (hrun : t.running = true) : TimerCmd p (.tTick ms) t t.expire
  | advance {t : Timer} (ms : Word) (hrun : t.running = true) :
      TimerCmd p (.tTick ms) t { t with timer := t.advanced ms }

/-- What a command of unit A other than A.INIT does to the unit (R242, R244 to R246). -/
inductive ArpCmd (p : Params) : Instr → Arp → Arp → Prop
  | miss {a : Arp} {ip : IpAddr} (dgram : List Byte) (hnone : arpLookup a.tab ip = none)
      (hpend : a.pend.length < p.nPend.toNat) (houtf : a.outf.length < p.nFrame.toNat)
      (htab : a.tab.length < p.nArp.toNat) : ArpCmd p (.aSend ip dgram) a (a.miss ip dgram)
  | resend {a : Arp} {ip : IpAddr} {e : ArpEntry} (dgram : List Byte) (hsome : arpLookup a.tab ip = some e)
      (hexp : e.expire.toNat ≤ a.now.toNat) : ArpCmd p (.aSend ip dgram) a (a.resend e ip dgram)
  | queue {a : Arp} (ip : IpAddr) (dgram : List Byte) (hpend : a.pend.length < p.nPend.toNat) :
      ArpCmd p (.aSend ip dgram) a { a with pend := a.pend ++ [⟨ip, dgram⟩] }
  | hit {a : Arp} (ip : IpAddr) (eth : EthAddr) (dgram : List Byte) (houtf : a.outf.length < p.nFrame.toNat) :
      ArpCmd p (.aSend ip dgram) a { a with outf := a.outf ++ [ipFrame a eth dgram] }
  | accept {a : Arp} {op : ArpOp} {ip : IpAddr} {eth : Quad} (ok : Bool) (dst : Quad) (tip : IpAddr) (teth : Quad)
      (houtf : a.outf.length + (arpEmits a op ip (ethOperand eth)).length ≤ p.nFrame.toNat)
      (htab : arpLookup a.tab ip = none → a.tab.length < p.nArp.toNat) :
      ArpCmd p (.aRecvArp ok op dst ip eth tip teth) a (a.accept op ip (ethOperand eth))
  | tick {a : Arp} {ms : Word} (hnow : a.now.toNat + ms.toNat ≤ 2 ^ 64 - 1 - 30000) :
      ArpCmd p (.aTick ms) a (a.tick ms)
  | popF {a : Arp} {fr : EthFrame} {frs : List EthFrame} (h : a.outf = fr :: frs) :
      ArpCmd p .aPopF a { a with outf := frs }

/-! ## The changes of the whole state -/

/-- The architectural effect of a command: which unit it changes, and how. A refused command and a command that only reads
leave the state `unchanged`; every other effect but SRESET's and the INITs' needs its unit configured. -/
inductive Effect (s : State) : Instr → State → Prop
  | unchanged (i : Instr) : Effect s i s
  | sreset : Effect s .sreset s.reinit
  | fInit {cap : Word} (hcap : capBad s.params cap = false) :
      Effect s (.fInit .f0 cap) { s with f0 := s.f0.init cap, cfgd := cfgdWith .fifo0 s }
  | fifo {i : Instr} {id : FifoId} {f : Fifo} (hcfg : configured (cfgOfFifo id) s = true)
      (h : FifoCmd i id (s.fifo id) f) : Effect s i (s.setFifo id f)
  | rInit {cap : Word} (hcap : capBad s.params cap = false) :
      Effect s (.rInit cap)
        { s with r := { Reasm.reset with cap := cap }, f1 := s.f1.init cap, cfgd := cfgdWith .reasm s }
  | rPush {index : Quad} {data : List Byte} {seg : List Seg} {f : Fifo} {next : Quad} (eof : Bool)
      (hcfg : configured .reasm s = true) (hfit : index.toNat + data.length < 2 ^ 64)
      (h : pushData s index data = some (seg, f, next)) :
      Effect s (.rPush eof index data)
        { s with
          r := { s.r with hasEof := s.r.hasEof || eof, seg := seg, next := next }
          f1 := closeIfDone (s.r.hasEof || eof) seg f }
  | tInit (isn initialRto maxRetx : Word) :
      Effect s (.tInit isn initialRto maxRetx)
        { s with
          t := { Timer.reset with isn := isn, initRto := initialRto, maxRetx := maxRetx, rto := initialRto }
          cfgd := cfgdWith .timer s }
  | timer {i : Instr} {t : Timer} (hcfg : configured .timer s = true) (h : TimerCmd s.params i s.t t) :
      Effect s i { s with t := t }
  | aInit (eth : Quad) (ip : IpAddr) :
      Effect s (.aInit eth ip)
        { s with a := { Arp.reset with eth := ethOperand eth, ip := ip }, cfgd := cfgdWith .arp s }
  | arp {i : Instr} {a : Arp} (hcfg : configured .arp s = true) (h : ArpCmd s.params i s.a a) :
      Effect s i { s with a := a }

/-- The outcome is a next state: an effect of the command on `s`, with one response. -/
def Answers (i : Instr) (s : State) (o : Host.Outcome State Fault Refusal) : Prop :=
  ∃ (u : State) (fr : Frame), o = .next (u.respond fr) ∧ Effect s i u

/-- R291: a refusal changes nothing. -/
theorem answers_refuse (i : Instr) (s : State) (opcode : BitVec 8) (st : Status) : Answers i s (refuse opcode st s) :=
  ⟨s, _, rfl, .unchanged i⟩

theorem Effect.answers {i : Instr} {s u : State} (h : Effect s i u) (opcode : BitVec 8) (words : List Word)
    (payload : List Byte) : Answers i s (complete opcode words payload u) :=
  ⟨u, _, rfl, h⟩

/-- A completed command that only reads changes nothing (R55). -/
theorem answers_read (i : Instr) (s : State) (opcode : BitVec 8) (words : List Word) (payload : List Byte) :
    Answers i s (complete opcode words payload s) :=
  (Effect.unchanged i).answers opcode words payload

/-! ## Unit W and the system commands -/

theorem execRdreg_answers (id : BitVec 16) (s : State) : Answers (.rdreg id) s (execRdreg id s) := by
  unfold execRdreg
  split
  · exact answers_refuse ..
  · exact answers_read ..

theorem execWUnwrap_answers (w isn : Word) (cp : Quad) (s : State) :
    Answers (.wUnwrap w isn cp) s (execWUnwrap w isn cp s) := by
  unfold execWUnwrap
  split
  · exact answers_refuse ..
  · exact answers_read ..

/-! ## Unit F -/

theorem execFInit_answers (id : FifoId) (cap : Word) (s : State) : Answers (.fInit id cap) s (execFInit id cap s) := by
  unfold execFInit
  split
  · exact answers_refuse ..
  · next howner =>
    obtain rfl : id = .f0 := by cases id <;> simp at howner ⊢
    split
    · exact answers_refuse ..
    · next hcap => exact (Effect.fInit (by simpa using hcap)).answers ..

theorem execFWrite_answers (id : FifoId) (data : List Byte) (s : State) :
    Answers (.fWrite id data) s (execFWrite id data s) := by
  unfold execFWrite
  split
  · exact answers_refuse ..
  · next hcfg =>
    split
    · exact answers_refuse ..
    · next howner =>
      obtain rfl : id = .f0 := by cases id <;> simp at howner ⊢
      split
      · exact answers_refuse ..
      · next f k hw => exact (Effect.fifo (by simpa using hcfg) (.write hw)).answers ..

theorem execFPeek_answers (id : FifoId) (n : BitVec 16) (s : State) : Answers (.fPeek id n) s (execFPeek id n s) := by
  unfold execFPeek
  split
  · exact answers_refuse ..
  · exact answers_read ..

theorem execFPop_answers (id : FifoId) (n : BitVec 16) (s : State) : Answers (.fPop id n) s (execFPop id n s) := by
  unfold execFPop
  split
  · exact answers_refuse ..
  · next hcfg => exact (Effect.fifo (by simpa using hcfg) (.pop id n _)).answers ..

theorem execFEnd_answers (id : FifoId) (s : State) : Answers (.fEnd id) s (execFEnd id s) := by
  unfold execFEnd
  split
  · exact answers_refuse ..
  · next hcfg =>
    split
    · exact answers_refuse ..
    · next howner =>
      obtain rfl : id = .f0 := by cases id <;> simp at howner ⊢
      exact (Effect.fifo (by simpa using hcfg) (.endInput _)).answers ..

theorem execFSetErr_answers (id : FifoId) (s : State) : Answers (.fSetErr id) s (execFSetErr id s) := by
  unfold execFSetErr
  split
  · exact answers_refuse ..
  · next hcfg => exact (Effect.fifo (by simpa using hcfg) (.setError id _)).answers ..

/-! ## Unit R -/

theorem execRInit_answers (cap : Word) (s : State) : Answers (.rInit cap) s (execRInit cap s) := by
  unfold execRInit
  split
  · exact answers_refuse ..
  · next hcap => exact (Effect.rInit (by simpa using hcap)).answers ..

theorem execRPush_answers (eof : Bool) (index : Quad) (data : List Byte) (s : State) :
    Answers (.rPush eof index data) s (execRPush eof index data s) := by
  unfold execRPush
  split
  · exact answers_refuse ..
  · next hcfg =>
    split
    · exact answers_refuse ..
    · next hfit =>
      split
      · exact answers_refuse ..
      · next hpush => exact (Effect.rPush eof (by simpa using hcfg) (by omega) hpush).answers ..

/-! ## Unit T -/

theorem execTSent_answers (len : BitVec 16) (s : State) : Answers (.tSent len) s (execTSent len s) := by
  unfold execTSent
  split
  · exact answers_refuse ..
  · next hcfg =>
    split
    · exact answers_refuse ..
    · next hpos =>
      split
      · exact answers_refuse ..
      · next hroom =>
        split
        · exact answers_refuse ..
        · next hfit => exact (Effect.timer (by simpa using hcfg) (.sent hpos (by omega) (by omega))).answers ..

theorem execTAck_answers (ackno window : Word) (s : State) : Answers (.tAck ackno window) s (execTAck ackno window s) := by
  unfold execTAck
  split
  · exact answers_refuse ..
  · next hcfg =>
    have hcfg : configured .timer s = true := by simpa using hcfg
    split
    · exact answers_refuse ..
    · split
      · exact answers_refuse ..
      · split
        · exact answers_read ..
        · next hsent =>
          split
          · exact (Effect.timer hcfg (.ackStale ackno window _)).answers ..
          · next hfresh => exact (Effect.timer hcfg (.ackFresh ackno window (by omega) (by omega))).answers ..

theorem execTTick_answers (ms : Word) (s : State) : Answers (.tTick ms) s (execTTick ms s) := by
  unfold execTTick
  split
  · exact answers_refuse ..
  · next hcfg =>
    have hcfg : configured .timer s = true := by simpa using hcfg
    split
    · exact answers_read ..
    · next hrun =>
      have hrun : s.t.running = true := by simpa using hrun
      split
      · exact (Effect.timer hcfg (.expire ms hrun)).answers ..
      · exact (Effect.timer hcfg (.advance ms hrun)).answers ..

theorem execTSeqno_answers (s : State) : Answers .tSeqno s (execTSeqno s) := by
  unfold execTSeqno
  split
  · exact answers_refuse ..
  · exact answers_read ..

/-! ## Unit A -/

theorem execAInit_answers (eth : Quad) (ip : IpAddr) (s : State) : Answers (.aInit eth ip) s (execAInit eth ip s) := by
  unfold execAInit
  split
  · exact answers_refuse ..
  · exact (Effect.aInit eth ip).answers ..

theorem execASend_answers (ip : IpAddr) (dgram : List Byte) (s : State) :
    Answers (.aSend ip dgram) s (execASend ip dgram s) := by
  unfold execASend
  split
  · exact answers_refuse ..
  · next hcfg =>
    have hcfg : configured .arp s = true := by simpa using hcfg
    split
    · next hnone =>
      split
      · exact answers_refuse ..
      · next hroom => exact (Effect.arp hcfg (.miss dgram hnone (by omega) (by omega) (by omega))).answers ..
    · next e hsome =>
      split
      · split
        · exact answers_refuse ..
        · next hroom =>
          split
          · next hexp => exact (Effect.arp hcfg (.resend dgram hsome hexp)).answers ..
          · exact (Effect.arp hcfg (.queue ip dgram (by omega))).answers ..
      · split
        · exact answers_refuse ..
        · next hroom => exact (Effect.arp hcfg (.hit ip e.eth dgram (by omega))).answers ..

theorem execARecvIp_answers (ok : Bool) (dst : Quad) (s : State) : Answers (.aRecvIp ok dst) s (execARecvIp ok dst s) := by
  unfold execARecvIp
  split
  · exact answers_refuse ..
  · split
    · exact answers_refuse ..
    · split
      · exact answers_read ..
      · exact answers_read ..

theorem execARecvArp_answers (ok : Bool) (op : ArpOp) (dst : Quad) (sip : IpAddr) (seth : Quad) (tip : IpAddr)
    (teth : Quad) (s : State) :
    Answers (.aRecvArp ok op dst sip seth tip teth) s (execARecvArp ok op dst sip seth tip teth s) := by
  unfold execARecvArp
  dsimp only
  split
  · exact answers_refuse ..
  · next hcfg =>
    split
    · exact answers_refuse ..
    · split
      · exact answers_read ..
      · split
        · exact answers_read ..
        · split
          · exact answers_read ..
          · split
            · exact answers_refuse ..
            · next hroom =>
              simp only [Option.isNone_iff_eq_none, not_or, not_and] at hroom
              obtain ⟨houtf, htab⟩ := hroom
              exact (Effect.arp (by simpa using hcfg)
                (.accept ok dst tip teth (by omega) fun hnone => by have := htab hnone; omega)).answers ..

theorem execATick_answers (ms : Word) (s : State) : Answers (.aTick ms) s (execATick ms s) := by
  unfold execATick
  split
  · exact answers_refuse ..
  · next hcfg =>
    split
    · exact answers_refuse ..
    · next hnow =>
      exact (Effect.arp (by simpa using hcfg) (.tick (by simpa [Config.arpStale] using hnow))).answers ..

theorem execAPopF_answers (s : State) : Answers .aPopF s (execAPopF s) := by
  unfold execAPopF
  split
  · exact answers_refuse ..
  · next hcfg =>
    split
    · exact answers_refuse ..
    · next hcons => exact (Effect.arp (by simpa using hcfg) (.popF hcons)).answers ..

theorem execALookup_answers (ip : IpAddr) (s : State) : Answers (.aLookup ip) s (execALookup ip s) := by
  unfold execALookup
  split
  · exact answers_refuse ..
  · split
    · exact answers_read ..
    · split
      · exact answers_read ..
      · exact answers_read ..

/-! ## Every command -/

/-- Every command answers a next state: one effect and one response. -/
theorem exec_answers (i : Instr) (s : State) : Answers i s (exec i s) := by
  cases i with
  | nop => exact answers_read ..
  | rdreg id => exact execRdreg_answers id s
  | sreset => exact Effect.sreset.answers ..
  | wAdd w off => exact answers_read ..
  | wDiff a b => exact answers_read ..
  | wWrap n isn => exact answers_read ..
  | wUnwrap w isn cp => exact execWUnwrap_answers w isn cp s
  | fInit id cap => exact execFInit_answers id cap s
  | fWrite id data => exact execFWrite_answers id data s
  | fPeek id n => exact execFPeek_answers id n s
  | fPop id n => exact execFPop_answers id n s
  | fEnd id => exact execFEnd_answers id s
  | fSetErr id => exact execFSetErr_answers id s
  | rInit cap => exact execRInit_answers cap s
  | rPush eof index data => exact execRPush_answers eof index data s
  | tInit isn rto retx => exact (Effect.tInit isn rto retx).answers ..
  | tSent len => exact execTSent_answers len s
  | tAck ackno window => exact execTAck_answers ackno window s
  | tTick ms => exact execTTick_answers ms s
  | tSeqno => exact execTSeqno_answers s
  | aInit eth ip => exact execAInit_answers eth ip s
  | aSend ip dgram => exact execASend_answers ip dgram s
  | aRecvIp ok dst => exact execARecvIp_answers ok dst s
  | aRecvArp ok op dst sip seth tip teth => exact execARecvArp_answers ok op dst sip seth tip teth s
  | aTick ms => exact execATick_answers ms s
  | aPopF => exact execAPopF_answers s
  | aLookup ip => exact execALookup_answers ip s

/-- The effect behind a command's next state. -/
theorem exec_next_cases {i : Instr} {s t : State} (h : exec i s = .next t) :
    ∃ (u : State) (fr : Frame), t = u.respond fr ∧ Effect s i u := by
  obtain ⟨u, fr, hexec, heff⟩ := exec_answers i s
  rw [h] at hexec
  exact ⟨u, fr, by injection hexec, heff⟩

/-! ## Which unit a command belongs to -/

theorem FifoCmd.opcode_unit {i : Instr} {id : FifoId} {f f' : Fifo} (h : FifoCmd i id f f') :
    i.opcode.extractLsb' 4 4 = 2#4 := by
  cases h <;> simp [Instr.opcode]

theorem FifoCmd.instBits {i : Instr} {id : FifoId} {f f' : Fifo} (h : FifoCmd i id f f') : i.instBits = instField id := by
  cases h <;> rfl

theorem TimerCmd.opcode_unit {p : Params} {i : Instr} {t t' : Timer} (h : TimerCmd p i t t') :
    i.opcode.extractLsb' 4 4 = 4#4 := by
  cases h <;> simp [Instr.opcode]

theorem ArpCmd.opcode_unit {p : Params} {i : Instr} {a a' : Arp} (h : ArpCmd p i a a') :
    i.opcode.extractLsb' 4 4 = 5#4 := by
  cases h <;> simp [Instr.opcode]

theorem Effect.port {s u : State} {i : Instr} (h : Effect s i u) : u.port = s.port := by
  cases h <;> simp

theorem Effect.params {s u : State} {i : Instr} (h : Effect s i u) : u.params = s.params := by
  cases h <;> simp

/-- R13, R323: an effect other than SRESET's changes only the unit the opcode names, but that unit R also writes `F[1]`. -/
theorem Effect.frame {s u : State} {i : Instr} (h : Effect s i u) (hne : i ≠ .sreset) :
    (i.opcode.extractLsb' 4 4 ≠ 2#4 → u.f0 = s.f0) ∧
    (i.opcode.extractLsb' 4 4 ≠ 2#4 → i.opcode.extractLsb' 4 4 ≠ 3#4 → u.f1 = s.f1) ∧
    (i.opcode.extractLsb' 4 4 ≠ 3#4 → u.r = s.r) ∧
    (i.opcode.extractLsb' 4 4 ≠ 4#4 → u.t = s.t) ∧
    (i.opcode.extractLsb' 4 4 ≠ 5#4 → u.a = s.a) ∧
    (i.opcode.extractLsb' 4 4 = 2#4 → ∀ k, instField k ≠ i.instBits → u.fifo k = s.fifo k) := by
  cases h with
  | unchanged => simp
  | sreset => exact absurd rfl hne
  | fInit hcap =>
    refine ⟨by simp [Instr.opcode], by simp, by simp, by simp, by simp, fun _ k hk => ?_⟩
    cases k with
    | f0 => exact absurd rfl hk
    | f1 => rfl
  | fifo hcfg h =>
    refine ⟨by simp [h.opcode_unit], by simp [h.opcode_unit], by simp, by simp, by simp, fun _ k hk => ?_⟩
    rw [h.instBits] at hk
    exact fifo_setFifo_other _ _ _ _ fun hid => hk (congrArg instField hid)
  | rInit hcap => simp [Instr.opcode]
  | rPush eof hcfg hfit h => simp [Instr.opcode]
  | tInit isn rto retx => simp [Instr.opcode]
  | timer hcfg h => simp [h.opcode_unit]
  | aInit eth ip => simp [Instr.opcode]
  | arp hcfg h => simp [h.opcode_unit]

/-- Settles O51: a command's effect is framed by its unit, and its response changes no unit. -/
theorem unitsAreIndependent : Obligations.UnitsAreIndependent := by
  unfold Obligations.UnitsAreIndependent
  intro i s t h hne
  obtain ⟨u, fr, rfl, heff⟩ := exec_next_cases h
  obtain ⟨hf0, hf1, hr, ht, ha, hfifo⟩ := heff.frame hne
  exact ⟨hf0, hf1, hr, ht, ha, by simpa using hfifo, heff.port, heff.params⟩

end Sys2Proof.Machine

/-! # What every command keeps

The invariants of the units (R27, R29, R32, R34), the capacities and the reset values, each kept by every effect. -/

namespace Sys2Proof.Machine

/-! ## After reset -/

theorem FifoOk.reset : FifoOk Fifo.reset where
  brLeBw := by simp
  sizeLeCap := by simp
  wpEq := by simp
  rpEq := by simp
  memWf := memWf_nil

/-- Nothing is stored, so only the counters matter. -/
theorem ReasmOk.of_empty {s : State} (hcap : s.r.cap = s.f1.cap) (hnext : s.r.next = s.f1.bw) (hseg : s.r.seg = [])
    (heof : s.r.hasEof = false) : ReasmOk s where
  capEq := hcap
  nextEq := hnext
  segsIn := by rw [hseg]; trivial
  stopsFit := by simp [hseg]
  noneAtNext := by simp [hseg]
  closed := by simp [heof]

/-- R196: unit T as T.INIT leaves it. -/
theorem TimerOk.init (p : Params) (isn rto retx : Word) :
    TimerOk p { Timer.reset with isn := isn, initRto := rto, maxRetx := retx, rto := rto } where
  outbEq := rfl
  contiguous := trivial
  lenPos := by simp
  ackLe := by simp
  unacked := by simp
  runningIff := by simp
  rtoGe := Nat.le_refl _
  timerZero := by simp
  countLe := by simp

/-- R241: unit A as A.INIT leaves it. -/
theorem ArpOk.init (p : Params) (eth : EthAddr) (ip : IpAddr) : ArpOk p { Arp.reset with eth := eth, ip := ip } where
  oneEach := by simp
  fresh := by simp
  unset := by simp
  nowLe := by simp
  tabLe := by simp
  pendLe := by simp
  outfLe := by simp
  pendFits := by simp
  outfFits := by simp

/-- A state whose units hold their reset values, none of them configured, is safe (R321). -/
theorem Safe.of_reset {s : State} (hlegal : s.params.Legal) (hcfgd : s.cfgd = 0#4) (hf0 : s.f0 = Fifo.reset)
    (hf1 : s.f1 = Fifo.reset) (hr : s.r = Reasm.reset) (ht : s.t = Timer.reset) (ha : s.a = Arp.reset) : Safe s where
  legal := hlegal
  fifo0 := hf0 ▸ FifoOk.reset
  fifo1 := hf1 ▸ FifoOk.reset
  reasm := .of_empty (by simp [hr, hf1]) (by simp [hr, hf1]) (by simp [hr]) (by simp [hr])
  timer := ht ▸ TimerOk.init s.params 0#32 0#32 0#32
  arp := ha ▸ ArpOk.init s.params 0#48 0#32
  caps := by simp [CapsOk, configured, hcfgd]
  rest := ⟨fun _ => hf0, fun _ => ⟨hf1, hr⟩, fun _ => ht, fun _ => ha⟩

/-- Settles O58: the reset values meet every invariant, whatever the legal parameters. -/
theorem resetIsSafe : Obligations.ResetIsSafe := by
  unfold Obligations.ResetIsSafe
  have hreset : ∀ p : Params, p.Legal → Safe (State.resetWith p) := fun p hp => .of_reset hp rfl rfl rfl rfl rfl rfl
  exact ⟨hreset, hreset _ (by decide)⟩

/-! ## The FIFOs (R27) -/

/-- R128, R159: a FIFO just created is empty. -/
theorem FifoOk.init {f : Fifo} (h : FifoOk f) (cap : Word) : FifoOk (f.init cap) where
  brLeBw := by simp
  sizeLeCap := by simp
  wpEq := by simp
  rpEq := by simp
  memWf := h.memWf

theorem FifoOk.endInput {f : Fifo} (h : FifoOk f) : FifoOk f.endInput :=
  ⟨h.brLeBw, h.sizeLeCap, h.wpEq, h.rpEq, h.memWf⟩

theorem FifoOk.setError {f : Fifo} (h : FifoOk f) : FifoOk f.setError :=
  ⟨h.brLeBw, h.sizeLeCap, h.wpEq, h.rpEq, h.memWf⟩

theorem FifoOk.write {f f' : Fifo} {data : List Byte} {k : Nat} (h : FifoOk f) (hw : f.write data = some (f', k)) :
    FifoOk f' := by
  obtain ⟨-, rfl, -⟩ | ⟨-, rfl, hfit, rfl⟩ := write_cases hw
  · exact h
  · exact h.append (Nat.min_le_right _ _) hfit

theorem popCount_le_size (f : Fifo) (n : Nat) : f.popCount n ≤ f.size := Nat.min_le_right _ _

/-- A pop does not carry `BR` past `BW`, so the counter does not wrap. -/
theorem FifoOk.pop_br_toNat {f : Fifo} (h : FifoOk f) (n : Nat) : (f.pop n).br.toNat = f.br.toNat + f.popCount n := by
  have hcount := popCount_le_size f n
  have hbr := h.brLeBw
  have hbw := f.bw.isLt
  simp only [Fifo.size] at hcount
  rw [fifoPop_br, BitVec.toNat_ofNat, Nat.mod_eq_of_lt (by omega)]

theorem FifoOk.pop {f : Fifo} (h : FifoOk f) (n : Nat) : FifoOk (f.pop n) where
  brLeBw := by
    have hcount := popCount_le_size f n
    have hbr := h.brLeBw
    simp only [Fifo.size] at hcount
    rw [h.pop_br_toNat, fifoPop_bw]
    omega
  sizeLeCap := by
    have hsize := h.sizeLeCap
    rw [h.pop_br_toNat, fifoPop_bw, fifoPop_cap]
    omega
  wpEq := h.wpEq
  rpEq := fun hc => by
    rw [fifoPop_cap] at hc ⊢
    have hpos : 0 < f.cap.toNat := Nat.pos_of_ne_zero fun h0 => hc (BitVec.eq_of_toNat_eq (by simpa using h0))
    have hlt := Nat.mod_lt (f.rp.toNat + f.popCount n) hpos
    have hcap := f.cap.isLt
    rw [h.pop_br_toNat, fifoPop_rp, BitVec.toNat_ofNat, Nat.mod_eq_of_lt (by omega), h.rpEq hc, Nat.mod_add_mod]
  memWf := h.memWf

/-- R27: every command of unit F keeps the invariants of the FIFO it names. -/
theorem FifoCmd.fifoOk {i : Instr} {id : FifoId} {f f' : Fifo} (h : FifoCmd i id f f') (hok : FifoOk f) : FifoOk f' := by
  cases h with
  | write hw => exact hok.write hw
  | pop id n => exact hok.pop _
  | endInput => exact hok.endInput
  | setError id => exact hok.setError

/-- R156: the delivery loop writes to the output and does nothing else to it. -/
theorem FifoOk.deliver {seg rest : List Seg} {f f' : Fifo} {next next' : Quad} (hok : FifoOk f)
    (h : deliver seg f next = some (rest, f', next')) : FifoOk f' := by
  induction seg generalizing f next with
  | nil => cases h; exact hok
  | cons g gs ih =>
    unfold Machine.deliver at h
    split at h
    · split at h
      · cases h
      · next hw => exact ih (hok.write hw) h
    · cases h
      exact hok

/-- Everything a push that is not refused can do (R151 to R156). -/
theorem pushData_cases {s : State} {index : Quad} {data : List Byte} {seg : List Seg} {f : Fifo} {next : Quad}
    (h : pushData s index data = some (seg, f, next)) :
    (dropped index.toNat data.length s.r.next.toNat (funacc s) = true ∧ seg = s.r.seg ∧ f = s.f1 ∧ next = s.r.next) ∨
    (dropped index.toNat data.length s.r.next.toNat (funacc s) = false ∧
      deliver (mergePiece s.r.seg index.toNat data (max index.toNat s.r.next.toNat)
        (min (index.toNat + data.length) (funacc s))) s.f1 s.r.next = some (seg, f, next)) := by
  unfold pushData at h
  dsimp only at h
  split at h
  · next hd =>
    cases h
    exact .inl ⟨hd, rfl, rfl, rfl⟩
  · next hd => exact .inr ⟨by simpa using hd, h⟩

theorem FifoOk.pushData {s : State} {index : Quad} {data : List Byte} {seg : List Seg} {f : Fifo} {next : Quad}
    (hok : FifoOk s.f1) (h : pushData s index data = some (seg, f, next)) : FifoOk f := by
  obtain ⟨-, -, rfl, -⟩ | ⟨-, hdel⟩ := pushData_cases h
  · exact hok
  · exact hok.deliver hdel

theorem FifoOk.closeIfDone {f : Fifo} (h : FifoOk f) (hasEof : Bool) (seg : List Seg) :
    FifoOk (closeIfDone hasEof seg f) := by
  rw [closeIfDone_eq]
  split
  · exact h.endInput
  · exact h

/-- R27: every effect keeps the invariants of both FIFOs. -/
theorem Effect.fifosOk {s u : State} {i : Instr} (h : Effect s i u) (h0 : FifoOk s.f0) (h1 : FifoOk s.f1) :
    FifoOk u.f0 ∧ FifoOk u.f1 := by
  cases h with
  | unchanged | tInit | timer | aInit | arp => exact ⟨h0, h1⟩
  | sreset => exact ⟨.reset, .reset⟩
  | fInit => exact ⟨h0.init _, h1⟩
  | @fifo _ id _ hcfg h =>
    cases id with
    | f0 => exact ⟨h.fifoOk h0, h1⟩
    | f1 => exact ⟨h0, h.fifoOk h1⟩
  | rInit => exact ⟨h0, h1.init _⟩
  | rPush eof hcfg hfit h => exact ⟨h0, (h1.pushData h).closeIfDone _ _⟩

/-! ## Unit T (R32) -/

theorem Contiguous.tail {stop : Nat} {d : Desc} {ds : List Desc} (h : Contiguous stop (d :: ds)) : Contiguous stop ds := by
  cases ds with
  | nil => trivial
  | cons d' ds => exact h.2

/-- A descriptor recorded where the queue ends extends it (R183). -/
theorem Contiguous.snoc {q : List Desc} {d : Desc} (h : Contiguous d.absSeqno.toNat q) : Contiguous d.stop (q ++ [d]) := by
  induction q with
  | nil => rfl
  | cons x xs ih =>
    cases xs with
    | nil => exact ⟨Eq.symm h, rfl⟩
    | cons y ys => exact ⟨h.1, ih h.2⟩

/-- The lengths of contiguous descriptors add up to the span between their ends. -/
theorem Contiguous.absSeqno_add_sumLen {stop : Nat} {d : Desc} {ds : List Desc} (h : Contiguous stop (d :: ds)) :
    d.absSeqno.toNat + sumLen (d :: ds) = stop := by
  induction ds generalizing d with
  | nil => simpa [Contiguous, sumLen, Desc.stop] using h
  | cons d' ds ih =>
    obtain ⟨hnext, hrest⟩ := h
    have hspan := ih hrest
    simp only [sumLen, Desc.stop] at *
    omega

theorem Contiguous.sumLen_le {stop : Nat} {q : List Desc} (h : Contiguous stop q) : sumLen q ≤ stop := by
  cases q with
  | nil => exact Nat.zero_le _
  | cons d ds => have hspan := h.absSeqno_add_sumLen; omega

/-- No descriptor ends before an older one. -/
theorem Contiguous.stop_le {stop : Nat} {d x : Desc} {ds : List Desc} (h : Contiguous stop (d :: ds)) (hx : x ∈ ds) :
    d.stop ≤ x.stop := by
  induction ds generalizing d with
  | nil => cases hx
  | cons d' ds ih =>
    obtain ⟨hnext, hrest⟩ := h
    have hle : d.stop ≤ d'.stop := by simp only [Desc.stop] at *; omega
    rcases List.mem_cons.mp hx with rfl | hx
    · exact hle
    · exact hle.trans (ih hrest hx)

theorem Contiguous.dropWhile {stop : Nat} {q : List Desc} (h : Contiguous stop q) (p : Desc → Bool) :
    Contiguous stop (q.dropWhile p) := by
  induction q with
  | nil => trivial
  | cons d ds ih =>
    rw [List.dropWhile_cons]
    split
    · exact ih h.tail
    · exact h

/-- R188: what a fresh acknowledgement leaves in the queue ends beyond it. -/
theorem Contiguous.lt_stop_of_mem_dropWhile {stop ack : Nat} {q : List Desc} (h : Contiguous stop q) {x : Desc}
    (hx : x ∈ q.dropWhile (fun d => d.absSeqno.toNat + d.len.toNat ≤ ack)) : ack < x.stop := by
  induction q with
  | nil => cases hx
  | cons d ds ih =>
    rw [List.dropWhile_cons] at hx
    split at hx
    · exact ih h.tail hx
    · next hd =>
      have hlt : ack < d.stop := by simpa [Desc.stop] using hd
      rcases List.mem_cons.mp hx with rfl | hx
      · exact hlt
      · exact hlt.trans_le (h.stop_le hx)

/-- R183, R184. -/
theorem TimerOk.record {p : Params} {t : Timer} {len : BitVec 16} (h : TimerOk p t) (hpos : len ≠ 0#16)
    (hroom : t.outq.length < p.nOut.toNat) (hfit : t.nextSeqno.toNat + len.toNat < 2 ^ 64) : TimerOk p (t.record len) := by
  have hnext : (t.record len).nextSeqno.toNat = t.nextSeqno.toNat + len.toNat := by
    rw [timerRecord_nextSeqno, BitVec.toNat_ofNat, Nat.mod_eq_of_lt hfit]
  have hlen : 0 < len.toNat := Nat.pos_of_ne_zero fun h0 => hpos (BitVec.eq_of_toNat_eq (by simpa using h0))
  have hack := h.ackLe
  exact
    { outbEq := by
        have houtb := h.outbEq
        have hspan := h.contiguous.sumLen_le
        rw [timerRecord_outb, BitVec.toNat_ofNat, Nat.mod_eq_of_lt (by omega), timerRecord_outq, sumLen_append, houtb]
        rfl
      contiguous := by rw [hnext]; exact Contiguous.snoc (d := ⟨t.nextSeqno, len⟩) h.contiguous
      lenPos := by simpa [or_imp, forall_and] using ⟨h.lenPos, hpos⟩
      ackLe := by rw [hnext, timerRecord_lastAckno]; omega
      unacked := fun d hd => by
        rw [timerRecord_lastAckno]
        rcases List.mem_append.mp hd with hd | hd
        · exact h.unacked d hd
        · obtain rfl := List.mem_singleton.mp hd
          simp only [Desc.stop]
          omega
      runningIff := by simp
      rtoGe := h.rtoGe
      timerZero := by simp
      countLe := by simpa using hroom }

/-- R187: a stale acknowledgement only writes the window, which no invariant names. -/
theorem TimerOk.setWindow {p : Params} {t : Timer} (h : TimerOk p t) (w : BitVec 16) : TimerOk p { t with window := w } :=
  ⟨h.outbEq, h.contiguous, h.lenPos, h.ackLe, h.unacked, h.runningIff, h.rtoGe, h.timerZero, h.countLe⟩

/-- R186 to R189. -/
theorem TimerOk.freshAck {p : Params} {t : Timer} {ack : Quad} (h : TimerOk p t) (hsent : ack.toNat ≤ t.nextSeqno.toNat)
    (w : BitVec 16) : TimerOk p (t.freshAck ack w) where
  outbEq := by
    have houtb := h.outbEq
    have hlt := t.outb.isLt
    have hsplit := congrArg sumLen
      (List.takeWhile_append_dropWhile (p := fun d : Desc => d.absSeqno.toNat + d.len.toNat ≤ ack.toNat) (l := t.outq))
    rw [sumLen_append] at hsplit
    simp only [timerFreshAck_outb, timerFreshAck_outq, popAcked_eq, BitVec.toNat_ofNat]
    rw [Nat.mod_eq_of_lt (by omega)]
    omega
  contiguous := by
    rw [timerFreshAck_nextSeqno, timerFreshAck_outq, popAcked_eq]
    exact h.contiguous.dropWhile _
  lenPos := fun d hd => by
    rw [timerFreshAck_outq, popAcked_eq] at hd
    exact h.lenPos d ((List.dropWhile_sublist _).mem hd)
  ackLe := hsent
  unacked := fun d hd => by
    rw [timerFreshAck_outq, popAcked_eq] at hd
    exact h.contiguous.lt_stop_of_mem_dropWhile hd
  runningIff := by simp
  rtoGe := Nat.le_refl _
  timerZero := fun _ => rfl
  countLe := by
    rw [timerFreshAck_outq, popAcked_eq]
    exact (List.dropWhile_sublist _).length_le.trans h.countLe

/-- R193: the backoff only raises the RTO. -/
theorem TimerOk.expire {p : Params} {t : Timer} (h : TimerOk p t) : TimerOk p t.expire where
  outbEq := h.outbEq
  contiguous := h.contiguous
  lenPos := h.lenPos
  ackLe := h.ackLe
  unacked := h.unacked
  runningIff := h.runningIff
  rtoGe := by
    have hge := h.rtoGe
    have hlt := t.rto.isLt
    rw [timerExpire_rto, timerExpire_initRto]
    split
    · exact hge
    · rw [sat32_toNat]; omega
  timerZero := fun _ => rfl
  countLe := h.countLe

/-- R191: only a running timer advances. -/
theorem TimerOk.advance {p : Params} {t : Timer} (h : TimerOk p t) (hrun : t.running = true) (ms : Word) :
    TimerOk p { t with timer := t.advanced ms } :=
  ⟨h.outbEq, h.contiguous, h.lenPos, h.ackLe, h.unacked, h.runningIff, h.rtoGe, fun hstop => by simp [hrun] at hstop,
    h.countLe⟩

/-- R32: every command of unit T keeps the invariants. -/
theorem TimerCmd.timerOk {p : Params} {i : Instr} {t t' : Timer} (h : TimerCmd p i t t') (hok : TimerOk p t) :
    TimerOk p t' := by
  cases h with
  | sent hpos hroom hfit => exact hok.record hpos hroom hfit
  | ackStale ackno window => exact hok.setWindow _
  | ackFresh ackno window hsent hfresh => exact hok.freshAck hsent _
  | expire ms hrun => exact hok.expire
  | advance ms hrun => exact hok.advance hrun ms

/-- R32: every effect keeps the invariants of unit T. -/
theorem Effect.timerOk {s u : State} {i : Instr} (h : Effect s i u) (hok : TimerOk s.params s.t) :
    TimerOk u.params u.t := by
  cases h with
  | unchanged | fInit | rInit | rPush | aInit | arp => exact hok
  | sreset => exact TimerOk.init s.params 0#32 0#32 0#32
  | fifo => simpa using hok
  | tInit isn rto retx => exact .init s.params isn rto retx
  | timer hcfg h => exact h.timerOk hok

/-! ## Unit A (R34) -/

/-- R220, R231: an entry appended for an address without one. -/
theorem nodup_ip_append {tab : List ArpEntry} {e : ArpEntry} (h : (tab.map ArpEntry.ip).Nodup)
    (hnone : arpLookup tab e.ip = none) : ((tab ++ [e]).map ArpEntry.ip).Nodup := by
  rw [arpLookup_eq_none_iff] at hnone
  rw [List.map_append, List.nodup_append]
  refine ⟨h, by simp, fun ip hip ip' hip' => ?_⟩
  obtain ⟨x, hx, rfl⟩ := List.mem_map.mp hip
  obtain rfl : ip' = e.ip := by simpa using hip'
  exact hnone x hx

/-- An expiry `ms` ahead, without wrap. -/
theorem expiryAt_toNat {a : Arp} {ms : Nat} (h : a.now.toNat + ms < 2 ^ 64) : (expiryAt a ms).toNat = a.now.toNat + ms := by
  rw [expiryAt, BitVec.toNat_ofNat, Nat.mod_eq_of_lt h]

/-- Everything the table holds after an address is learned (R231). -/
theorem mem_learn {a : Arp} {ip : IpAddr} {eth : EthAddr} {e : ArpEntry} (h : e ∈ learn a ip eth) :
    e = ⟨ip, eth, true, expiryAt a Config.arpStale⟩ ∨ e ∈ a.tab := by
  unfold learn at h
  dsimp only at h
  split at h
  · exact (List.mem_append.mp h).symm.imp (by simp) id
  · exact mem_arpUpdate h

theorem nodup_ip_learn {a : Arp} (h : (a.tab.map ArpEntry.ip).Nodup) (ip : IpAddr) (eth : EthAddr) :
    ((learn a ip eth).map ArpEntry.ip).Nodup := by
  unfold learn
  dsimp only
  split
  · next hnone => exact nodup_ip_append h hnone
  · rwa [map_ip_arpUpdate (by rfl)]

theorem length_learn_le {a : Arp} {ip : IpAddr} {n : Nat} (eth : EthAddr) (hle : a.tab.length ≤ n)
    (hroom : arpLookup a.tab ip = none → a.tab.length < n) : (learn a ip eth).length ≤ n := by
  unfold learn
  dsimp only
  split
  · next hnone => simpa using hroom hnone
  · simpa using hle

/-- R232 to R234: the frames an accepted message emits carry only datagrams that were pending. -/
theorem frameFits_of_mem_arpEmits {a : Arp} {op : ArpOp} {ip : IpAddr} {eth : EthAddr} {f : EthFrame}
    (hpend : ∀ d ∈ a.pend, d.dgram.length < 65536) (h : f ∈ arpEmits a op ip eth) : frameFits f = true := by
  rcases List.mem_append.mp h with h | h
  · split at h
    · obtain rfl := List.mem_singleton.mp h
      rfl
    · cases h
  · obtain ⟨d, hd, rfl⟩ := List.mem_map.mp h
    obtain ⟨q, hq, rfl⟩ := List.mem_map.mp hd
    simpa [frameFits, ipFrame] using hpend q (List.mem_of_mem_filter hq)

/-- R223. -/
theorem ArpOk.miss {p : Params} {a : Arp} {ip : IpAddr} {dgram : List Byte} (h : ArpOk p a)
    (hnone : arpLookup a.tab ip = none) (hpend : a.pend.length < p.nPend.toNat) (houtf : a.outf.length < p.nFrame.toNat)
    (htab : a.tab.length < p.nArp.toNat) (hfit : dgram.length < 65536) : ArpOk p (a.miss ip dgram) where
  oneEach := nodup_ip_append h.oneEach hnone
  fresh := fun e he => by
    have hnow := h.nowLe
    rcases List.mem_append.mp he with he | he
    · exact h.fresh e he
    · obtain rfl := List.mem_singleton.mp he
      rw [expiryAt_toNat (by simp only [Config.arpWait]; omega)]
      simp [Config.arpWait]
  unset := fun e he hr => by
    rcases List.mem_append.mp he with he | he
    · exact h.unset e he hr
    · obtain rfl := List.mem_singleton.mp he
      rfl
  nowLe := h.nowLe
  tabLe := by simpa using htab
  pendLe := by simpa using hpend
  outfLe := by simpa using houtf
  pendFits := by simpa [or_imp, forall_and] using ⟨h.pendFits, hfit⟩
  outfFits := by simpa [or_imp, forall_and] using ⟨h.outfFits, rfl⟩

/-- R224: a datagram queued for a pending entry. -/
theorem ArpOk.queue {p : Params} {a : Arp} {ip : IpAddr} {dgram : List Byte} (h : ArpOk p a)
    (hpend : a.pend.length < p.nPend.toNat) (hfit : dgram.length < 65536) :
    ArpOk p { a with pend := a.pend ++ [⟨ip, dgram⟩] } where
  oneEach := h.oneEach
  fresh := h.fresh
  unset := h.unset
  nowLe := h.nowLe
  tabLe := h.tabLe
  pendLe := by simpa using hpend
  outfLe := h.outfLe
  pendFits := by simpa [or_imp, forall_and] using ⟨h.pendFits, hfit⟩
  outfFits := h.outfFits

/-- R226: a datagram sent to a known address. -/
theorem ArpOk.hit {p : Params} {a : Arp} {dgram : List Byte} (h : ArpOk p a) (eth : EthAddr)
    (houtf : a.outf.length < p.nFrame.toNat) (hfit : dgram.length < 65536) :
    ArpOk p { a with outf := a.outf ++ [ipFrame a eth dgram] } where
  oneEach := h.oneEach
  fresh := h.fresh
  unset := h.unset
  nowLe := h.nowLe
  tabLe := h.tabLe
  pendLe := h.pendLe
  outfLe := by simpa using houtf
  pendFits := h.pendFits
  outfFits := by simpa [or_imp, forall_and] using ⟨h.outfFits, by simpa [frameFits, ipFrame] using hfit⟩

/-- R231 to R234. -/
theorem ArpOk.accept {p : Params} {a : Arp} {op : ArpOp} {ip : IpAddr} {eth : EthAddr} (h : ArpOk p a)
    (houtf : a.outf.length + (arpEmits a op ip eth).length ≤ p.nFrame.toNat)
    (htab : arpLookup a.tab ip = none → a.tab.length < p.nArp.toNat) : ArpOk p (a.accept op ip eth) where
  oneEach := nodup_ip_learn h.oneEach ip eth
  fresh := fun e he => by
    have hnow := h.nowLe
    rcases mem_learn he with rfl | he
    · rw [expiryAt_toNat (by simp only [Config.arpStale]; omega)]
      simp [Config.arpStale]
    · exact h.fresh e he
  unset := fun e he hr => by
    rcases mem_learn he with rfl | he
    · cases hr
    · exact h.unset e he hr
  nowLe := h.nowLe
  tabLe := length_learn_le eth h.tabLe htab
  pendLe := (List.length_filter_le _ _).trans h.pendLe
  outfLe := by simpa using houtf
  pendFits := fun d hd => h.pendFits d (List.mem_of_mem_filter hd)
  outfFits := fun f hf =>
    (List.mem_append.mp hf).elim (h.outfFits f) (frameFits_of_mem_arpEmits h.pendFits)

/-- R236, R237: the clock evicts what it makes stale. -/
theorem ArpOk.tick {p : Params} {a : Arp} {ms : Word} (h : ArpOk p a)
    (hnow : a.now.toNat + ms.toNat ≤ 2 ^ 64 - 1 - 30000) : ArpOk p (a.tick ms) := by
  have hnow' : (a.tick ms).now.toNat = a.now.toNat + ms.toNat := by
    rw [arpTick_now, BitVec.toNat_ofNat, Nat.mod_eq_of_lt (by omega)]
  exact
    { oneEach := h.oneEach.sublist (List.filter_sublist.map _)
      fresh := fun e he => by
        rw [hnow']
        simpa using List.of_mem_filter he
      unset := fun e he => h.unset e (List.mem_of_mem_filter he)
      nowLe := by rw [hnow']; exact hnow
      tabLe := (List.length_filter_le _ _).trans h.tabLe
      pendLe := h.pendLe
      outfLe := h.outfLe
      pendFits := h.pendFits
      outfFits := h.outfFits }

/-- R246: the oldest outbound frame is taken. -/
theorem ArpOk.popF {p : Params} {a : Arp} {f : EthFrame} {fs : List EthFrame} (h : ArpOk p a) (hcons : a.outf = f :: fs) :
    ArpOk p { a with outf := fs } where
  oneEach := h.oneEach
  fresh := h.fresh
  unset := h.unset
  nowLe := h.nowLe
  tabLe := h.tabLe
  pendLe := h.pendLe
  outfLe := by have hle := h.outfLe; rw [hcons, List.length_cons] at hle; exact Nat.le_of_succ_le hle
  pendFits := h.pendFits
  outfFits := fun x hx => h.outfFits x (hcons ▸ List.mem_cons_of_mem f hx)

/-- R242: a datagram to send fits `LEN`. -/
theorem length_dgram_lt {ip : IpAddr} {dgram : List Byte} (h : (Instr.aSend ip dgram).wellFormed = true) :
    dgram.length < 65536 := by
  simpa [Instr.wellFormed, lenFits] using h

/-- R34: every well-formed command of unit A keeps the invariants. A resend cannot happen under them (R225). -/
theorem ArpCmd.arpOk {p : Params} {i : Instr} {a a' : Arp} (h : ArpCmd p i a a') (hw : i.wellFormed = true)
    (hok : ArpOk p a) : ArpOk p a' := by
  cases h with
  | miss dgram hnone hpend houtf htab => exact hok.miss hnone hpend houtf htab (length_dgram_lt hw)
  | resend dgram hsome hexp =>
    have hfresh := hok.fresh _ (arpLookup_some hsome).1
    omega
  | queue ip dgram hpend => exact hok.queue hpend (length_dgram_lt hw)
  | hit ip eth dgram houtf => exact hok.hit eth houtf (length_dgram_lt hw)
  | accept ok dst tip teth houtf htab => exact hok.accept houtf htab
  | tick hnow => exact hok.tick hnow
  | popF hcons => exact hok.popF hcons

/-- R34: every effect of a well-formed command keeps the invariants of unit A. -/
theorem Effect.arpOk {s u : State} {i : Instr} (h : Effect s i u) (hw : i.wellFormed = true)
    (hok : ArpOk s.params s.a) : ArpOk u.params u.a := by
  cases h with
  | unchanged | fInit | rInit | rPush | tInit | timer => exact hok
  | sreset => exact ArpOk.init s.params 0#48 0#32
  | fifo => simpa using hok
  | aInit eth ip => exact .init s.params _ ip
  | arp hcfg h => exact h.arpOk hw hok

/-! ## Unit R (R29) -/

/-- R29 looks only at unit R and its output. -/
theorem ReasmOk.of_eq {s u : State} (h : ReasmOk s) (hr : u.r = s.r) (hf : u.f1 = s.f1) : ReasmOk u where
  capEq := by rw [hr, hf]; exact h.capEq
  nextEq := by rw [hr, hf]; exact h.nextEq
  segsIn := by rw [hr, hf]; exact h.segsIn
  stopsFit := by rw [hr]; exact h.stopsFit
  noneAtNext := by rw [hr]; exact h.noneAtNext
  closed := by rw [hr, hf]; exact h.closed

theorem SegsIn.filter {lo hi : Nat} {seg : List Seg} (h : SegsIn lo hi seg) (p : Seg → Bool) :
    SegsIn lo hi (seg.filter p) := by
  induction seg generalizing lo with
  | nil => trivial
  | cons g gs ih =>
    obtain ⟨hne, hlo, hhi, hgs⟩ := h
    rw [List.filter_cons]
    split
    · exact ⟨hne, hlo, hhi, ih hgs⟩
    · exact (ih hgs).mono_lo (hlo.trans (Nat.le_add_right _ _))

/-- Stored segments are disjoint: one that holds a given index is the only one (R29). -/
theorem SegsIn.eq_of_holds {lo hi x : Nat} {seg : List Seg} (h : SegsIn lo hi seg) {g g' : Seg} (hg : g ∈ seg)
    (hg' : g' ∈ seg) (hx : g.start.toNat ≤ x ∧ x < g.stop) (hx' : g'.start.toNat ≤ x ∧ x < g'.stop) : g = g' := by
  induction seg generalizing lo with
  | nil => cases hg
  | cons a as ih =>
    obtain ⟨-, -, -, has⟩ := h
    rcases List.mem_cons.mp hg with rfl | hin <;> rcases List.mem_cons.mp hg' with rfl | hin'
    · rfl
    · have hafter := (has.mem hin').2.1
      omega
    · have hafter := (has.mem hin).2.1
      omega
    · exact ih has hin hin'

/-- R155: inserting a piece that no stored segment overlaps. -/
theorem SegsIn.insertSeg {lo hi : Nat} {seg : List Seg} {p : Seg} (h : SegsIn lo hi seg) (hne : p.data ≠ [])
    (hlo : lo ≤ p.start.toNat) (hhi : p.stop ≤ hi) (hdisj : ∀ g ∈ seg, g.stop ≤ p.start.toNat ∨ p.stop ≤ g.start.toNat) :
    SegsIn lo hi (insertSeg p seg) := by
  have hp := Seg.start_lt_stop hne
  induction seg generalizing lo with
  | nil => exact ⟨hne, hlo, hhi, trivial⟩
  | cons g gs ih =>
    obtain ⟨hgne, hglo, hghi, hgs⟩ := h
    have hg := Seg.start_lt_stop hgne
    have hside := hdisj g (by simp)
    unfold Machine.insertSeg
    split
    · exact ⟨hne, hlo, hhi, hgne, by omega, hghi, hgs⟩
    · exact ⟨hgne, hglo, hghi, ih hgs (by omega) fun x hx => hdisj x (List.mem_cons_of_mem _ hx)⟩

/-- 5c: truncation cuts a piece at the end of the segment over its front. -/
theorem SegsIn.truncFront_eq {lo hi s : Nat} {seg : List Seg} (h : SegsIn lo hi seg) {g : Seg} (hg : g ∈ seg)
    (hover : g.start.toNat < s ∧ s < g.stop) : truncFront seg s = g.stop := by
  unfold truncFront
  split
  · next g' hfind =>
    have hover' : g'.start.toNat < s ∧ s < g'.stop := by simpa [Seg.overFront] using List.find?_some hfind
    rw [h.eq_of_holds (x := s) hg (List.mem_of_find?_eq_some hfind) (by omega) (by omega)]
  · next hnone =>
    have hnot := List.find?_eq_none.mp hnone g hg
    simp [Seg.overFront, hover] at hnot

/-- 5c: truncation cuts a piece at the start of the segment over its back. -/
theorem SegsIn.truncBack_eq {lo hi e : Nat} {seg : List Seg} (h : SegsIn lo hi seg) {g : Seg} (hg : g ∈ seg)
    (hover : g.start.toNat < e ∧ e < g.stop) : truncBack seg e = g.start.toNat := by
  unfold truncBack
  split
  · next g' hfind =>
    have hover' : g'.start.toNat < e ∧ e < g'.stop := by simpa [Seg.overBack] using List.find?_some hfind
    rw [h.eq_of_holds (x := e) hg (List.mem_of_find?_eq_some hfind) (by omega) (by omega)]
  · next hnone =>
    have hnot := List.find?_eq_none.mp hnone g hg
    simp [Seg.overBack, hover] at hnot

theorem le_truncFront (seg : List Seg) (s : Nat) : s ≤ truncFront seg s := by
  unfold truncFront
  split
  · next g hfind =>
    have hover : g.start.toNat < s ∧ s < g.stop := by simpa [Seg.overFront] using List.find?_some hfind
    exact hover.2.le
  · exact Nat.le_refl s

theorem truncBack_le (seg : List Seg) (e : Nat) : truncBack seg e ≤ e := by
  unfold truncBack
  split
  · next g hfind =>
    have hover : g.start.toNat < e ∧ e < g.stop := by simpa [Seg.overBack] using List.find?_some hfind
    exact hover.1.le
  · exact Nat.le_refl e

/-- 5b, 5c: the truncated piece overlaps no segment that the piece `[s, e)` does not cover. -/
theorem SegsIn.trunc_disjoint {lo hi s e : Nat} {seg : List Seg} (h : SegsIn lo hi seg) {g : Seg} (hg : g ∈ seg)
    (hkept : g.coveredBy s e = false) : g.stop ≤ truncFront seg s ∨ truncBack seg e ≤ g.start.toNat := by
  have hkept : s ≤ g.start.toNat → e < g.stop := by simpa [Seg.coveredBy] using hkept
  by_cases hfront : g.start.toNat < s ∧ s < g.stop
  · exact .inl (h.truncFront_eq hg hfront).ge
  · by_cases hback : g.start.toNat < e ∧ e < g.stop
    · exact .inr (h.truncBack_eq hg hback).le
    · have hs := le_truncFront seg s
      have he := truncBack_le seg e
      omega

/-- R153: the bytes of a piece that lies inside the pushed substring. -/
theorem length_pieceData {index s e : Nat} {data : List Byte} (hs : index ≤ s) (he : e ≤ index + data.length) :
    (pieceData index data s e).length = e - s := by
  simp only [pieceData, List.length_take, List.length_drop]
  omega

/-- 5b, 5c, R155: storing a piece that lies inside the substring and the window keeps the segments in order, disjoint and
inside the window, and below `2^64`. -/
theorem SegsIn.storePiece {lo hi index s e : Nat} {seg : List Seg} {data : List Byte} (h : SegsIn lo hi seg)
    (hfit : ∀ g ∈ seg, g.stop < 2 ^ 64) (hlo : lo ≤ s) (hindex : index ≤ s) (hhi : e ≤ hi)
    (hlen : e ≤ index + data.length) (he : e < 2 ^ 64) :
    SegsIn lo hi (storePiece seg index data s e) ∧ ∀ g ∈ storePiece seg index data s e, g.stop < 2 ^ 64 := by
  have hkept := h.filter fun g => !g.coveredBy s e
  have hfront := le_truncFront (seg.filter fun g => !g.coveredBy s e) s
  have hback := truncBack_le (seg.filter fun g => !g.coveredBy s e) e
  unfold Machine.storePiece
  dsimp only
  generalize hs2 : truncFront (seg.filter fun g => !g.coveredBy s e) s = s2 at *
  generalize he2 : truncBack (seg.filter fun g => !g.coveredBy s e) e = e2 at *
  split
  · next hlt =>
    have hdata := length_pieceData (data := data) (hindex.trans hfront) (hback.trans hlen)
    have hstart : (BitVec.ofNat 64 s2).toNat = s2 := by rw [BitVec.toNat_ofNat, Nat.mod_eq_of_lt (by omega)]
    have hstop : (⟨BitVec.ofNat 64 s2, pieceData index data s2 e2⟩ : Seg).stop = e2 := by
      simp only [Seg.stop, hstart, hdata]
      omega
    refine ⟨hkept.insertSeg ?_ ?_ ?_ ?_, ?_⟩
    · exact List.ne_nil_of_length_pos (by rw [hdata]; omega)
    · rw [hstart]; omega
    · rw [hstop]; omega
    · intro g hg
      rw [hstart, hstop, ← hs2, ← he2]
      exact hkept.trunc_disjoint hg (by simpa using List.of_mem_filter hg)
    · intro g hg
      rcases mem_insertSeg.mp hg with rfl | hg
      · rw [hstop]; omega
      · exact hfit g (List.mem_of_mem_filter hg)
  · exact ⟨hkept, fun g hg => hfit g (List.mem_of_mem_filter hg)⟩

theorem SegsIn.mergePiece {lo hi index s e : Nat} {seg : List Seg} {data : List Byte} (h : SegsIn lo hi seg)
    (hfit : ∀ g ∈ seg, g.stop < 2 ^ 64) (hlo : lo ≤ s) (hindex : index ≤ s) (hhi : e ≤ hi)
    (hlen : e ≤ index + data.length) (he : e < 2 ^ 64) :
    SegsIn lo hi (mergePiece seg index data s e) ∧ ∀ g ∈ mergePiece seg index data s e, g.stop < 2 ^ 64 := by
  unfold Machine.mergePiece
  split
  · exact h.storePiece hfit hlo hindex hhi hlen he
  · exact ⟨h, hfit⟩

/-- R29: the window's end, `R.NEXT + F[1].REMAIN`, is `F[1].BR + R.CAP`. -/
theorem ReasmOk.funacc_eq {s : State} (h : ReasmOk s) (hf : FifoOk s.f1) : funacc s = s.f1.br.toNat + s.r.cap.toNat := by
  have hsize := hf.sizeLeCap
  have hbr := hf.brLeBw
  simp only [funacc, Fifo.remaining, Fifo.size, h.capEq, h.nextEq]
  omega

/-- What the delivery loop leaves of segments that meet R29 on the output of unit R, open or closed: the window's end is
where it was, what is stored meets R29 again, and nothing stored begins at the new `NEXT` (R156). -/
structure Delivered (f : Fifo) (hi : Nat) (seg : List Seg) (f' : Fifo) (next : Quad) : Prop where
  cap : f'.cap = f.cap
  br : f'.br = f.br
  nextEq : next = f'.bw
  segsIn : SegsIn next.toNat hi seg
  stopsFit : ∀ g ∈ seg, g.stop < 2 ^ 64
  noneAtNext : ∀ g ∈ seg, g.start ≠ next

/-- At most the first segment begins at `next`. -/
theorem SegsIn.dropWhile_start {next : Quad} {hi : Nat} {seg : List Seg} (h : SegsIn next.toNat hi seg) :
    SegsIn next.toNat hi (seg.dropWhile fun g => g.start = next) ∧
      ∀ g ∈ seg.dropWhile (fun g => g.start = next), g.start ≠ next := by
  cases seg with
  | nil => exact ⟨trivial, by simp⟩
  | cons g gs =>
    obtain ⟨hne, hlo, hhi, hgs⟩ := h
    have hg := Seg.start_lt_stop hne
    have hrest : ∀ x ∈ gs, x.start ≠ next := by
      rintro x hx rfl
      have hafter := (hgs.mem hx).2.1
      omega
    rw [List.dropWhile_cons]
    split
    · have hself : gs.dropWhile (fun g => g.start = next) = gs :=
        List.dropWhile_eq_self_iff.mpr fun hpos => by simpa using hrest _ (List.getElem_mem hpos)
      rw [hself]
      exact ⟨hgs.mono_lo (hlo.trans hg.le), hrest⟩
    · next hstart => exact ⟨⟨hne, hlo, hhi, hgs⟩, List.forall_mem_cons.mpr ⟨by simpa using hstart, hrest⟩⟩

/-- R156, on an output that is open or closed. -/
theorem deliver_delivered {seg rest : List Seg} {f f' : Fifo} {next next' : Quad} {hi : Nat}
    (hs : SegsIn next.toNat hi seg) (hfit : ∀ g ∈ seg, g.stop < 2 ^ 64) (hnext : next = f.bw)
    (hroom : hi ≤ f.bw.toNat + f.remaining) (hok : FifoOk f) (h : deliver seg f next = some (rest, f', next')) :
    Delivered f hi rest f' next' := by
  by_cases hended : f.inputEnded = true
  · rw [deliver_of_ended hended] at h
    cases h
    obtain ⟨hin, hnone⟩ := hs.dropWhile_start
    exact ⟨rfl, rfl, hnext, hin, fun g hg => hfit g ((List.dropWhile_sublist _).mem hg), hnone⟩
  · obtain ⟨data, rest', -, hlt, hdel, hin, hleft, -⟩ := deliver_spec hs hfit (by simpa using hended) hnext hroom hok
    rw [hdel] at h
    cases h
    have hnext' : (BitVec.ofNat 64 (next.toNat + data.length) : Quad).toNat = next.toNat + data.length := by
      rw [BitVec.toNat_ofNat, Nat.mod_eq_of_lt hlt]
    exact
      { cap := rfl
        br := rfl
        nextEq := by rw [fifoAppend_bw, hnext]
        segsIn := by rwa [hnext']
        stopsFit := fun g hg => hfit g (hleft g hg).1
        noneAtNext := fun g hg heq => (hleft g hg).2 (by rw [heq, hnext']) }

/-- R151 to R156: what a push leaves, whether it is dropped, stored or delivered. -/
theorem ReasmOk.pushData {s : State} {index : Quad} {data : List Byte} {seg : List Seg} {f : Fifo} {next : Quad}
    (h : ReasmOk s) (hf : FifoOk s.f1) (hfit : index.toNat + data.length < 2 ^ 64)
    (hp : pushData s index data = some (seg, f, next)) :
    Delivered s.f1 (s.f1.br.toNat + s.r.cap.toNat) seg f next := by
  obtain ⟨-, rfl, rfl, rfl⟩ | ⟨-, hdel⟩ := pushData_cases hp
  · exact ⟨rfl, rfl, h.nextEq, h.segsIn, h.stopsFit, h.noneAtNext⟩
  · have hwindow := h.funacc_eq hf
    obtain ⟨hin, hstops⟩ := h.segsIn.mergePiece (data := data) h.stopsFit (Nat.le_max_right index.toNat s.r.next.toNat)
      (Nat.le_max_left _ _) ((Nat.min_le_right (index.toNat + data.length) (funacc s)).trans_eq hwindow)
      (Nat.min_le_left _ _) ((Nat.min_le_left _ _).trans_lt hfit)
    exact deliver_delivered hin hstops h.nextEq (by rw [← hwindow, funacc, h.nextEq]) hf hdel

@[simp] theorem closeIfDone_cap (e : Bool) (seg : List Seg) (f : Fifo) : (closeIfDone e seg f).cap = f.cap := by
  rw [closeIfDone_eq]; split <;> rfl

@[simp] theorem closeIfDone_bw (e : Bool) (seg : List Seg) (f : Fifo) : (closeIfDone e seg f).bw = f.bw := by
  rw [closeIfDone_eq]; split <;> rfl

@[simp] theorem closeIfDone_br (e : Bool) (seg : List Seg) (f : Fifo) : (closeIfDone e seg f).br = f.br := by
  rw [closeIfDone_eq]; split <;> rfl

/-- R157: whatever a push left, step 7 completes the invariants of unit R. -/
theorem Delivered.reasmOk {s : State} {seg : List Seg} {f : Fifo} {next : Quad} (hcap : s.r.cap = s.f1.cap)
    (h : Delivered s.f1 (s.f1.br.toNat + s.r.cap.toNat) seg f next) (hasEof : Bool) :
    ReasmOk { s with
      r := { s.r with hasEof := hasEof, seg := seg, next := next }
      f1 := closeIfDone hasEof seg f } where
  capEq := by rw [closeIfDone_cap, h.cap]; exact hcap
  nextEq := by rw [closeIfDone_bw]; exact h.nextEq
  segsIn := by rw [closeIfDone_br, h.br]; exact h.segsIn
  stopsFit := h.stopsFit
  noneAtNext := h.noneAtNext
  closed := fun heof hseg => by
    rw [closeIfDone_eq, if_pos ⟨heof, hseg⟩]
    exact inputEnded_endInput f

/-- A pop of the output only moves the window's end on; its error flag is in no invariant of unit R. -/
theorem FifoCmd.reasmOk {s : State} {i : Instr} {f : Fifo} (h : FifoCmd i .f1 s.f1 f) (hf : FifoOk s.f1)
    (hok : ReasmOk s) : ReasmOk (s.setFifo .f1 f) := by
  cases h with
  | pop id n =>
    exact
      { capEq := hok.capEq
        nextEq := hok.nextEq
        segsIn := hok.segsIn.mono_hi (by rw [setFifo_f1_f1, hf.pop_br_toNat, setFifo_f1_r]; omega)
        stopsFit := hok.stopsFit
        noneAtNext := hok.noneAtNext
        closed := hok.closed }
  | setError id =>
    exact
      { capEq := hok.capEq
        nextEq := hok.nextEq
        segsIn := hok.segsIn
        stopsFit := hok.stopsFit
        noneAtNext := hok.noneAtNext
        closed := fun heof hseg => by rw [setFifo_f1_f1, inputEnded_setError]; exact hok.closed heof hseg }

/-- R29: every effect keeps the invariants of unit R. -/
theorem Effect.reasmOk {s u : State} {i : Instr} (h : Effect s i u) (hf : FifoOk s.f1) (hok : ReasmOk s) :
    ReasmOk u := by
  cases h with
  | unchanged => exact hok
  | fInit | tInit | timer | aInit | arp => exact hok.of_eq rfl rfl
  | sreset => exact .of_empty rfl rfl rfl rfl
  | @fifo _ id _ hcfg h =>
    cases id with
    | f0 => exact hok.of_eq rfl rfl
    | f1 => exact h.reasmOk hf hok
  | rInit => exact .of_empty rfl rfl rfl rfl
  | rPush eof hcfg hfit h => exact (hok.pushData hf hfit h).reasmOk hok.capEq _

/-! ## Configuration: capacities and reset values -/

/-- R22: after an INIT command its own unit is configured, and every other one that was. -/
theorem configured_init {s u : State} {w : CfgUnit} (h : u.cfgd = cfgdWith w s) (v : CfgUnit) :
    configured v u = true ↔ w = v ∨ configured v s = true := by
  rw [← configured_cfgdWith w v s u.cfgd h, configured, decide_eq_true_iff]

theorem configured_of_init {s u : State} {w v : CfgUnit} (h : u.cfgd = cfgdWith w s) (hne : w ≠ v)
    (hv : configured v u = true) : configured v s = true :=
  ((configured_init h v).mp hv).resolve_left hne

theorem not_configured_of_init {s u : State} {w v : CfgUnit} (h : u.cfgd = cfgdWith w s)
    (hv : configured v u = false) : w ≠ v ∧ configured v s = false := by
  rw [← Bool.not_eq_true, configured_init h, not_or, Bool.not_eq_true] at hv
  exact hv

theorem capBad_eq_false_iff (p : Params) (cap : Word) :
    capBad p cap = false ↔ cap ≠ 0#32 ∧ cap.toNat ≤ p.capMax.toNat := by
  simp [capBad]

/-- A write appends to the FIFO or leaves it; neither changes its capacity. -/
theorem write_cap {f f' : Fifo} {data : List Byte} {k : Nat} (h : f.write data = some (f', k)) : f'.cap = f.cap := by
  obtain ⟨-, rfl, -⟩ | ⟨-, -, -, rfl⟩ := write_cases h
  · rfl
  · rfl

theorem FifoCmd.cap {i : Instr} {id : FifoId} {f f' : Fifo} (h : FifoCmd i id f f') : f'.cap = f.cap := by
  cases h with
  | write hw => exact write_cap hw
  | pop | endInput | setError => rfl

/-- R128, R159: only an INIT sets a capacity, and it checks it. -/
theorem Effect.capsOk {s u : State} {i : Instr} (h : Effect s i u) (hf : FifoOk s.f1) (hr : ReasmOk s)
    (hok : CapsOk s) : CapsOk u := by
  obtain ⟨hcap0, hcap1⟩ := hok
  cases h with
  | unchanged | timer | arp => exact ⟨hcap0, hcap1⟩
  | sreset => simp [CapsOk, configured]
  | fInit hcap =>
    exact ⟨fun _ => (capBad_eq_false_iff _ _).mp hcap, fun hc => hcap1 (configured_of_init rfl (by decide) hc)⟩
  | @fifo _ id _ hcfg h =>
    cases id with
    | f0 => exact ⟨fun hc => h.cap.symm ▸ hcap0 hc, hcap1⟩
    | f1 => exact ⟨hcap0, fun hc => h.cap.symm ▸ hcap1 hc⟩
  | rInit hcap =>
    exact ⟨fun hc => hcap0 (configured_of_init rfl (by decide) hc), fun _ => (capBad_eq_false_iff _ _).mp hcap⟩
  | rPush eof hcfg hfit h =>
    refine ⟨hcap0, fun hc => ?_⟩
    rw [closeIfDone_cap, (hr.pushData hf hfit h).cap]
    exact hcap1 hc
  | tInit | aInit =>
    exact ⟨fun hc => hcap0 (configured_of_init rfl (by decide) hc),
      fun hc => hcap1 (configured_of_init rfl (by decide) hc)⟩

/-- An INIT command configures its own unit and leaves the others as they were. -/
theorem RestOk.init {s u : State} {w : CfgUnit} (h : RestOk s) (hcfgd : u.cfgd = cfgdWith w s)
    (hf0 : w ≠ .fifo0 → u.f0 = s.f0) (hr : w ≠ .reasm → u.f1 = s.f1 ∧ u.r = s.r) (ht : w ≠ .timer → u.t = s.t)
    (ha : w ≠ .arp → u.a = s.a) : RestOk u := by
  obtain ⟨hfifo0, hreasm, htimer, harp⟩ := h
  refine ⟨fun hc => ?_, fun hc => ?_, fun hc => ?_, fun hc => ?_⟩ <;>
    obtain ⟨hne, hs⟩ := not_configured_of_init hcfgd hc
  · rw [hf0 hne, hfifo0 hs]
  · rw [(hr hne).1, (hr hne).2]
    exact hreasm hs
  · rw [ht hne, htimer hs]
  · rw [ha hne, harp hs]

/-- A configured unit is under no obligation to hold its reset values. -/
theorem of_not_configured {s : State} {v : CfgUnit} {p : Prop} (ht : configured v s = true)
    (hf : configured v s = false) : p :=
  absurd (ht.symm.trans hf) (by decide)

/-- R272, R321: a command changes a unit only when the unit is configured, but for the INIT that configures it. -/
theorem Effect.restOk {s u : State} {i : Instr} (h : Effect s i u) (hok : RestOk s) : RestOk u := by
  obtain ⟨hfifo0, hreasm, htimer, harp⟩ := id hok
  cases h with
  | unchanged => exact hok
  | sreset => exact ⟨fun _ => rfl, fun _ => ⟨rfl, rfl⟩, fun _ => rfl, fun _ => rfl⟩
  | fInit => exact hok.init rfl (absurd rfl) (fun _ => ⟨rfl, rfl⟩) (fun _ => rfl) (fun _ => rfl)
  | @fifo _ id _ hcfg h =>
    cases id with
    | f0 => exact ⟨of_not_configured hcfg, hreasm, htimer, harp⟩
    | f1 => exact ⟨hfifo0, of_not_configured hcfg, htimer, harp⟩
  | rInit => exact hok.init rfl (fun _ => rfl) (absurd rfl) (fun _ => rfl) (fun _ => rfl)
  | rPush eof hcfg => exact ⟨hfifo0, of_not_configured hcfg, htimer, harp⟩
  | tInit => exact hok.init rfl (fun _ => rfl) (fun _ => ⟨rfl, rfl⟩) (absurd rfl) (fun _ => rfl)
  | timer hcfg => exact ⟨hfifo0, hreasm, of_not_configured hcfg, harp⟩
  | aInit => exact hok.init rfl (fun _ => rfl) (fun _ => ⟨rfl, rfl⟩) (fun _ => rfl) (absurd rfl)
  | arp hcfg => exact ⟨hfifo0, hreasm, htimer, of_not_configured hcfg⟩

/-! ## Steps -/

/-- What the decoder builds from a payload that fits `LEN` is a command (R72, R79). -/
theorem wellFormed_of_buildInstr {opcode : BitVec 8} {inst flags : BitVec 4} {len : BitVec 16} {ops : List Word}
    {data : List Byte} {i : Instr} (hfit : data.length < 65536) (h : buildInstr opcode inst flags len ops data = some i) :
    i.wellFormed = true := by
  unfold buildInstr at h
  split at h <;> cases h <;> simp [Instr.wellFormed, lenFits, hfit]

theorem length_unpack_le (len : Nat) (ws : List Word) : (unpack len ws).length ≤ len :=
  List.length_take_le _ _

/-- A frame that decodes is a command: its payload is no longer than its `LEN`. -/
theorem wellFormed_of_decode {fr : Frame} {i : Instr} (h : decode fr = .ok i) : i.wellFormed = true := by
  obtain ⟨row, -, -, -, hbuild⟩ := decode_ok_cases h
  refine wellFormed_of_buildInstr ?_ hbuild
  have hlen := (hdrLen fr.header).isLt
  split
  · exact (length_unpack_le _ _).trans_lt hlen
  · simp

/-- The induction step of every invariant: what the ports do not show and every effect of a well-formed command keeps,
every step keeps. -/
theorem step_keeps {P : State → Prop}
    (hports : ∀ (s : State) (xs : List Input) (out : List Frame), P s → P { s with port := xs, rsp := out })
    (heff : ∀ (s u : State) (i : Instr), P s → i.wellFormed = true → Effect s i u → P u) {s : State} (hs : P s) :
    ∃ t, step s = .next t ∧ P t := by
  unfold step
  cases hport : s.port with
  | nil =>
    rw [takeInput_of_nil hport]
    exact ⟨s, rfl, hs⟩
  | cons x xs =>
    rw [takeInput_of_cons hport]
    have hs' : P { s with port := xs } := hports s xs s.rsp hs
    cases x with
    | reset => exact ⟨_, rfl, heff _ _ .sreset hs' rfl .sreset⟩
    | command fr =>
      dsimp only
      split
      · next i hdec =>
        obtain ⟨u, out, hexec, hu⟩ := exec_answers i { s with port := xs }
        exact ⟨_, hexec, hports u u.port _ (heff _ _ i hs' (wellFormed_of_decode hdec) hu)⟩
      · exact ⟨_, rfl, hports _ xs _ hs'⟩

/-! ## Safety -/

theorem Safe.ports {s : State} (h : Safe s) (xs : List Input) (out : List Frame) :
    Safe { s with port := xs, rsp := out } where
  legal := h.legal
  fifo0 := h.fifo0
  fifo1 := h.fifo1
  reasm := h.reasm.of_eq rfl rfl
  timer := h.timer
  arp := h.arp
  caps := h.caps
  rest := h.rest

theorem Effect.safe {s u : State} {i : Instr} (h : Effect s i u) (hw : i.wellFormed = true) (hs : Safe s) : Safe u where
  legal := h.params ▸ hs.legal
  fifo0 := (h.fifosOk hs.fifo0 hs.fifo1).1
  fifo1 := (h.fifosOk hs.fifo0 hs.fifo1).2
  reasm := h.reasmOk hs.fifo1 hs.reasm
  timer := h.timerOk hs.timer
  arp := h.arpOk hw hs.arp
  caps := h.capsOk hs.fifo1 hs.reasm hs.caps
  rest := h.restOk hs.rest

/-- Settles O57: every effect of a well-formed command keeps each part of safety, and a step decodes only such commands. -/
theorem stepKeepsSafety : Obligations.StepKeepsSafety := by
  unfold Obligations.StepKeepsSafety
  exact fun s hs => step_keeps (fun s xs out h => h.ports xs out) (fun s u i h hw heff => heff.safe hw h) hs

end Sys2Proof.Machine

/-! # The circular buffer as a queue, and RDREG

Runs of reads in two parts and behind a run of writes (R54, R124), the FIFO's contents after each of its operations
(R52, R126, R135), and the register ids of R272. -/

namespace Sys2Proof.Machine

/-! ## Runs of reads -/

/-- A run of reads in two parts. -/
theorem memReadRun_add (m : List Host.Cell) (cap start a b : Nat) :
    memReadRun m cap start (a + b) = memReadRun m cap start a ++ memReadRun m cap (start + a) b := by
  simp [memReadRun_eq_map, List.range_add, Nat.add_assoc]

/-- A run of reads that starts at a cell of the memory or any number of turns on. -/
theorem memReadRun_mod (m : List Host.Cell) (cap start k : Nat) :
    memReadRun m cap (start % cap) k = memReadRun m cap start k := by
  simp [memReadRun_eq_map]

/-- A run of writes no longer than `cap` is read back whole. -/
theorem memReadRun_memWriteRun_same {m : List Host.Cell} {cap start : Nat} {bs : List Byte} (h : Mem.wf m = true)
    (hlen : bs.length ≤ cap) : memReadRun (memWriteRun m cap start bs) cap start bs.length = bs := by
  refine List.ext_getElem (by simp) fun j hj hj' => ?_
  rw [getElem_memReadRun, memRead_memWriteRun_same h hlen hj']

/-- Bytes written behind a run of reads, without reaching round to its start, leave it as it was. -/
theorem memReadRun_memWriteRun_after {m : List Host.Cell} {cap start k : Nat} {bs : List Byte} (h : Mem.wf m = true)
    (hfit : k + bs.length ≤ cap) :
    memReadRun (memWriteRun m cap (start + k) bs) cap start k = memReadRun m cap start k := by
  refine List.ext_getElem (by simp) fun j hj _ => ?_
  have hjk : j < k := by simpa using hj
  rw [getElem_memReadRun, getElem_memReadRun, memRead_memWriteRun_other h]
  intro i hi
  rw [Nat.add_assoc]
  exact run_cells_ne (by omega) (by omega)

/-! ## The contents of a FIFO -/

theorem cap_toNat_pos {f : Fifo} (h : f.cap ≠ 0#32) : 0 < f.cap.toNat :=
  Nat.pos_of_ne_zero fun h0 => h (BitVec.eq_of_toNat_eq (by simpa using h0))

/-- R124: a peek shows the oldest bytes. -/
theorem peek_eq_take (f : Fifo) (n : Nat) : f.peek n = f.contents.take n :=
  (take_memReadRun ..).symm

theorem FifoOk.size_le_cap {f : Fifo} (h : FifoOk f) : f.size ≤ f.cap.toNat := h.sizeLeCap

/-- A FIFO without capacity holds nothing. -/
theorem FifoOk.size_of_cap_zero {f : Fifo} (h : FifoOk f) (hc : f.cap = 0#32) : f.size = 0 := by
  simpa [hc] using h.size_le_cap

/-- R27: the cell the next byte goes to is the one behind the window. -/
theorem FifoOk.wp_eq {f : Fifo} (h : FifoOk f) (hc : f.cap ≠ 0#32) :
    f.wp.toNat = (f.rp.toNat + f.size) % f.cap.toNat := by
  have hbr := h.brLeBw
  have hbw : f.br.toNat + f.size = f.bw.toNat := by simp only [Fifo.size]; omega
  rw [h.wpEq hc, h.rpEq hc, Nat.mod_add_mod, hbw]

theorem FifoOk.pop_size {f : Fifo} (h : FifoOk f) (n : Nat) : (f.pop n).size = f.size - f.popCount n := by
  have hbr := h.pop_br_toNat n
  simp only [Fifo.size, fifoPop_bw] at *
  omega

theorem pop_rp_toNat {f : Fifo} (hc : f.cap ≠ 0#32) (n : Nat) :
    (f.pop n).rp.toNat = (f.rp.toNat + f.popCount n) % f.cap.toNat := by
  have hlt := Nat.mod_lt (f.rp.toNat + f.popCount n) (cap_toNat_pos hc)
  have hcap := f.cap.isLt
  rw [fifoPop_rp, BitVec.toNat_ofNat, Nat.mod_eq_of_lt (by omega)]

/-- R125, R126: a pop takes the oldest bytes from the front. -/
theorem FifoOk.contents_pop {f : Fifo} (h : FifoOk f) (n : Nat) : (f.pop n).contents = f.contents.drop n := by
  have hdrop : f.contents.drop n = f.contents.drop (f.popCount n) := by
    rw [Fifo.popCount, ← length_contents, Nat.min_def]
    split
    · rfl
    · next hn => rw [List.drop_length, List.drop_eq_nil_of_le (by omega)]
  by_cases hc : f.cap = 0#32
  · have hsize := h.size_of_cap_zero hc
    have hnil : f.contents = [] := List.length_eq_zero_iff.mp (by simpa using hsize)
    rw [hnil, List.drop_nil, List.eq_nil_iff_length_eq_zero, length_contents, h.pop_size, hsize, Nat.zero_sub]
  · have hsplit : f.contents =
        memReadRun f.mem f.cap.toNat f.rp.toNat (f.popCount n) ++ (f.pop n).contents := by
      rw [Fifo.contents, Fifo.contents, pop_rp_toNat hc, h.pop_size, fifoPop_mem, fifoPop_cap, memReadRun_mod,
        ← memReadRun_add, Nat.add_sub_cancel' (popCount_le_size f n)]
    rw [hdrop, hsplit, List.drop_left' (length_memReadRun ..)]

/-- R123, R126: an append for which there is room adds its bytes at the back. -/
theorem FifoOk.contents_append {f : Fifo} (h : FifoOk f) {data : List Byte} {k : Nat} (hlen : k ≤ data.length)
    (hk : k ≤ f.remaining) (hb : f.bw.toNat + k < 2 ^ 64) :
    (f.append data k).contents = f.contents ++ data.take k := by
  have hsizeCap := h.size_le_cap
  have htake : (data.take k).length = k := List.length_take_of_le hlen
  by_cases hc : f.cap = 0#32
  · obtain rfl : k = 0 := by simpa [Fifo.remaining, hc] using hk
    simp [append_zero h]
  · have hsize : (f.append data k).size = f.size + k := by
      have hbr := h.brLeBw
      simp only [Fifo.size, append_bw_toNat hb, fifoAppend_br]
      omega
    have hfit : f.size + (data.take k).length ≤ f.cap.toNat := by
      rw [htake]
      simp only [Fifo.remaining] at hk
      omega
    have hnew : memReadRun (memWriteRun f.mem f.cap.toNat (f.rp.toNat + f.size) (data.take k)) f.cap.toNat
        (f.rp.toNat + f.size) k = data.take k := by
      have hback := memReadRun_memWriteRun_same (start := f.rp.toNat + f.size) h.memWf
        ((Nat.le_add_left (data.take k).length f.size).trans hfit)
      rwa [htake] at hback
    rw [Fifo.contents, hsize, fifoAppend_mem, fifoAppend_cap, fifoAppend_rp, h.wp_eq hc, memWriteRun_mod,
      memReadRun_add, memReadRun_memWriteRun_after h.memWf hfit, hnew, Fifo.contents]

/-- R123, R135: an accepted write adds the bytes it counts at the back, none when the input has ended. -/
theorem FifoOk.contents_write {f f' : Fifo} {data : List Byte} {k : Nat} (h : FifoOk f)
    (hw : f.write data = some (f', k)) : f'.contents = f.contents ++ data.take k := by
  obtain ⟨-, rfl, rfl⟩ | ⟨-, rfl, hfit, rfl⟩ := write_cases hw
  · simp
  · exact h.contents_append (Nat.min_le_left _ _) (Nat.min_le_right _ _) hfit

/-- R123: how many bytes a write counts. -/
theorem write_count {f f' : Fifo} {data : List Byte} {k : Nat} (hw : f.write data = some (f', k)) :
    k = if f.inputEnded then 0 else min data.length f.remaining := by
  obtain ⟨hended, -, rfl⟩ | ⟨hopen, rfl, -, -⟩ := write_cases hw
  · simp [hended]
  · simp [hopen]

/-- Settles O23: the contents after each operation, from the cells it reads and writes. -/
theorem circularBufferIsAQueue : Obligations.CircularBufferIsAQueue := by
  unfold Obligations.CircularBufferIsAQueue
  intro f h
  refine ⟨length_contents f, peek_eq_take f, fun n => ⟨h.pop n, h.contents_pop n⟩, fun data f' k hw => ?_⟩
  refine ⟨h.write hw, h.contents_write hw, ?_⟩
  rw [length_contents]
  exact write_count hw

/-! ## RDREG -/

/-- The registers of a bank with their ids (R22). -/
def bankWithIds (s : State) (unit inst : Nat) : List (BitVec 16 × Quad) :=
  (regBank s unit inst).mapIdx fun k q => (BitVec.ofNat 16 (unit * 4096 + inst * 256 + k), q)

/-- No bank uses the whole of the index byte. -/
theorem length_regBank_le (s : State) (unit inst : Nat) : (regBank s unit inst).length ≤ 16 := by
  unfold regBank
  split <;> simp [sysRegs, fifoRegs, reasmRegs, timerRegs, arpRegs]

/-- R22: RDREG's id is a bank's number, in two digits, and an index into the bank. -/
theorem readReg_eq (s : State) (id : BitVec 16) :
    readReg s id = (regBank s (id.toNat / 4096) (id.toNat / 256 % 16))[id.toNat % 256]? := by
  have hlt := id.isLt
  have hunit : id.toNat / 4096 % 16 = id.toNat / 4096 := by omega
  simp [readReg, BitVec.extractLsb'_toNat, Nat.shiftRight_eq_div_pow, hunit]

/-- A register of a bank is read at its id. -/
theorem readReg_of_mem_bankWithIds {s : State} {unit inst : Nat} (hunit : unit < 16) (hinst : inst < 16)
    {id : BitVec 16} {q : Quad} (h : (id, q) ∈ bankWithIds s unit inst) : readReg s id = some q := by
  have hlen := length_regBank_le s unit inst
  obtain ⟨k, hk, heq⟩ := List.mem_mapIdx.mp h
  obtain ⟨rfl, rfl⟩ := Prod.mk.inj heq
  have hid : (BitVec.ofNat 16 (unit * 4096 + inst * 256 + k)).toNat = unit * 4096 + inst * 256 + k := by
    rw [BitVec.toNat_ofNat, Nat.mod_eq_of_lt (by omega)]
  rw [readReg_eq, hid, show (unit * 4096 + inst * 256 + k) / 4096 = unit by omega,
    show (unit * 4096 + inst * 256 + k) / 256 % 16 = inst by omega,
    show (unit * 4096 + inst * 256 + k) % 256 = k by omega, List.getElem?_eq_getElem hk]

theorem unasm_eq_sum (seg : List Seg) : unasm seg = (seg.map fun g => g.data.length).sum := by
  induction seg with
  | nil => rfl
  | cons g gs ih => simp [unasm, ih]

theorem headAbs_toNat (t : Timer) : (headAbs t).toNat = (t.outq.map fun d => d.absSeqno.toNat).headD 0 := by
  unfold headAbs
  cases t.outq <;> rfl

theorem headLen_toNat (t : Timer) : (headLen t).toNat = (t.outq.map fun d => d.len.toNat).headD 0 := by
  unfold headLen
  cases t.outq <;> rfl

/-- A truth value as a register's number. -/
theorem toNat_bool (b : Bool) : b.toNat = if b = true then 1 else 0 := by
  cases b <;> rfl

/-- The tables of spec/10_state.md are the banks of RDREG, one after the other. -/
theorem listedRegisters_eq (s : State) :
    (listedRegisters s).map (fun p => (p.1, BitVec.ofNat 64 p.2)) =
      bankWithIds s 0 0 ++ bankWithIds s 2 0 ++ bankWithIds s 2 1 ++ bankWithIds s 3 0 ++ bankWithIds s 4 0 ++
        bankWithIds s 5 0 := by
  simp only [listedRegisters, bankWithIds, regBank, sysRegs, fifoRegs, reasmRegs, timerRegs, arpRegs, q64, List.map_cons,
    List.map_nil, List.mapIdx_cons, List.mapIdx_nil, List.cons_append, List.nil_append, ← unasm_eq_sum,
    ← headAbs_toNat, ← headLen_toNat, BitVec.ofNat_toNat, BitVec.setWidth_eq, retxExceeded, funacc, usable,
    Fifo.remaining, Fifo.size, Fifo.eof, Fifo.inputEnded, toNat_bool, Bool.and_eq_true, beq_iff_eq,
    decide_eq_true_eq, List.isEmpty_iff]
  rfl

/-- R272: the ids outside the banks. -/
theorem readReg_eq_none {s : State} {id : BitVec 16}
    (h : ¬ (id.toNat ≤ 0x0006 ∨ (0x2000 ≤ id.toNat ∧ id.toNat ≤ 0x2009) ∨ (0x2100 ≤ id.toNat ∧ id.toNat ≤ 0x2109) ∨
       (0x3000 ≤ id.toNat ∧ id.toNat ≤ 0x3006) ∨ (0x4000 ≤ id.toNat ∧ id.toNat ≤ 0x400F) ∨
       (0x5000 ≤ id.toNat ∧ id.toNat ≤ 0x5005))) : readReg s id = none := by
  rw [readReg_eq, List.getElem?_eq_none_iff]
  unfold regBank
  split <;>
    simp only [sysRegs, fifoRegs, reasmRegs, timerRegs, arpRegs, List.length_cons, List.length_nil] <;> omega

/-- R272: every listed register reads as its number, modulo `2^64`. -/
theorem readReg_of_mem_listedRegisters {s : State} {p : BitVec 16 × Nat} (hp : p ∈ listedRegisters s) :
    readReg s p.1 = some (BitVec.ofNat 64 p.2) := by
  have hmem := List.mem_map_of_mem (f := fun p : BitVec 16 × Nat => (p.1, BitVec.ofNat 64 p.2)) hp
  rw [listedRegisters_eq] at hmem
  simp only [List.mem_append, or_assoc] at hmem
  rcases hmem with hsys | hf0 | hf1 | hr | htimer | harp
  · exact readReg_of_mem_bankWithIds (by decide) (by decide) hsys
  · exact readReg_of_mem_bankWithIds (by decide) (by decide) hf0
  · exact readReg_of_mem_bankWithIds (by decide) (by decide) hf1
  · exact readReg_of_mem_bankWithIds (by decide) (by decide) hr
  · exact readReg_of_mem_bankWithIds (by decide) (by decide) htimer
  · exact readReg_of_mem_bankWithIds (by decide) (by decide) harp

/-- R12: the low word and the high word of a number modulo `2^64`. -/
theorem quadWords_ofNat (n : Nat) :
    quadWords (BitVec.ofNat 64 n) = [BitVec.ofNat 32 n, BitVec.ofNat 32 (n / 2 ^ 32)] := by
  simp only [quadWords, List.cons.injEq, and_true, BitVec.toNat_inj.symm, BitVec.extractLsb'_toNat, BitVec.toNat_ofNat,
    Nat.shiftRight_eq_div_pow]
  omega

/-- Settles O11: a listed id selects a register of a bank, and any other id none. -/
theorem rdregReadsEveryListedRegister : Obligations.RdregReadsEveryListedRegister := by
  unfold Obligations.RdregReadsEveryListedRegister
  refine ⟨fun s p hp => ?_, fun s id hid => ?_⟩
  · simp only [exec, execRdreg, readReg_of_mem_listedRegisters hp, quadWords_ofNat, complete_eq, okFrame, pack,
      List.append_nil, List.length_nil, Instr.opcode]
    rw [show respHeader 0x01#8 .ok 0 = 0x01000000#32 by decide]
  · simp only [exec, execRdreg, readReg_eq_none hid, refuse_eq, refusalFrame, Instr.opcode]
    rw [show respHeader 0x01#8 .errArg 0 = 0x01030000#32 by decide]

end Sys2Proof.Machine

/-! # What every step keeps, unit by unit

The inversion of `step`, and from it the invariants R27, R29, R32 and R34 as statements about one step. -/

namespace Sys2Proof.Machine

/-- Everything a step can do: at most one input leaves the command port, a well-formed command has one of its effects,
and the response port is written. Waiting and the refusal of an illegal frame are the effect of NOP, the reset signal
is that of SRESET (R320). -/
theorem step_next_cases {s t : State} (h : step s = .next t) :
    ∃ (xs : List Input) (i : Instr) (u : State) (out : List Frame),
      i.wellFormed = true ∧ Effect { s with port := xs } i u ∧ t = { u with rsp := out } := by
  unfold step at h
  cases hport : s.port with
  | nil =>
    rw [takeInput_of_nil hport] at h
    cases h
    exact ⟨s.port, .nop, s, s.rsp, rfl, .unchanged _, rfl⟩
  | cons x xs =>
    rw [takeInput_of_cons hport] at h
    cases x with
    | reset =>
      cases h
      exact ⟨xs, .sreset, _, _, rfl, .sreset, rfl⟩
    | command fr =>
      dsimp only at h
      split at h
      · next i hdec =>
        obtain ⟨u, out, rfl, heff⟩ := exec_next_cases h
        exact ⟨xs, i, u, _, wellFormed_of_decode hdec, heff, rfl⟩
      · cases h
        exact ⟨xs, .nop, _, _, rfl, .unchanged _, rfl⟩

/-- Settles O52. -/
theorem stepKeepsFifoInvariant : Obligations.StepKeepsFifoInvariant := by
  unfold Obligations.StepKeepsFifoInvariant
  intro s t h0 h1 h
  obtain ⟨xs, i, u, out, -, heff, rfl⟩ := step_next_cases h
  exact heff.fifosOk h0 h1

/-- Settles O53: the ports are in no invariant of unit R, and every effect keeps them. -/
theorem stepKeepsReassemblerInvariant : Obligations.StepKeepsReassemblerInvariant := by
  unfold Obligations.StepKeepsReassemblerInvariant
  intro s t h1 hr h
  obtain ⟨xs, i, u, out, -, heff, rfl⟩ := step_next_cases h
  exact (heff.reasmOk h1 (hr.of_eq rfl rfl)).of_eq rfl rfl

/-- A stored segment holds at least one byte (R29). -/
theorem SegsIn.length_le_unasm {lo hi : Nat} {seg : List Seg} (h : SegsIn lo hi seg) : seg.length ≤ unasm seg := by
  induction seg generalizing lo with
  | nil => exact Nat.zero_le _
  | cons g gs ih =>
    obtain ⟨hne, -, -, hgs⟩ := h
    have hpos := List.length_pos_iff.mpr hne
    have hrest := ih hgs
    simp only [List.length_cons, unasm]
    omega

/-- Settles O54: the segments are disjoint inside `[NEXT, BR + CAP)`, and `NEXT` is `BW`. -/
theorem storedBytesFitTheCapacity : Obligations.StoredBytesFitTheCapacity := by
  unfold Obligations.StoredBytesFitTheCapacity
  intro s hf hr
  refine ⟨?_, hr.segsIn.length_le_unasm⟩
  have hsize : s.f1.bw.toNat - s.f1.br.toNat ≤ s.r.cap.toNat := hr.capEq ▸ hf.sizeLeCap
  have hnext : s.r.next.toNat = s.f1.bw.toNat := congrArg BitVec.toNat hr.nextEq
  have hbr := hf.brLeBw
  have hstored := hr.segsIn.unasm_le (by omega)
  omega

/-- Settles O55. -/
theorem stepKeepsTimerInvariant : Obligations.StepKeepsTimerInvariant := by
  unfold Obligations.StepKeepsTimerInvariant
  intro s t ht h
  obtain ⟨xs, i, u, out, -, heff, rfl⟩ := step_next_cases h
  exact heff.timerOk ht

/-- Settles O56: a step decodes only commands whose datagram fits `LEN`. -/
theorem stepKeepsArpInvariant : Obligations.StepKeepsArpInvariant := by
  unfold Obligations.StepKeepsArpInvariant
  intro s t ha h
  obtain ⟨xs, i, u, out, hw, heff, rfl⟩ := step_next_cases h
  exact heff.arpOk hw ha

end Sys2Proof.Machine

/-! # Noninterference of the unused cells

Two runs side by side: FIFOs that hold one queue in memories that may differ outside the window (R27, U1) answer alike
and go on holding one queue. A command of another unit does not look at a FIFO at all. -/

namespace Sys2Proof.Machine

/-! ## One queue in two memories -/

/-- Two FIFOs that meet R27 and differ at most in cells outside the window. -/
structure SameQueue (f g : Fifo) : Prop where
  left : FifoOk f
  right : FifoOk g
  window : SameWindow f g

theorem SameWindow.refl (f : Fifo) : SameWindow f f := ⟨rfl, rfl, rfl, rfl, rfl, rfl, rfl⟩

/-- Only the memory can differ. -/
theorem SameWindow.eq_with_mem {f g : Fifo} (h : SameWindow f g) : g = { f with mem := g.mem } := by
  obtain ⟨hcap, hbw, hbr, hwp, hrp, hflags, -⟩ := h
  simp only [hcap, hbw, hbr, hwp, hrp, hflags]

theorem SameWindow.size_eq {f g : Fifo} (h : SameWindow f g) : f.size = g.size := by
  rw [Fifo.size, Fifo.size, h.bw, h.br]

theorem SameWindow.remaining_eq {f g : Fifo} (h : SameWindow f g) : f.remaining = g.remaining := by
  rw [Fifo.remaining, Fifo.remaining, h.cap, h.size_eq]

theorem SameWindow.popCount_eq {f g : Fifo} (h : SameWindow f g) (n : Nat) : f.popCount n = g.popCount n := by
  rw [Fifo.popCount, Fifo.popCount, h.size_eq]

theorem SameWindow.inputEnded_eq {f g : Fifo} (h : SameWindow f g) : f.inputEnded = g.inputEnded := by
  rw [Fifo.inputEnded, Fifo.inputEnded, h.flags]

/-- R124: a peek shows the window only. -/
theorem SameWindow.peek_eq {f g : Fifo} (h : SameWindow f g) (n : Nat) : f.peek n = g.peek n := by
  rw [peek_eq_take, peek_eq_take, h.contents]

theorem SameWindow.endInput {f g : Fifo} (h : SameWindow f g) : SameWindow f.endInput g.endInput :=
  ⟨h.cap, h.bw, h.br, h.wp, h.rp, by simp [h.flags], h.contents⟩

theorem SameWindow.setError {f g : Fifo} (h : SameWindow f g) : SameWindow f.setError g.setError :=
  ⟨h.cap, h.bw, h.br, h.wp, h.rp, by simp [h.flags], h.contents⟩

/-- R128, R159: the window of a FIFO just created is empty, whatever its memory holds. -/
theorem SameWindow.init (f g : Fifo) (cap : Word) : SameWindow (f.init cap) (g.init cap) :=
  ⟨rfl, rfl, rfl, rfl, rfl, rfl, rfl⟩

/-- R125: a pop moves the window on in both memories. -/
theorem SameQueue.pop {f g : Fifo} (h : SameQueue f g) (n : Nat) : SameWindow (f.pop n) (g.pop n) where
  cap := h.window.cap
  bw := h.window.bw
  br := by rw [fifoPop_br, fifoPop_br, h.window.br, h.window.popCount_eq]
  wp := h.window.wp
  rp := by rw [fifoPop_rp, fifoPop_rp, h.window.rp, h.window.cap, h.window.popCount_eq]
  flags := h.window.flags
  contents := by rw [h.left.contents_pop, h.right.contents_pop, h.window.contents]

/-- R123: a write that one of the two accepts, the other accepts with the same count, and they stay one queue. -/
theorem SameQueue.write {f g f' : Fifo} (h : SameQueue f g) {data : List Byte} {k : Nat}
    (hw : f.write data = some (f', k)) : ∃ g', g.write data = some (g', k) ∧ SameQueue f' g' := by
  have hwindow := h.window
  obtain ⟨hended, rfl, rfl⟩ | ⟨hopen, rfl, hfit, rfl⟩ := write_cases hw
  · exact ⟨g, by simp [Fifo.write, ← hwindow.inputEnded_eq, hended], h⟩
  · have hw' : g.write data = some (g.append data (min data.length f.remaining), min data.length f.remaining) := by
      simp only [Fifo.write, ← hwindow.inputEnded_eq, hopen, ← hwindow.remaining_eq, ← hwindow.bw]
      simpa using hfit
    refine ⟨_, hw', h.left.write hw, h.right.write hw', ?_⟩
    exact
      { cap := hwindow.cap
        bw := by rw [fifoAppend_bw, fifoAppend_bw, hwindow.bw]
        br := hwindow.br
        wp := by rw [fifoAppend_wp, fifoAppend_wp, hwindow.wp, hwindow.cap]
        rp := hwindow.rp
        flags := hwindow.flags
        contents := by rw [h.left.contents_write hw, h.right.contents_write hw', hwindow.contents] }

/-- R122: the guard of a write looks at the counters only. -/
theorem SameWindow.write_eq_none {f g : Fifo} (h : SameWindow f g) {data : List Byte} (hw : f.write data = none) :
    g.write data = none := by
  rw [write_eq_none_iff] at hw ⊢
  rwa [← h.inputEnded_eq, ← h.bw, ← h.remaining_eq]

/-! ## Delivery -/

/-- Two results of a delivery: both refused, or the same segments left, the same `NEXT`, and one queue. -/
inductive DeliverAlike : Option (List Seg × Fifo × Quad) → Option (List Seg × Fifo × Quad) → Prop
  | refused : DeliverAlike none none
  | delivered (seg : List Seg) {f g : Fifo} (next : Quad) (h : SameWindow f g) :
      DeliverAlike (some (seg, f, next)) (some (seg, g, next))

/-- R156: the loop writes the same bytes to both outputs. -/
theorem SameQueue.deliver {f g : Fifo} (h : SameQueue f g) (seg : List Seg) (next : Quad) :
    DeliverAlike (deliver seg f next) (deliver seg g next) := by
  induction seg generalizing f g next with
  | nil => exact .delivered [] next h.window
  | cons x xs ih =>
    unfold Machine.deliver
    split
    · cases hw : f.write x.data with
      | none =>
        rw [h.window.write_eq_none hw]
        exact .refused
      | some w =>
        obtain ⟨f', k⟩ := w
        obtain ⟨g', hw', h'⟩ := h.write hw
        rw [hw']
        exact ih h' _
    · exact .delivered _ next h.window

/-- R157: both outputs are closed, or neither. -/
theorem SameWindow.closeIfDone {f g : Fifo} (h : SameWindow f g) (hasEof : Bool) (seg : List Seg) :
    SameWindow (Machine.closeIfDone hasEof seg f) (Machine.closeIfDone hasEof seg g) := by
  rw [closeIfDone_eq, closeIfDone_eq]
  split
  · exact h.endInput
  · exact h

/-! ## States side by side -/

/-- `s` with other bytes in the two memories. -/
def State.withMems (s : State) (m0 m1 : List Host.Cell) : State :=
  { s with f0 := { s.f0 with mem := m0 }, f1 := { s.f1 with mem := m1 } }

theorem SameButUnusedCells.refl (s : State) : SameButUnusedCells s s :=
  ⟨rfl, rfl, rfl, rfl, .refl _, .refl _, rfl, rfl, rfl⟩

/-- Only the memories can differ. -/
theorem SameButUnusedCells.eq_withMems {s u : State} (h : SameButUnusedCells s u) :
    u = s.withMems u.f0.mem u.f1.mem := by
  obtain ⟨hport, hrsp, hparams, hcfgd, h0, h1, hr, ht, ha⟩ := h
  simp only [State.withMems, hport, hrsp, hparams, hcfgd, ← h0.eq_with_mem, ← h1.eq_with_mem, hr, ht, ha]

/-- Both outcomes are next states, and these differ at most in unused cells: so the responses are the same. -/
def Alike (o o' : Host.Outcome State Fault Refusal) : Prop :=
  ∃ v v' : State, o = .next v ∧ o' = .next v' ∧ SameButUnusedCells v v'

theorem SameButUnusedCells.respond {s u : State} (h : SameButUnusedCells s u) (fr : Frame) :
    SameButUnusedCells (s.respond fr) (u.respond fr) :=
  ⟨h.port, by simp [h.rsp], h.params, h.cfgd, h.f0, h.f1, h.r, h.t, h.a⟩

theorem SameButUnusedCells.refuse {s u : State} (h : SameButUnusedCells s u) {opcode : BitVec 8} {st : Status} :
    Alike (refuse opcode st s) (refuse opcode st u) :=
  ⟨_, _, rfl, rfl, h.respond _⟩

theorem SameButUnusedCells.complete {s u : State} (h : SameButUnusedCells s u) {opcode : BitVec 8} {words : List Word}
    {payload : List Byte} : Alike (complete opcode words payload s) (complete opcode words payload u) :=
  ⟨_, _, rfl, rfl, h.respond _⟩

/-- Both sides take the same branch. -/
theorem alike_ite {c : Prop} [Decidable c] {a a' b b' : Host.Outcome State Fault Refusal} (ha : Alike a a')
    (hb : Alike b b') : Alike (if c then a else b) (if c then a' else b') := by
  split
  · exact ha
  · exact hb

/-- Both sides make the same check, and refuse or go on. -/
theorem SameButUnusedCells.check {s u : State} (h : SameButUnusedCells s u) {c : Prop} [Decidable c] {opcode : BitVec 8}
    {st : Status} {b b' : Host.Outcome State Fault Refusal} (hb : Alike b b') :
    Alike (if c then Machine.refuse opcode st s else b) (if c then Machine.refuse opcode st u else b') :=
  alike_ite h.refuse hb

/-- The same new values for everything but the FIFOs, and FIFOs that are alike. -/
theorem SameButUnusedCells.setUnits {s u : State} (h : SameButUnusedCells s u) {f0 f0' f1 f1' : Fifo}
    (h0 : SameWindow f0 f0') (h1 : SameWindow f1 f1') {cfgd : BitVec 4} {r : Reasm} {t : Timer} {a : Arp} :
    SameButUnusedCells { s with cfgd := cfgd, f0 := f0, f1 := f1, r := r, t := t, a := a }
      { u with cfgd := cfgd, f0 := f0', f1 := f1', r := r, t := t, a := a } :=
  ⟨h.port, h.rsp, h.params, rfl, h0, h1, rfl, rfl, rfl⟩

/-- New values of units T and A and of `SYS.CFGD` show no cell of a FIFO. -/
theorem SameButUnusedCells.setOthers {s u : State} (h : SameButUnusedCells s u) {cfgd : BitVec 4} {t : Timer} {a : Arp} :
    SameButUnusedCells { s with cfgd := cfgd, t := t, a := a } { u with cfgd := cfgd, t := t, a := a } :=
  ⟨h.port, h.rsp, h.params, rfl, h.f0, h.f1, h.r, rfl, rfl⟩

theorem SameButUnusedCells.fifo {s u : State} (h : SameButUnusedCells s u) (id : FifoId) :
    SameWindow (s.fifo id) (u.fifo id) := by
  cases id with
  | f0 => exact h.f0
  | f1 => exact h.f1

theorem SameButUnusedCells.setFifo {s u : State} (h : SameButUnusedCells s u) (id : FifoId) {f g : Fifo}
    (hfg : SameWindow f g) : SameButUnusedCells (s.setFifo id f) (u.setFifo id g) := by
  cases id with
  | f0 => exact ⟨h.port, h.rsp, h.params, h.cfgd, hfg, h.f1, h.r, h.t, h.a⟩
  | f1 => exact ⟨h.port, h.rsp, h.params, h.cfgd, h.f0, hfg, h.r, h.t, h.a⟩

/-! ## Every command -/

@[simp] theorem withMems_r (s : State) (m0 m1 : List Host.Cell) : (s.withMems m0 m1).r = s.r := rfl
@[simp] theorem withMems_t (s : State) (m0 m1 : List Host.Cell) : (s.withMems m0 m1).t = s.t := rfl
@[simp] theorem withMems_a (s : State) (m0 m1 : List Host.Cell) : (s.withMems m0 m1).a = s.a := rfl

section
variable {s : State} {m0 m1 : List Host.Cell} (h : SameButUnusedCells s (s.withMems m0 m1))
include h

theorem execRdreg_alike (id : BitVec 16) : Alike (execRdreg id s) (execRdreg id (s.withMems m0 m1)) := by
  have hreg : readReg (s.withMems m0 m1) id = readReg s id := rfl
  unfold execRdreg
  rw [hreg]
  cases readReg s id with
  | none => exact h.refuse
  | some v => exact h.complete

theorem execWUnwrap_alike (w isn : Word) (cp : Quad) :
    Alike (execWUnwrap w isn cp s) (execWUnwrap w isn cp (s.withMems m0 m1)) := by
  unfold execWUnwrap
  cases unwrap w isn cp with
  | none => exact h.refuse
  | some n => exact h.complete

/-! Unit T (R196 to R200). -/

theorem execTSent_alike (len : BitVec 16) : Alike (execTSent len s) (execTSent len (s.withMems m0 m1)) :=
  h.check <| h.check <| h.check <| h.check h.setOthers.complete

theorem execTAck_alike (ackno window : Word) :
    Alike (execTAck ackno window s) (execTAck ackno window (s.withMems m0 m1)) := by
  unfold execTAck
  rw [withMems_t]
  refine h.check <| h.check ?_
  cases unwrap ackno s.t.isn s.t.lastAckno with
  | none => exact h.refuse
  | some ack => exact alike_ite h.complete <| alike_ite h.setOthers.complete h.setOthers.complete

theorem execTTick_alike (ms : Word) : Alike (execTTick ms s) (execTTick ms (s.withMems m0 m1)) :=
  h.check <| alike_ite h.complete <| alike_ite h.setOthers.complete h.setOthers.complete

/-! Unit A (R241 to R247). -/

theorem execASend_alike (ip : IpAddr) (dgram : List Byte) :
    Alike (execASend ip dgram s) (execASend ip dgram (s.withMems m0 m1)) := by
  unfold execASend
  rw [withMems_a]
  refine h.check ?_
  cases arpLookup s.a.tab ip with
  | none => exact h.check h.setOthers.complete
  | some e =>
    exact alike_ite (h.check <| alike_ite h.setOthers.complete h.setOthers.complete) (h.check h.setOthers.complete)

theorem execARecvArp_alike (ok : Bool) (op : ArpOp) (dst : Quad) (sip : IpAddr) (seth : Quad) (tip : IpAddr)
    (teth : Quad) : Alike (execARecvArp ok op dst sip seth tip teth s)
      (execARecvArp ok op dst sip seth tip teth (s.withMems m0 m1)) :=
  h.check <| h.check <| alike_ite h.complete <| alike_ite h.complete <| alike_ite h.complete <|
    h.check h.setOthers.complete

theorem execAPopF_alike : Alike (execAPopF s) (execAPopF (s.withMems m0 m1)) := by
  unfold execAPopF
  rw [withMems_a]
  refine h.check ?_
  cases s.a.outf with
  | nil => exact h.refuse
  | cons f fs => exact h.setOthers.complete

theorem execALookup_alike (ip : IpAddr) : Alike (execALookup ip s) (execALookup ip (s.withMems m0 m1)) := by
  unfold execALookup
  rw [withMems_a]
  refine h.check ?_
  cases arpLookup s.a.tab ip with
  | none => exact h.complete
  | some e => exact alike_ite h.complete h.complete

/-! Unit F (R128 to R133). -/

theorem execFInit_alike (id : FifoId) (cap : Word) : Alike (execFInit id cap s) (execFInit id cap (s.withMems m0 m1)) :=
  h.check <| h.check (h.setUnits (.init _ _ cap) h.f1).complete

theorem execFPeek_alike (id : FifoId) (n : BitVec 16) :
    Alike (execFPeek id n s) (execFPeek id n (s.withMems m0 m1)) := by
  unfold execFPeek
  rw [← (h.fifo id).peek_eq]
  exact h.check h.complete

theorem execFEnd_alike (id : FifoId) : Alike (execFEnd id s) (execFEnd id (s.withMems m0 m1)) :=
  h.check <| h.check (h.setFifo .f0 h.f0.endInput).complete

theorem execFSetErr_alike (id : FifoId) : Alike (execFSetErr id s) (execFSetErr id (s.withMems m0 m1)) :=
  h.check (h.setFifo id (h.fifo id).setError).complete

theorem execFPop_alike {id : FifoId} (hq : SameQueue (s.fifo id) ((s.withMems m0 m1).fifo id)) (n : BitVec 16) :
    Alike (execFPop id n s) (execFPop id n (s.withMems m0 m1)) := by
  unfold execFPop
  rw [← hq.window.popCount_eq]
  exact h.check (h.setFifo id (hq.pop _)).complete

theorem execFWrite_alike (hq : SameQueue s.f0 (s.withMems m0 m1).f0) (id : FifoId) (data : List Byte) :
    Alike (execFWrite id data s) (execFWrite id data (s.withMems m0 m1)) := by
  refine h.check <| h.check ?_
  cases hw : s.f0.write data with
  | none =>
    rw [hq.window.write_eq_none hw]
    exact h.refuse
  | some w =>
    obtain ⟨f, k⟩ := w
    obtain ⟨g, hw', hfg⟩ := hq.write hw
    rw [hw']
    exact (h.setFifo .f0 hfg.window).complete

/-! Unit R (R159, R160). -/

theorem execRInit_alike (cap : Word) : Alike (execRInit cap s) (execRInit cap (s.withMems m0 m1)) :=
  h.check (h.setUnits h.f0 (.init _ _ cap)).complete

omit h in
theorem pushData_alike (hq : SameQueue s.f1 (s.withMems m0 m1).f1) (index : Quad) (data : List Byte) :
    DeliverAlike (pushData s index data) (pushData (s.withMems m0 m1) index data) := by
  have hwindow : funacc (s.withMems m0 m1) = funacc s := rfl
  unfold pushData
  rw [hwindow, withMems_r]
  dsimp only
  split
  · exact .delivered _ _ hq.window
  · exact hq.deliver _ _

theorem execRPush_alike (hq : SameQueue s.f1 (s.withMems m0 m1).f1) (eof : Bool) (index : Quad) (data : List Byte) :
    Alike (execRPush eof index data s) (execRPush eof index data (s.withMems m0 m1)) := by
  have hpush := pushData_alike hq index data
  refine h.check <| h.check ?_
  generalize pushData s index data = o, pushData (s.withMems m0 m1) index data = o' at hpush ⊢
  cases hpush with
  | refused => exact h.refuse
  | delivered seg next hfg =>
    exact (h.setUnits h.f0 (hfg.closeIfDone _ _)).complete

end

/-- Every command, on states that differ at most in unused cells, answers alike. -/
theorem exec_alike {s u : State} (h0 : SameQueue s.f0 u.f0) (h1 : SameQueue s.f1 u.f1) (h : SameButUnusedCells s u)
    (i : Instr) : Alike (exec i s) (exec i u) := by
  obtain ⟨m0, m1, rfl⟩ : ∃ m0 m1, u = s.withMems m0 m1 := ⟨_, _, h.eq_withMems⟩
  cases i with
  | nop => exact h.complete
  | rdreg id => exact execRdreg_alike h id
  | sreset => exact (SameButUnusedCells.refl s.reinit).complete
  | wAdd w off => exact h.complete
  | wDiff a b => exact h.complete
  | wWrap n isn => exact h.complete
  | wUnwrap w isn cp => exact execWUnwrap_alike h w isn cp
  | fInit id cap => exact execFInit_alike h id cap
  | fWrite id data => exact execFWrite_alike h h0 id data
  | fPeek id n => exact execFPeek_alike h id n
  | fPop id n =>
    cases id with
    | f0 => exact execFPop_alike h (id := .f0) h0 n
    | f1 => exact execFPop_alike h (id := .f1) h1 n
  | fEnd id => exact execFEnd_alike h id
  | fSetErr id => exact execFSetErr_alike h id
  | rInit cap => exact execRInit_alike h cap
  | rPush eof index data => exact execRPush_alike h h1 eof index data
  | tInit isn rto retx => exact h.setOthers.complete
  | tSent len => exact execTSent_alike h len
  | tAck ackno window => exact execTAck_alike h ackno window
  | tTick ms => exact execTTick_alike h ms
  | tSeqno => exact h.check h.complete
  | aInit eth ip => exact h.check h.setOthers.complete
  | aSend ip dgram => exact execASend_alike h ip dgram
  | aRecvIp ok dst => exact h.check <| h.check <| alike_ite h.complete h.complete
  | aRecvArp ok op dst sip seth tip teth => exact execARecvArp_alike h ok op dst sip seth tip teth
  | aTick ms => exact h.check <| h.check h.setOthers.complete
  | aPopF => exact execAPopF_alike h
  | aLookup ip => exact execALookup_alike h ip

theorem SameButUnusedCells.setPort {s u : State} (h : SameButUnusedCells s u) (xs : List Input) :
    SameButUnusedCells { s with port := xs } { u with port := xs } :=
  ⟨rfl, h.rsp, h.params, h.cfgd, h.f0, h.f1, h.r, h.t, h.a⟩

/-- R320: both resets hold the reset values. -/
theorem SameButUnusedCells.reinit {s u : State} (h : SameButUnusedCells s u) : SameButUnusedCells s.reinit u.reinit :=
  ⟨h.port, h.rsp, h.params, rfl, .refl _, .refl _, rfl, rfl, rfl⟩

/-- Both states take the same input, and go on alike. -/
theorem step_alike {s u : State} (h0 : SameQueue s.f0 u.f0) (h1 : SameQueue s.f1 u.f1) (h : SameButUnusedCells s u) :
    Alike (step s) (step u) := by
  unfold step
  cases hport : s.port with
  | nil =>
    rw [takeInput_of_nil hport, takeInput_of_nil (h.port ▸ hport)]
    exact ⟨s, u, rfl, rfl, h⟩
  | cons x xs =>
    rw [takeInput_of_cons hport, takeInput_of_cons (h.port ▸ hport)]
    cases x with
    | reset => exact ⟨_, _, rfl, rfl, (h.setPort xs).reinit⟩
    | command fr =>
      dsimp only
      split
      · next i _ => exact exec_alike (s := { s with port := xs }) (u := { u with port := xs }) h0 h1 (h.setPort xs) i
      · exact (h.setPort xs).refuse

/-- Settles O59: a step on the other state answers alike. -/
theorem unusedCellsAreNeverObserved : Obligations.UnusedCellsAreNeverObserved := by
  unfold Obligations.UnusedCellsAreNeverObserved
  intro s u t hs0 hs1 hu0 hu1 h hstep
  obtain ⟨t', v, hs, hu, htv⟩ := step_alike ⟨hs0, hu0, h.f0⟩ ⟨hs1, hu1, h.f1⟩ h
  rw [hstep] at hs
  cases hs
  exact ⟨v, hu, htv⟩

end Sys2Proof.Machine

/-! # The commands that only read

R55 from the inversion of `exec`: every effect but `unchanged` belongs to a command that writes. -/

namespace Sys2Proof.Machine

/-- Settles O50: no effect of a reading command is another than `unchanged`. -/
theorem readsHaveNoSideEffect : Obligations.ReadsHaveNoSideEffect := by
  unfold Obligations.ReadsHaveNoSideEffect
  intro i s hread
  obtain ⟨u, fr, hexec, heff⟩ := exec_answers i s
  suffices hu : u = s from ⟨fr, hu ▸ hexec⟩
  cases heff with
  | unchanged => rfl
  | fifo _ h => cases h <;> exact False.elim hread
  | timer _ h => cases h <;> exact False.elim hread
  | arp _ h => cases h <;> exact False.elim hread
  | sreset | fInit | rInit | rPush | tInit | aInit => exact False.elim hread

end Sys2Proof.Machine

/-! # Decoding and encoding

The opcode table read by command: each command's row, with the shape of its frame (R72, R78). Then the decoder's command
builder and the encoder's fields, one the inverse of the other on headers that meet a row's mask (R79). -/

namespace Sys2Proof

/-! ## Rows and opcodes -/

/-- No two rows have one opcode, so a row is found by its own. -/
theorem rowOf_eq_some_iff {o : BitVec 8} {row : Row} : rowOf o = some row ↔ row ∈ opcodeTable ∧ row.opcode = o := by
  refine ⟨fun h => ⟨List.mem_of_find?_eq_some h, by simpa using List.find?_some h⟩, ?_⟩
  rintro ⟨hmem, rfl⟩
  have hall : ∀ r ∈ opcodeTable, rowOf r.opcode = some r := by decide
  exact hall row hmem

theorem isSome_rowOf_opcode (i : Instr) : (rowOf i.opcode).isSome = true := by cases i <;> rfl

/-- The row of a command in R78's table. -/
def Instr.row (i : Instr) : Row := (rowOf i.opcode).get (isSome_rowOf_opcode i)

theorem rowOf_opcode (i : Instr) : rowOf i.opcode = some i.row := (Option.some_get _).symm

theorem row_mem (i : Instr) : i.row ∈ opcodeTable := (rowOf_eq_some_iff.mp (rowOf_opcode i)).1

theorem row_opcode (i : Instr) : i.row.opcode = i.opcode := (rowOf_eq_some_iff.mp (rowOf_opcode i)).2

/-- A row counts its command's operand words. -/
theorem row_nops (i : Instr) : i.row.nops = i.operands.length := by cases i <;> rfl

/-- A command whose row has no payload carries none. -/
theorem payload_of_row {i : Instr} (h : i.row.payload = false) : i.payload = [] := by
  cases i with
  | fWrite | rPush | aSend => cases h
  | _ => rfl

/-- R74: `LEN` is the payload's length where the row has a payload. -/
theorem lenBits_of_row {i : Instr} (h : i.row.payload = true) : i.lenBits = BitVec.ofNat 16 i.payload.length := by
  cases i with
  | fWrite | rPush | aSend => rfl
  | _ => cases h

theorem lenFits_payload {i : Instr} (h : i.wellFormed = true) : i.payload.length < 65536 := by
  cases i with
  | fWrite | rPush | aSend => exact of_decide_eq_true h
  | _ => exact Nat.zero_lt_succ _

/-- R74: a payload's length is read back from `LEN`. -/
theorem toNat_lenBits {i : Instr} (hw : i.wellFormed = true) (h : i.row.payload = true) :
    i.lenBits.toNat = i.payload.length := by
  rw [lenBits_of_row h, BitVec.toNat_ofNat, Nat.mod_eq_of_lt (lenFits_payload hw)]

/-- A pattern of the table has zero fields but its opcode. -/
theorem pattern_fields :
    ∀ row ∈ opcodeTable, hdrInst row.pattern = 0#4 ∧ hdrFlags row.pattern = 0#4 ∧ hdrLen row.pattern = 0#16 := by
  decide

/-- R79: a header passes a row's mask field by field. -/
theorem fields_of_mask {h : Word} {row : Row} (hrow : row ∈ opcodeTable) (hmask : h &&& row.mask = row.pattern) :
    hdrInst h &&& hdrInst row.mask = 0#4 ∧ hdrFlags h &&& hdrFlags row.mask = 0#4 ∧
      hdrLen h &&& hdrLen row.mask = 0#16 := by
  obtain ⟨hinst, hflags, hlen⟩ := pattern_fields row hrow
  rw [← hmask] at hinst hflags hlen
  exact ⟨by rw [← hinst]; exact BitVec.extractLsb'_and.symm, by rw [← hflags]; exact BitVec.extractLsb'_and.symm,
    by rw [← hlen]; exact BitVec.extractLsb'_and.symm⟩

/-- The law of every command's header and word count, gathered from its 27 cases. -/
theorem headerMatches (i : Instr) : Laws.HeaderMatches.Statement i := by
  open Laws.HeaderMatches in
  cases i with
  | nop => exact nop
  | rdreg id => exact rdreg id
  | sreset => exact sreset
  | wAdd w off => exact wAdd w off
  | wDiff a b => exact wDiff a b
  | wWrap n isn => exact wWrap n isn
  | wUnwrap w isn cp => exact wUnwrap w isn cp
  | fInit id cap => exact fInit id cap
  | fWrite id data => exact fWrite id data
  | fPeek id n => exact fPeek id n
  | fPop id n => exact fPop id n
  | fEnd id => exact fEnd id
  | fSetErr id => exact fSetErr id
  | rInit cap => exact rInit cap
  | rPush eof index data => exact rPush eof index data
  | tInit isn rto retx => exact tInit isn rto retx
  | tSent len => exact tSent len
  | tAck ackno window => exact tAck ackno window
  | tTick ms => exact tTick ms
  | tSeqno => exact tSeqno
  | aInit eth ip => exact aInit eth ip
  | aSend ip dgram => exact aSend ip dgram
  | aRecvIp ok dst => exact aRecvIp ok dst
  | aRecvArp ok op dst sip seth tip teth => exact aRecvArp ok op dst sip seth tip teth
  | aTick ms => exact aTick ms
  | aPopF => exact aPopF
  | aLookup ip => exact aLookup ip

/-- R72, R79: the encoding of a command fits its row. -/
theorem encode_fits_row {i : Instr} (h : i.wellFormed = true) :
    (encode i).header &&& i.row.mask = i.row.pattern ∧ (encode i).tail.length = tailWords i.row i.lenBits := by
  obtain ⟨row, hrow, hmask, hlen⟩ := headerMatches i h
  obtain rfl : row = i.row := by simpa [rowOf_opcode] using hrow.symm
  exact ⟨hmask, hlen⟩

/-! ## From the fields to the command -/

theorem instOf_instField (id : FifoId) : instOf (instField id) = id := by cases id <;> rfl

/-- Bit 0 of `FLAGS` behind zero bits (R78). -/
theorem getLsbD_flagBit (b : Bool) : (0#3 ++ BitVec.ofBool b : BitVec 4)[0] = b := by cases b <;> rfl

/-- Bits 0 and 1 of `FLAGS` (R78's A.RECVARP). -/
theorem getLsbD_arpFlagBits (op : ArpOp) (b : Bool) :
    (0#2 ++ arpOpBit op ++ BitVec.ofBool b : BitVec 4)[0] = b ∧
      arpOpOf (0#2 ++ arpOpBit op ++ BitVec.ofBool b : BitVec 4)[1] = op := by
  cases op <;> cases b <;> decide

/-- R79: the builder reads a command back from its own fields. -/
theorem buildInstr_fields (i : Instr) :
    buildInstr i.opcode i.instBits i.flagBits i.lenBits i.operands i.payload = some i := by
  cases i <;>
    simp [buildInstr, Instr.opcode, Instr.instBits, Instr.flagBits, Instr.lenBits, Instr.operands, Instr.payload,
      opWord, opQuad, quadWords, quad_of_words, instOf_instField, getLsbD_flagBit, getLsbD_arpFlagBits]

/-- Settles O1: the encoding fits its row, the row cuts the tail into the operands and the payload, and the builder reads
the command back. -/
theorem decodeEncodeRoundTrip : Obligations.DecodeEncodeRoundTrip := by
  unfold Obligations.DecodeEncodeRoundTrip
  intro i hw
  obtain ⟨hmask, hlen⟩ := encode_fits_row hw
  have hdata : (if i.row.payload = true then unpack i.lenBits.toNat (pack i.payload) else []) = i.payload := by
    split
    · next hpay => rw [toNat_lenBits hw hpay, unpack_pack]
    · next hpay => exact (payload_of_row (by simpa using hpay)).symm
  refine decode_eq_ok (row := i.row) ?_ hmask ?_ ?_ <;>
    simp only [hdrOpcode_mkHeader, hdrInst_mkHeader, hdrFlags_mkHeader, hdrLen_mkHeader]
  · exact rowOf_opcode i
  · exact hlen
  · rw [row_nops, List.take_left, List.drop_left, hdata]
    exact buildInstr_fields i

/-! ## From the command to the fields -/

theorem buildInstr_opcode {o : BitVec 8} {inst flags : BitVec 4} {len : BitVec 16} {ops : List Word} {data : List Byte}
    {i : Instr} (h : buildInstr o inst flags len ops data = some i) : i.opcode = o := by
  apply BitVec.eq_of_toNat_eq
  unfold buildInstr at h
  split at h <;> cases h <;> exact ‹o.toNat = _›.symm

/-- R79: a row fixes `INST` at 0, but for bit 20 in unit F. -/
theorem hdrInst_mask (i : Instr) :
    hdrInst i.row.mask =
      match i with
      | .fInit _ _ | .fWrite _ _ | .fPeek _ _ | .fPop _ _ | .fEnd _ | .fSetErr _ => 0xE#4
      | _ => 0xF#4 := by
  cases i <;> simp [Instr.row, Instr.opcode, rowOf, opcodeTable, hdrInst]

/-- R79: a row fixes `FLAGS` at 0, but for the bits R78 names. -/
theorem hdrFlags_mask (i : Instr) :
    hdrFlags i.row.mask =
      match i with
      | .rPush _ _ _ | .aRecvIp _ _ => 0xE#4
      | .aRecvArp _ _ _ _ _ _ _ => 0xC#4
      | _ => 0xF#4 := by
  cases i <;> simp [Instr.row, Instr.opcode, rowOf, opcodeTable, hdrFlags]

/-- R79: a row fixes `LEN` at 0, but where R74 gives it a meaning. -/
theorem hdrLen_mask (i : Instr) :
    hdrLen i.row.mask =
      match i with
      | .rdreg _ | .fWrite _ _ | .fPeek _ _ | .fPop _ _ | .rPush _ _ _ | .tSent _ | .aSend _ _ => 0x0000#16
      | _ => 0xFFFF#16 := by
  cases i <;> simp [Instr.row, Instr.opcode, rowOf, opcodeTable, hdrLen]

theorem zero_eq_of_mask4 {x : BitVec 4} (h : x &&& 0xF#4 = 0#4) : 0#4 = x := h.symm.trans (BitVec.and_allOnes (x := x))

theorem zero_eq_of_mask16 {x : BitVec 16} (h : x &&& 0xFFFF#16 = 0#16) : 0#16 = x :=
  h.symm.trans (BitVec.and_allOnes (x := x))

/-- The two words of a 64-bit value put together from two operand words (R12). -/
theorem quadWords_opQuad (ops : List Word) (k : Nat) : quadWords (opQuad ops k) = [opWord ops k, opWord ops (k + 1)] := by
  simp only [quadWords, opQuad, BitVec.extractLsb'_append_eq_right, BitVec.extractLsb'_append_eq_left]

/-- Operand words, one by one. -/
theorem map_opWord_range (ops : List Word) : (List.range ops.length).map (opWord ops) = ops := by
  refine List.ext_getElem (by simp) fun k hk hk' => ?_
  simp [opWord, hk']

section

variable {i : Instr} {inst flags : BitVec 4} {len : BitVec 16} {ops : List Word} {data : List Byte}
  (h : buildInstr i.opcode inst flags len ops data = some i)

include h

theorem instBits_of_buildInstr (hmask : inst &&& hdrInst i.row.mask = 0#4) : i.instBits = inst := by
  have hinst : ∀ x : BitVec 4, x &&& 0xE#4 = 0#4 → instField (instOf x) = x := by decide
  rw [hdrInst_mask] at hmask
  cases i with
  | fInit | fWrite | fPeek | fPop | fEnd | fSetErr => cases h; exact hinst inst hmask
  | _ => exact zero_eq_of_mask4 hmask

theorem flagBits_of_buildInstr (hmask : flags &&& hdrFlags i.row.mask = 0#4) : i.flagBits = flags := by
  have hone : ∀ x : BitVec 4, x &&& 0xE#4 = 0#4 → 0#3 ++ BitVec.ofBool (x.getLsbD 0) = x := by decide
  have htwo : ∀ x : BitVec 4, x &&& 0xC#4 = 0#4 →
      0#2 ++ arpOpBit (arpOpOf (x.getLsbD 1)) ++ BitVec.ofBool (x.getLsbD 0) = x := by decide
  rw [hdrFlags_mask] at hmask
  cases i with
  | rPush | aRecvIp => cases h; exact hone flags hmask
  | aRecvArp => cases h; exact htwo flags hmask
  | _ => exact zero_eq_of_mask4 hmask

theorem lenBits_of_buildInstr (hmask : len &&& hdrLen i.row.mask = 0#16)
    (hdata : i.row.payload = true → data.length = len.toNat) : i.lenBits = len := by
  have hpay (hlen : data.length = len.toNat) : BitVec.ofNat 16 data.length = len := by simp [hlen]
  rw [hdrLen_mask] at hmask
  cases i with
  | fWrite | rPush | aSend => cases h; exact hpay (hdata rfl)
  | rdreg | fPeek | fPop | tSent => cases h; rfl
  | _ => exact zero_eq_of_mask16 hmask

theorem payload_of_buildInstr (hdata : i.row.payload = false → data = []) : i.payload = data := by
  cases i with
  | fWrite | rPush | aSend => cases h; rfl
  | _ => exact (hdata rfl).symm

theorem operands_of_buildInstr (hlen : ops.length = i.row.nops) : i.operands = ops := by
  suffices i.operands = (List.range i.row.nops).map (opWord ops) by rw [this, ← hlen, map_opWord_range]
  cases i <;> cases h <;> simp only [Instr.operands, quadWords_opQuad] <;> rfl

end

theorem length_unpackWords (ws : List Word) : (unpackWords ws).length = 4 * ws.length := by
  induction ws with
  | nil => rfl
  | cons w ws ih => simp only [unpackWords, unpackWord, List.length_append, ih, List.length_cons, List.length_nil]; omega

/-- `ceil(len / 4)` words hold `len` bytes (R72, R73). -/
theorem length_unpack {len : Nat} {ws : List Word} (h : ws.length = wordsFor len) : (unpack len ws).length = len := by
  rw [unpack, List.length_take, length_unpackWords, h, wordsFor]
  omega

/-- A frame that decodes passes its command's row, and the command's fields are the frame's (R79). -/
theorem fields_of_decode {fr : Frame} {i : Instr} (h : decode fr = .ok i) :
    (encode i).header = fr.header ∧ fr.tail.length = tailWords i.row i.lenBits ∧
      i.operands = fr.tail.take i.operands.length ∧
      i.payload = if i.row.payload then unpack i.lenBits.toNat (fr.tail.drop i.operands.length) else [] := by
  obtain ⟨row, hrow, hmask, hlen, hbuild⟩ := decode_ok_cases h
  have hop := buildInstr_opcode hbuild
  obtain rfl : i.row = row := Option.some.inj ((rowOf_opcode i).symm.trans (hop ▸ hrow))
  rw [← hop] at hbuild
  obtain ⟨hinst, hflags, hlenMask⟩ := fields_of_mask (row_mem i) hmask
  have hops : (fr.tail.take i.row.nops).length = i.row.nops := by
    rw [List.length_take, hlen, tailWords]
    omega
  have hdata : i.row.payload = true → (unpack (hdrLen fr.header).toNat (fr.tail.drop i.row.nops)).length =
      (hdrLen fr.header).toNat := fun hpay => length_unpack (by simp [hlen, tailWords, hpay])
  have hlenBits := lenBits_of_buildInstr hbuild hlenMask fun hpay => by rw [if_pos hpay, hdata hpay]
  have hoperands := operands_of_buildInstr hbuild hops
  have hpayload := payload_of_buildInstr hbuild fun hpay => by simp [hpay]
  rw [row_nops] at hoperands hpayload
  rw [hlenBits]
  refine ⟨?_, hlen, hoperands, hpayload⟩
  rw [encode, hop, instBits_of_buildInstr hbuild hinst, flagBits_of_buildInstr hbuild hflags, hlenBits, mkHeader_fields]

/-- Settles O2: the fields of the decoded command are the frame's, and its row gives the word count. -/
theorem decodedFrameReencodes : Obligations.DecodedFrameReencodes := by
  unfold Obligations.DecodedFrameReencodes
  intro fr i h
  have hw := Machine.wellFormed_of_decode h
  obtain ⟨hheader, hlen, hoperands, hpayload⟩ := fields_of_decode h
  refine ⟨hw, hheader, (encode_fits_row hw).2.trans hlen.symm, hoperands, ?_⟩
  cases hpay : i.row.payload with
  | true => rw [← toNat_lenBits hw hpay]; exact (hpayload.trans (if_pos hpay)).symm
  | false => rw [payload_of_row hpay]; rfl

/-! ## Illegal frames (R80) -/

/-- Every row's opcode stands for a command. -/
theorem isSome_buildInstr {row : Row} (h : row ∈ opcodeTable) (inst flags : BitVec 4) (len : BitVec 16) (ops : List Word)
    (data : List Byte) : (buildInstr row.opcode inst flags len ops data).isSome = true := by
  revert row
  simp [opcodeTable, buildInstr]

/-- R79: a frame decodes exactly when it passes the three checks of a row. -/
theorem decode_ok_iff (fr : Frame) :
    (∃ i, decode fr = .ok i) ↔
      ∃ row ∈ opcodeTable, row.opcode = hdrOpcode fr.header ∧ fr.header &&& row.mask = row.pattern ∧
        fr.tail.length = tailWords row (hdrLen fr.header) := by
  constructor
  · rintro ⟨i, h⟩
    obtain ⟨row, hrow, hmask, hlen, -⟩ := decode_ok_cases h
    obtain ⟨hmem, hop⟩ := rowOf_eq_some_iff.mp hrow
    exact ⟨row, hmem, hop, hmask, hlen⟩
  · rintro ⟨row, hmem, hop, hmask, hlen⟩
    obtain ⟨i, hbuild⟩ := Option.isSome_iff_exists.mp (isSome_buildInstr hmem _ _ _ _ _)
    exact ⟨i, decode_eq_ok (rowOf_eq_some_iff.mpr ⟨hmem, hop⟩) hmask hlen (hop ▸ hbuild)⟩

theorem decode_error_iff (fr : Frame) : (∃ e, decode fr = .error e) ↔ ¬ ∃ i, decode fr = .ok i := by
  cases decode fr <;> simp

/-- `LEN` is the header's low 16 bits (R74). -/
theorem toNat_hdrLen (h : Word) : (hdrLen h).toNat = h.toNat % 2 ^ 16 := by
  simp [hdrLen, BitVec.extractLsb'_toNat]

end Sys2Proof

namespace Sys2Proof.Machine

/-! ## The step on a command frame -/

/-- Settles O4: the step takes the frame and dispatches on its decoding. -/
theorem stepRunsTheDecodedCommand : Obligations.StepRunsTheDecodedCommand := by
  unfold Obligations.StepRunsTheDecodedCommand
  intro s fr rest i hport hdec
  simp only [step, takeInput_of_cons hport, hdec]

theorem step_of_illegal {s : State} {fr : Frame} {rest : List Input} {e : Illegal} (hport : s.port = .command fr :: rest)
    (hdec : decode fr = .error e) : step s = refuseIllegal fr { s with port := rest } := by
  simp only [step, takeInput_of_cons hport, hdec]

/-- Settles O5: the decoder's checks are the table's, and the refusal is the response of R80. -/
theorem illegalFrameIsRefused : Obligations.IllegalFrameIsRefused := by
  unfold Obligations.IllegalFrameIsRefused
  refine ⟨fun fr => ?_, fun s fr rest e hport hdec => step_of_illegal hport hdec⟩
  rw [decode_error_iff, decode_ok_iff]
  simp only [tailWords, wordsFor, toNat_hdrLen, hdrOpcode]

/-- Settles O3: each frame is run through the decoder. -/
theorem writtenOutFramesDecode : Obligations.WrittenOutFramesDecode := by
  unfold Obligations.WrittenOutFramesDecode
  refine ⟨?_, ?_, ?_, ?_, ?_, ?_⟩ <;> decide

end Sys2Proof.Machine

/-! # Responses

The second inversion of `exec`, beside its effects: the response of a command is a refusal, or it has the result words and
the payload of the command's row (R75, R78). With the effects it says what every step answers (R71). -/

namespace Sys2Proof.Machine

/-- The responses a command's row allows in a state (R75, R78, R291): a refusal, the row's result words alone, or these and
the payload of a row that has one, which fits `RLEN` when the stored datagrams do (R33). -/
inductive RowResponse (i : Instr) (s : State) : Frame → Prop
  | refused {st : Status} (hst : st ≠ .ok) : RowResponse i s (refusalFrame i.opcode st)
  | words {ws : List Word} (hws : ws.length = i.row.nres) : RowResponse i s (okFrame i.opcode ws [])
  | payload {ws : List Word} {bytes : List Byte} (hws : ws.length = i.row.nres) (hrow : i.row.respPayload = true)
      (hfit : (∀ f ∈ s.a.outf, frameFits f = true) → bytes.length < 65536) :
      RowResponse i s (okFrame i.opcode ws bytes)

/-- The outcome is a next state with a response of the command's row. -/
def Responds (i : Instr) (s : State) (o : Host.Outcome State Fault Refusal) : Prop :=
  ∃ (u : State) (fr : Frame), o = .next (u.respond fr) ∧ RowResponse i s fr

/-! ## Building an answer -/

section

variable {i : Instr} {s u : State} {o o' : Host.Outcome State Fault Refusal}

theorem Responds.refuse {st : Status} (hst : st ≠ .ok := by decide) : Responds i s (refuse i.opcode st u) :=
  ⟨_, _, rfl, .refused hst⟩

theorem Responds.words {ws : List Word} (hws : ws.length = i.row.nres := by rfl) :
    Responds i s (complete i.opcode ws [] u) :=
  ⟨_, _, rfl, .words hws⟩

theorem Responds.payload {ws : List Word} {bytes : List Byte} (hws : ws.length = i.row.nres)
    (hrow : i.row.respPayload = true) (hfit : (∀ f ∈ s.a.outf, frameFits f = true) → bytes.length < 65536) :
    Responds i s (complete i.opcode ws bytes u) :=
  ⟨_, _, rfl, .payload hws hrow hfit⟩

theorem Responds.ite {c : Prop} [Decidable c] (ht : Responds i s o) (hf : Responds i s o') :
    Responds i s (if c then o else o') := by
  split <;> assumption

/-- A command's check: refused where it fails, else what comes after it. -/
theorem Responds.guard {c : Prop} [Decidable c] {st : Status} (h : Responds i s o) (hst : st ≠ .ok := by decide) :
    Responds i s (if c then Machine.refuse i.opcode st u else o) :=
  .ite (.refuse hst) h

end

/-! ## The commands that look something up -/

theorem execRdreg_responds (id : BitVec 16) (s : State) : Responds (.rdreg id) s (execRdreg id s) := by
  unfold execRdreg
  cases readReg s id with
  | none => exact .refuse
  | some v => exact .words

theorem execWUnwrap_responds (w isn : Word) (cp : Quad) (s : State) :
    Responds (.wUnwrap w isn cp) s (execWUnwrap w isn cp s) := by
  unfold execWUnwrap
  cases unwrap w isn cp with
  | none => exact .refuse
  | some n => exact .words

theorem execFWrite_responds (id : FifoId) (data : List Byte) (s : State) :
    Responds (.fWrite id data) s (execFWrite id data s) := by
  unfold execFWrite
  refine .guard (.guard ?_)
  cases s.f0.write data with
  | none => exact .refuse
  | some p => exact .words

/-- R130: a peek answers at most the `LEN` bytes it asks for. -/
theorem execFPeek_responds (id : FifoId) (n : BitVec 16) (s : State) : Responds (.fPeek id n) s (execFPeek id n s) := by
  refine .guard (.payload rfl rfl fun _ => ?_)
  rw [length_peek]
  exact (Nat.min_le_left _ _).trans_lt n.isLt

theorem execRPush_responds (eof : Bool) (index : Quad) (data : List Byte) (s : State) :
    Responds (.rPush eof index data) s (execRPush eof index data s) := by
  unfold execRPush
  refine .guard (.guard ?_)
  cases pushData s index data with
  | none => exact .refuse
  | some p => exact .words

theorem execTAck_responds (ackno window : Word) (s : State) : Responds (.tAck ackno window) s (execTAck ackno window s) := by
  unfold execTAck
  refine .guard (.guard ?_)
  cases unwrap ackno s.t.isn s.t.lastAckno with
  | none => exact .refuse
  | some ack => exact .ite .words (.ite .words .words)

theorem length_expiryWords (t : Timer) : (expiryWords t).length = 5 := by
  unfold expiryWords
  cases t.outq <;> rfl

theorem execASend_responds (ip : IpAddr) (dgram : List Byte) (s : State) :
    Responds (.aSend ip dgram) s (execASend ip dgram s) := by
  unfold execASend
  refine .guard ?_
  cases arpLookup s.a.tab ip with
  | none => exact .guard .words
  | some e => exact .ite (.guard (.ite .words .words)) (.guard .words)

theorem length_frameWords (f : EthFrame) : (frameWords f).length = 12 := by
  obtain ⟨dst, src, body⟩ := f
  cases body <;> rfl

theorem length_framePayload {f : EthFrame} (h : frameFits f = true) : (framePayload f).length < 65536 := by
  obtain ⟨dst, src, body⟩ := f
  cases body with
  | ipv4 d => exact of_decide_eq_true h
  | arp m => exact Nat.zero_lt_succ _

/-- R246: the popped frame's datagram is the payload. -/
theorem execAPopF_responds (s : State) : Responds .aPopF s (execAPopF s) := by
  unfold execAPopF
  refine .guard ?_
  cases houtf : s.a.outf with
  | nil => exact .refuse
  | cons f fs =>
    exact .payload (length_frameWords f) rfl fun hfit => length_framePayload (hfit f (houtf ▸ List.mem_cons_self))

theorem execALookup_responds (ip : IpAddr) (s : State) : Responds (.aLookup ip) s (execALookup ip s) := by
  unfold execALookup
  refine .guard ?_
  cases arpLookup s.a.tab ip with
  | none => exact .words
  | some e => exact .ite .words .words

/-! ## Every command -/

/-- R75, R78: every command answers as its row says. -/
theorem exec_responds (i : Instr) (s : State) : Responds i s (exec i s) := by
  cases i with
  | rdreg id => exact execRdreg_responds id s
  | wUnwrap w isn cp => exact execWUnwrap_responds w isn cp s
  | fWrite id data => exact execFWrite_responds id data s
  | fPeek id n => exact execFPeek_responds id n s
  | rPush eof index data => exact execRPush_responds eof index data s
  | tAck ackno window => exact execTAck_responds ackno window s
  | aSend ip dgram => exact execASend_responds ip dgram s
  | aPopF => exact execAPopF_responds s
  | aLookup ip => exact execALookup_responds ip s
  | nop | sreset | wAdd | wDiff | wWrap | tInit => exact .words
  | fPop | fSetErr | rInit | tSeqno | aInit => exact .guard .words
  | fInit | fEnd | aTick => exact .guard (.guard .words)
  | tSent => exact .guard (.guard (.guard (.guard .words)))
  | tTick ms => exact .guard (.ite .words (.ite (.words (length_expiryWords _)) .words))
  | aRecvIp => exact .guard (.guard (.ite .words .words))
  | aRecvArp => exact .guard (.guard (.ite .words (.ite .words (.ite .words (.guard .words)))))

theorem Effect.rsp {s u : State} {i : Instr} (h : Effect s i u) : u.rsp = s.rsp := by
  cases h <;> simp

theorem frame_eq_of_respond_eq {u v : State} {fr fr' : Frame} (h : u.respond fr = v.respond fr') : fr = fr' := by
  have hrsp : u.rsp ++ [fr] = v.rsp ++ [fr'] := congrArg State.rsp h
  exact List.singleton_inj.mp (List.append_inj_right' hrsp rfl)

/-- Both inversions of `exec` at once: the effect and the response of a command. -/
theorem exec_effect_response (i : Instr) (s : State) :
    ∃ (u : State) (fr : Frame), exec i s = .next (u.respond fr) ∧ Effect s i u ∧ RowResponse i s fr := by
  obtain ⟨u, fr, hexec, heff⟩ := exec_answers i s
  obtain ⟨v, fr', hexec', hresp⟩ := exec_responds i s
  have hsame : u.respond fr = v.respond fr' := by injection hexec.symm.trans hexec'
  exact ⟨u, fr, hexec, heff, frame_eq_of_respond_eq hsame ▸ hresp⟩

/-- R75: a response echoes the opcode. -/
theorem RowResponse.opcode {i : Instr} {s : State} {fr : Frame} (h : RowResponse i s fr) :
    fr.header.extractLsb' 24 8 = i.opcode := by
  cases h <;> simp

/-- R75, R78: an OK response has the row's result words and the payload words of its `RLEN`, which is 0 without a payload. -/
theorem RowResponse.ok_shape {i : Instr} {s : State} {fr : Frame} (h : RowResponse i s fr)
    (hfits : ∀ f ∈ s.a.outf, frameFits f = true) (hok : fr.header.extractLsb' 16 8 = 0#8) :
    fr.tail.length = i.row.nres + wordsFor (fr.header.extractLsb' 0 16).toNat ∧
      (i.row.respPayload = false → fr.header.extractLsb' 0 16 = 0#16) := by
  cases h with
  | @refused st hst =>
    rw [refusalFrame_header, respHeader_status, status_code_eq_zero_iff] at hok
    exact absurd hok hst
  | words hws => simp [hws, pack, wordsFor]
  | @payload ws bytes hws hrow hfit =>
    have hlen : (BitVec.ofNat 16 bytes.length).toNat = bytes.length := by
      rw [BitVec.toNat_ofNat, Nat.mod_eq_of_lt (hfit hfits)]
    refine ⟨?_, fun hnone => by simp [hrow] at hnone⟩
    rw [okFrame_header, respHeader_rlen, hlen, okFrame_tail, List.length_append, hws, length_pack]

/-- Settles O9: the response of a command has the shape of its row. -/
theorem okResponseHasTheRowsShape : Obligations.OkResponseHasTheRowsShape := by
  unfold Obligations.OkResponseHasTheRowsShape
  intro i s hfits
  obtain ⟨u, fr, hexec, heff, hresp⟩ := exec_effect_response i s
  exact ⟨_, fr, i.row, hexec, by rw [respond_rsp, heff.rsp], row_mem i, row_opcode i, hresp.ok_shape hfits⟩

/-! ## Every step -/

theorem opcode_of_decode {fr : Frame} {i : Instr} (h : decode fr = .ok i) : i.opcode = hdrOpcode fr.header := by
  obtain ⟨hheader, -⟩ := fields_of_decode h
  rw [← hheader, encode, hdrOpcode_mkHeader]

/-- R71, R75: a command frame gets one response, which echoes its opcode byte. -/
theorem step_of_command {s : State} {fr : Frame} {rest : List Input} (hport : s.port = .command fr :: rest) :
    ∃ (t : State) (r : Frame), step s = .next t ∧ t.port = rest ∧ t.rsp = s.rsp ++ [r] ∧ t.params = s.params ∧
      r.header.extractLsb' 24 8 = hdrOpcode fr.header := by
  cases hdec : decode fr with
  | error e => exact ⟨_, _, step_of_illegal hport hdec, rfl, rfl, rfl, respHeader_opcode _ _ _⟩
  | ok i =>
    obtain ⟨u, r, hexec, heff, hresp⟩ := exec_effect_response i { s with port := rest }
    exact ⟨_, r, (stepRunsTheDecodedCommand s fr rest i hport hdec).trans hexec, heff.port,
      congrArg (· ++ [r]) heff.rsp, heff.params, hresp.opcode.trans (opcode_of_decode hdec)⟩

/-- Settles O7: a command frame by `step_of_command`; waiting and the reset signal leave the responses. -/
theorem oneResponsePerCommandFrame : Obligations.OneResponsePerCommandFrame := by
  unfold Obligations.OneResponsePerCommandFrame
  refine ⟨fun s fr rest hport => step_of_command hport, fun s hno => ?_⟩
  unfold step
  match hport : s.port with
  | [] =>
    rw [takeInput_of_nil hport]
    exact ⟨s, rfl, hport, rfl, rfl⟩
  | .reset :: rest =>
    rw [takeInput_of_cons hport]
    exact ⟨_, rfl, rfl, rfl, rfl⟩
  | .command fr :: rest => exact absurd hport (hno fr rest)

/-! ## A.POPF (R246) -/

/-- R12: the words of an Ethernet address, low word first. -/
theorem ethWords_eq (e : EthAddr) : ethWords e = [BitVec.ofNat 32 e.toNat, BitVec.ofNat 32 (e.toNat / 2 ^ 32)] := by
  rw [ethWords, ← quadWords_ofNat, BitVec.ofNat_toNat]

theorem exec_aPopF_of_cons {s : State} {f : EthFrame} {fs : List EthFrame} (hcfg : configured .arp s = true)
    (houtf : s.a.outf = f :: fs) :
    exec .aPopF s = complete 0x55#8 (frameWords f) (framePayload f) { s with a := { s.a with outf := fs } } := by
  simp [exec, execAPopF, hcfg, houtf, Instr.opcode]

/-- R246: an IPv4 frame's words are its addresses and eight zeros. -/
theorem frameWords_ipv4 {f : EthFrame} {d : List Byte} (h : f.body = .ipv4 d) :
    frameWords f = ethWords f.dst ++ ethWords f.src ++ List.replicate 8 0#32 := by
  simp [frameWords, h]

/-- R246: an ARP frame's words are its addresses and its message's fields (codes R77). -/
theorem frameWords_arp {f : EthFrame} {m : ArpMsg} (h : f.body = .arp m) :
    frameWords f = ethWords f.dst ++ ethWords f.src ++
      ([1#32, arpOpWord m.opcode, m.senderIp] ++ ethWords m.senderEth ++ [m.targetIp] ++ ethWords m.targetEth) := by
  simp [frameWords, h]

theorem framePayload_ipv4 {f : EthFrame} {d : List Byte} (h : f.body = .ipv4 d) : framePayload f = d := by
  simp [framePayload, h]

theorem framePayload_arp {f : EthFrame} {m : ArpMsg} (h : f.body = .arp m) : framePayload f = [] := by
  simp [framePayload, h]

theorem arpOpWord_eq (op : ArpOp) : arpOpWord op = if op = .request then 0#32 else 1#32 := by cases op <;> rfl

/-- Settles O45: the words and the payload of either body. -/
theorem aPopFReturnsTheOldestFrame : Obligations.APopFReturnsTheOldestFrame := by
  unfold Obligations.APopFReturnsTheOldestFrame
  intro s f fs hcfg houtf
  rw [exec_aPopF_of_cons hcfg houtf]
  refine ⟨fun d hbody => ?_, fun m hbody => ?_⟩
  · rw [frameWords_ipv4 hbody, framePayload_ipv4 hbody, ethWords_eq, ethWords_eq, complete_eq, okFrame,
      pack_eq_paddedWords]
    rfl
  · rw [frameWords_arp hbody, framePayload_arp hbody, complete_eq, okFrame, arpOpWord_eq]
    simp only [ethWords_eq]
    rfl

end Sys2Proof.Machine

/-! # Unit W

R101 to R109: what the four commands answer, from the laws of the sequence functions they answer with. Their frames are
read back by the encoder's round trip. -/

namespace Sys2Proof.Machine

/-! ## Decoding -/

/-- R79: a frame is decoded to the command it encodes; here a command that leaves `INST`, `FLAGS` and `LEN` at 0 (R74). -/
theorem decode_of_encode {i : Instr} {o : BitVec 8} {h : Word} {tail : List Word} (hw : i.wellFormed = true)
    (henc : encode i = ⟨mkHeader o 0#4 0#4 0#16, tail⟩) (hheader : mkHeader o 0#4 0#4 0#16 = h) :
    decode ⟨h, tail⟩ = .ok i := by
  rw [← hheader, ← henc]
  exact decodeEncodeRoundTrip i hw

/-- R12: the words of a 64-bit operand, low word first. -/
theorem quadWords_append (hi lo : Word) : quadWords (hi ++ lo) = [lo, hi] :=
  quadWords_opQuad [lo, hi] 0

/-! ## Responses -/

/-- R75: a completed command without a payload answers its header and its result words. -/
theorem complete_words {opcode : BitVec 8} {h : Word} (hheader : respHeader opcode .ok 0 = h) (words : List Word)
    (s : State) : complete opcode words [] s = .next (s.respond ⟨h, words⟩) := by
  rw [complete_eq, okFrame, pack, List.append_nil, List.length_nil, hheader]

theorem exec_wAdd (w off : Word) (s : State) :
    exec (.wAdd w off) s = .next (s.respond ⟨0x10000000#32, [add32 w off]⟩) :=
  complete_words (opcode := 0x10#8) (by decide) _ s

theorem exec_wDiff (a b : Word) (s : State) :
    exec (.wDiff a b) s = .next (s.respond ⟨0x11000000#32, [BitVec.ofInt 32 (diff32 a b)]⟩) :=
  complete_words (opcode := 0x11#8) (by decide) _ s

theorem exec_wWrap (n : Quad) (isn : Word) (s : State) :
    exec (.wWrap n isn) s = .next (s.respond ⟨0x12000000#32, [wrap n isn]⟩) :=
  complete_words (opcode := 0x12#8) (by decide) _ s

theorem exec_wUnwrap_of_none {w isn : Word} {cp : Quad} (h : unwrap w isn cp = none) (s : State) :
    exec (.wUnwrap w isn cp) s = .next (s.respond ⟨0x13070000#32, []⟩) := by
  have hheader : respHeader 0x13#8 .errRange 0 = 0x13070000#32 := by decide
  simp only [exec, execWUnwrap, h, refuse_eq, refusalFrame, Instr.opcode, hheader]

theorem exec_wUnwrap_of_some {w isn : Word} {cp n : Quad} (h : unwrap w isn cp = some n) (s : State) :
    exec (.wUnwrap w isn cp) s = .next (s.respond ⟨0x13000000#32, quadWords n⟩) := by
  simp only [exec, execWUnwrap, h]
  exact complete_words (opcode := 0x13#8) (by decide) _ s

/-! ## Differences (R102) -/

theorem add32_eq_add (w off : Word) : add32 w off = w + off :=
  BitVec.eq_of_toNat_eq (by rw [add32_toNat, BitVec.toNat_add])

/-- R106: the word W.DIFF answers. -/
theorem ofInt_diff32 (a b : Word) : BitVec.ofInt 32 (diff32 a b) = a - b :=
  BitVec.ofInt_toInt

theorem add32_ofInt_diff32 (a b : Word) : add32 b (BitVec.ofInt 32 (diff32 a b)) = a := by
  rw [ofInt_diff32, add32_eq_add, add_sub_cancel]

/-- R102: a signed integer of 32 bits that takes `b` to `a` is `diff32 a b`. -/
theorem eq_diff32_of_add32 {a b : Word} {d : Int} (hlo : -(2 ^ 31) ≤ d) (hhi : d < 2 ^ 31)
    (hadd : add32 b (BitVec.ofInt 32 d) = a) : d = diff32 a b := by
  rw [diff32, ← hadd, add32_eq_add, add_sub_cancel_left, BitVec.toInt_ofInt_eq_self (by decide) hlo hhi]

/-- R102: the one difference of two words that `+2^31` would also name. -/
theorem diff32_of_half_apart {a b : Word} (h : a.toNat + 2 ^ 31 = b.toNat ∨ b.toNat + 2 ^ 31 = a.toNat) :
    diff32 a b = -(2 ^ 31) := by
  have hhalf : (a - b).toNat = 2 ^ 31 := by
    rw [BitVec.toNat_sub]
    omega
  rw [diff32, BitVec.toInt_eq_toNat_cond, hhalf]
  rfl

/-! ## The nearest number (R104) -/

/-- R104: what `unwrap` answers is at least as near to the checkpoint as any number of the same offset, and is the larger
of two equally near ones. A smaller such number is below the checkpoint by `2^31` or more, a larger one is farther above
the checkpoint than the answer is on either side. -/
theorem unwrap_nearest {w isn : Word} {cp n : Quad} (h : unwrap w isn cp = some n) {m : Nat}
    (hm : m % 2 ^ 32 = (w - isn).toNat) :
    |(n.toNat : Int) - cp.toNat| ≤ |(m : Int) - cp.toNat| ∧
      (|(n.toNat : Int) - cp.toNat| = |(m : Int) - cp.toNat| → m ≤ n.toNat) := by
  obtain ⟨hmod, -, hlow, hhigh⟩ := unwrap_some_spec h
  rcases lt_trichotomy m n.toNat with hlt | rfl | hgt
  · have hn : |(n.toNat : Int) - cp.toNat| ≤ 2 ^ 31 := abs_le.mpr ⟨by omega, by omega⟩
    have hbelow : (2 ^ 31 : Int) ≤ -((m : Int) - cp.toNat) := by omega
    exact ⟨hn.trans (hbelow.trans (neg_le_abs _)), fun _ => hlt.le⟩
  · exact ⟨le_rfl, fun _ => le_rfl⟩
  · have hn : |(n.toNat : Int) - cp.toNat| < (m : Int) - cp.toNat := abs_lt.mpr ⟨by omega, by omega⟩
    have hfar := hn.trans_le (le_abs_self _)
    exact ⟨hfar.le, fun heq => absurd heq hfar.ne⟩

/-- R109: `unwrap` gives back a number within `2^31` of the checkpoint, where it is not refused. -/
theorem unwrap_wrap {n m : Quad} (isn : Word) (hlow : n.toNat < m.toNat + 2 ^ 31) (hhigh : m.toNat ≤ n.toNat + 2 ^ 31)
    (hguard : ¬ (2 ^ 64 - 2 ^ 32 ≤ n.toNat ∧ m.toNat % 2 ^ 32 < n.toNat % 2 ^ 32)) :
    unwrap (wrap m isn) isn n = some m := by
  have hoff : m.toNat % 2 ^ 32 = (wrap m isn - isn).toNat := (wrap_eq_iff_offset m (wrap m isn) isn).mp rfl
  rw [hoff, ← unwrap_eq_none_iff] at hguard
  obtain ⟨r, hr⟩ := Option.ne_none_iff_exists'.mp hguard
  obtain ⟨hmod, -, hrlow, hrhigh⟩ := unwrap_some_spec hr
  have hrm : r = m := BitVec.eq_of_toNat_eq (by omega)
  rw [hr, hrm]

/-! ## The commands -/

/-- Settles O16: the guard is `unwrap_eq_none_iff`, the answer `unwrap_nearest`. -/
theorem wUnwrapAnswersTheNearest : Obligations.WUnwrapAnswersTheNearest := by
  unfold Obligations.WUnwrapAnswersTheNearest
  intro w isn cp s
  rw [← unwrap_eq_none_iff]
  refine ⟨decode_of_encode (o := 0x13#8) rfl rfl (by decide), fun hnone => exec_wUnwrap_of_none hnone s, fun hsome => ?_⟩
  obtain ⟨n, hn⟩ := Option.ne_none_iff_exists'.mp hsome
  obtain ⟨hmod, -⟩ := unwrap_some_spec hn
  exact ⟨n, exec_wUnwrap_of_some hn s, hmod, fun _ hm => unwrap_nearest hn hm⟩

/-- Settles O17: `unwrap_wrap`, at the checkpoint and near it, and `unwrap_nearest` among numbers of one wire form. -/
theorem unwrapInvertsWrap : Obligations.UnwrapInvertsWrap := by
  unfold Obligations.UnwrapInvertsWrap
  refine ⟨fun n isn => ?_, fun n m isn hlow hhigh hguard => ?_, fun w isn cp r hr => ⟨?_, fun r' hr' => ?_⟩⟩
  · exact unwrap_wrap isn (by omega) (by omega) (by omega)
  · exact unwrap_wrap isn (by omega) (by omega) hguard
  · exact (wrap_eq_iff_offset r w isn).mpr (unwrap_some_spec hr).left
  · exact (unwrap_nearest hr ((wrap_eq_iff_offset r' w isn).mp hr')).left

/-- Settles O14: the difference is `diff32`. -/
theorem wDiffAnswersTheSignedDifference : Obligations.WDiffAnswersTheSignedDifference := by
  unfold Obligations.WDiffAnswersTheSignedDifference
  intro a b s
  have hword : BitVec.ofInt 32 (diff32 a b) = BitVec.ofNat 32 ((a.toNat + 2 ^ 32 - b.toNat) % 2 ^ 32) := by
    rw [ofInt_diff32]
    apply BitVec.eq_of_toNat_eq
    rw [BitVec.toNat_sub, BitVec.toNat_ofNat]
    omega
  exact ⟨decode_of_encode (o := 0x11#8) rfl rfl (by decide), diff32 a b, BitVec.le_toInt _, BitVec.toInt_lt, exec_wDiff a b s, hword,
    add32_ofInt_diff32 a b, fun _ hlo hhi hadd => eq_diff32_of_add32 hlo hhi hadd, diff32_of_half_apart⟩

/-- Settles O13: the word is `add32`. -/
theorem wAddAnswersTheWrappedSum : Obligations.WAddAnswersTheWrappedSum := by
  unfold Obligations.WAddAnswersTheWrappedSum
  exact fun w off s => ⟨decode_of_encode (o := 0x10#8) rfl rfl (by decide), exec_wAdd w off s⟩

/-- Settles O15: the word is `wrap`, which the high word does not reach. -/
theorem wWrapAnswersTheWireNumber : Obligations.WWrapAnswersTheWireNumber := by
  unfold Obligations.WWrapAnswersTheWireNumber
  intro lo hi isn s
  have henc : encode (.wWrap (hi ++ lo) isn) = ⟨mkHeader 0x12#8 0#4 0#4 0#16, [lo, hi, isn]⟩ := by
    simp only [encode, Instr.operands, quadWords_append]
    rfl
  have hword : wrap (hi ++ lo) isn = BitVec.ofNat 32 ((isn.toNat + lo.toNat) % 2 ^ 32) := by
    have hlow : (hi ++ lo).toNat % 2 ^ 32 = lo.toNat := by
      rw [BitVec.toNat_append, ← Nat.shiftLeft_add_eq_or_of_lt lo.isLt, Nat.shiftLeft_eq]
      omega
    rw [wrap, hlow]
  exact ⟨decode_of_encode rfl henc (by decide), by rw [exec_wWrap, hword]⟩

end Sys2Proof.Machine

/-! # Unit F

R120 to R135: what each command of the unit answers in a configured state, from the operation it calls. Then what a FIFO
keeps under every operation but its creation, read off the effects of a command. -/

namespace Sys2Proof.Machine

/-! ## Responses -/

/-- R291: a refusal answers its header word alone. -/
theorem refuse_header {opcode : BitVec 8} {st : Status} {h : Word} (hheader : respHeader opcode st 0 = h) (s : State) :
    refuse opcode st s = .next (s.respond ⟨h, []⟩) := by
  rw [refuse_eq, refusalFrame, hheader]

/-! ## A write (R123) -/

theorem write_of_ended {f : Fifo} (h : f.inputEnded = true) (data : List Byte) : f.write data = some (f, 0) :=
  if_pos h

theorem write_of_open {f : Fifo} {data : List Byte} {k : Nat} (hopen : f.inputEnded = false)
    (hk : k = min data.length f.remaining) (hfit : f.bw.toNat + k < 2 ^ 64) :
    f.write data = some (f.append data k, k) := by
  rw [Fifo.write, if_neg (by simp [hopen]), ← hk]
  exact if_neg (by omega)

/-- Byte `j` of an append that goes round at most once is read back `j` cells behind `WP`. -/
theorem memRead_append_written {f : Fifo} {data : List Byte} {k j : Nat} (hwf : Mem.wf f.mem = true)
    (hlen : k ≤ data.length) (hcap : k ≤ f.cap.toNat) (hj : j < k) :
    some (memRead (f.append data k).mem ((f.wp.toNat + j) % f.cap.toNat)) = data[j]? := by
  have htake : (data.take k).length = k := List.length_take_of_le hlen
  rw [fifoAppend_mem, memRead_memWriteRun_same hwf (by omega) (by omega), List.getElem_take, List.getElem?_eq_getElem]

/-- An append leaves every cell that none of its bytes goes to. -/
theorem memRead_append_other {f : Fifo} {data : List Byte} {k c : Nat} (hwf : Mem.wf f.mem = true)
    (hlen : k ≤ data.length) (hc : ∀ j, j < k → c ≠ (f.wp.toNat + j) % f.cap.toNat) :
    memRead (f.append data k).mem c = memRead f.mem c := by
  rw [fifoAppend_mem]
  refine memRead_memWriteRun_other hwf fun j hj => hc j ?_
  rwa [List.length_take_of_le hlen] at hj

/-! ## The commands -/

/-- R128, R159: the capacities an INIT refuses. -/
theorem capBad_eq_true_iff (p : Params) (cap : Word) :
    capBad p cap = true ↔ cap.toNat = 0 ∨ p.capMax.toNat < cap.toNat := by
  rw [capBad, decide_eq_true_iff, ← BitVec.toNat_inj]
  rfl

theorem exec_fInit_owner (cap : Word) (s : State) : exec (.fInit .f1 cap) s = .next (s.respond ⟨0x20040000#32, []⟩) :=
  refuse_header (opcode := 0x20#8) (st := .errOwner) (by decide) s

theorem exec_fInit_of_capBad {cap : Word} {s : State} (h : capBad s.params cap = true) :
    exec (.fInit .f0 cap) s = .next (s.respond ⟨0x20030000#32, []⟩) :=
  (if_pos h).trans (refuse_header (opcode := 0x20#8) (st := .errArg) (by decide) s)

theorem exec_fInit_of_capGood {cap : Word} {s : State} (h : capBad s.params cap = false) :
    exec (.fInit .f0 cap) s =
      .next (({ s with f0 := s.f0.init cap, cfgd := cfgdWith .fifo0 s } : State).respond ⟨0x20000000#32, []⟩) :=
  (if_neg (by simp [h])).trans (complete_words (opcode := 0x20#8) (by decide) _ _)

theorem exec_fWrite_of_none {data : List Byte} {s : State} (hcfg : configured .fifo0 s = true)
    (hw : s.f0.write data = none) : exec (.fWrite .f0 data) s = .next (s.respond ⟨0x21070000#32, []⟩) := by
  simp only [exec, execFWrite, cfgOfFifo, hcfg, hw, Bool.not_true, Bool.false_eq_true, if_false, reduceCtorEq]
  exact refuse_header (opcode := 0x21#8) (by decide) s

theorem exec_fWrite_of_some {data : List Byte} {s : State} {f : Fifo} {k : Nat} (hcfg : configured .fifo0 s = true)
    (hw : s.f0.write data = some (f, k)) :
    exec (.fWrite .f0 data) s =
      .next (({ s with f0 := f } : State).respond ⟨0x21000000#32, [BitVec.ofNat 32 k]⟩) := by
  simp only [exec, execFWrite, cfgOfFifo, hcfg, hw, Bool.not_true, Bool.false_eq_true, if_false, reduceCtorEq]
  exact complete_words (opcode := 0x21#8) (by decide) _ _

theorem exec_fPeek {id : FifoId} {s : State} (hcfg : configured (cfgOfFifo id) s = true) (n : BitVec 16) :
    exec (.fPeek id n) s = complete 0x22#8 [] ((s.fifo id).peek n.toNat) s :=
  if_neg (by simp [hcfg])

theorem exec_fPop {id : FifoId} {s : State} (hcfg : configured (cfgOfFifo id) s = true) (n : BitVec 16) :
    exec (.fPop id n) s =
      .next ((s.setFifo id ((s.fifo id).pop n.toNat)).respond
        ⟨0x23000000#32, [BitVec.ofNat 32 ((s.fifo id).popCount n.toNat)]⟩) :=
  (if_neg (by simp [hcfg])).trans (complete_words (opcode := 0x23#8) (by decide) _ _)

theorem exec_fEnd {s : State} (hcfg : configured .fifo0 s = true) :
    exec (.fEnd .f0) s = .next (({ s with f0 := s.f0.endInput } : State).respond ⟨0x24000000#32, []⟩) :=
  (if_neg (by simp [cfgOfFifo, hcfg])).trans (complete_words (opcode := 0x24#8) (by decide) _ _)

theorem exec_fSetErr {id : FifoId} {s : State} (hcfg : configured (cfgOfFifo id) s = true) :
    exec (.fSetErr id) s = .next ((s.setFifo id (s.fifo id).setError).respond ⟨0x25000000#32, []⟩) :=
  (if_neg (by simp [hcfg])).trans (complete_words (opcode := 0x25#8) (by decide) _ _)

/-! ## The statements, one command at a time -/

/-- Settles O19: `F_write` ends at once, is refused by its guard, or appends. -/
theorem fWriteAppendsTheAcceptedPrefix : Obligations.FWriteAppendsTheAcceptedPrefix := by
  unfold Obligations.FWriteAppendsTheAcceptedPrefix
  intro data s k hcfg hwf hk
  have hk : k = min data.length s.f0.remaining := hk
  refine ⟨fun hended => ?_, fun hopen hfull => ?_, fun hopen hfit => ?_⟩
  · exact exec_fWrite_of_some hcfg (write_of_ended hended data)
  · exact exec_fWrite_of_none hcfg ((write_eq_none_iff _ _).mpr ⟨hopen, hk ▸ hfull⟩)
  · have hlen : k ≤ data.length := hk ▸ Nat.min_le_left _ _
    have hcap : k ≤ s.f0.cap.toNat := hk ▸ (Nat.min_le_right _ _).trans (Nat.sub_le _ _)
    refine ⟨(s.f0.append data k).mem, ?_, ?_, ?_, ?_⟩
    · exact exec_fWrite_of_some hcfg (write_of_open hopen hk hfit)
    · exact memWf_memWriteRun _ _ _ hwf
    · exact fun j hj => memRead_append_written hwf hlen hcap hj
    · exact fun c hc => memRead_append_other hwf hlen hc

/-- Settles O20: the bytes are those of `peek_eq_map`, packed as R73 says. -/
theorem fPeekReturnsTheOldestBytes : Obligations.FPeekReturnsTheOldestBytes := by
  unfold Obligations.FPeekReturnsTheOldestBytes
  intro id n s hcfg
  rw [exec_fPeek hcfg, complete_eq, okFrame, length_peek, pack_eq_paddedWords, peek_eq_map]
  rfl

/-- Settles O21. -/
theorem fPopRemovesTheOldestBytes : Obligations.FPopRemovesTheOldestBytes := by
  unfold Obligations.FPopRemovesTheOldestBytes
  refine fun n s k => ⟨fun hcfg hk => ?_, fun hcfg hk => ?_⟩ <;> subst hk
  · exact exec_fPop (id := .f0) hcfg n
  · exact exec_fPop (id := .f1) hcfg n

/-- Settles O22. -/
theorem fEndAndFSetErrSetTheirFlag : Obligations.FEndAndFSetErrSetTheirFlag := by
  unfold Obligations.FEndAndFSetErrSetTheirFlag
  exact fun s => ⟨exec_fEnd, exec_fSetErr (id := .f0), exec_fSetErr (id := .f1)⟩

/-- Settles O18: the clauses are the checks of R128, owner first. -/
theorem fInitCreatesAnEmptyFifo : Obligations.FInitCreatesAnEmptyFifo := by
  unfold Obligations.FInitCreatesAnEmptyFifo
  intro cap s
  refine ⟨decode_of_encode (o := 0x20#8) rfl rfl (by decide), ?_, exec_fInit_owner cap s, fun hbad => ?_,
    fun hpos hmax => ?_⟩
  · have hheader : mkHeader 0x20#8 1#4 0#4 0#16 = 0x20100000#32 := by decide
    rw [← hheader]
    exact decodeEncodeRoundTrip (.fInit .f1 cap) rfl
  · exact exec_fInit_of_capBad ((capBad_eq_true_iff _ _).mpr hbad)
  · refine exec_fInit_of_capGood ?_
    rw [← Bool.not_eq_true, capBad_eq_true_iff]
    omega

/-! ## What a FIFO keeps (R120, R135) -/

/-- Once closed, a FIFO stays closed and accepts no byte; once set, its error flag stays set. -/
structure Sticky (f g : Fifo) : Prop where
  closed : f.inputEnded = true → g.inputEnded = true ∧ g.bw = f.bw
  failed : f.errorFlag = true → g.errorFlag = true

theorem Sticky.refl (f : Fifo) : Sticky f f := ⟨fun h => ⟨h, rfl⟩, id⟩

theorem Sticky.trans {f f' f'' : Fifo} (h : Sticky f f') (h' : Sticky f' f'') : Sticky f f'' where
  closed hended := by
    obtain ⟨hended', hbw⟩ := h.closed hended
    obtain ⟨hended'', hbw'⟩ := h'.closed hended'
    exact ⟨hended'', hbw'.trans hbw⟩
  failed := h'.failed ∘ h.failed

theorem sticky_endInput (f : Fifo) : Sticky f f.endInput :=
  ⟨fun _ => ⟨inputEnded_endInput f, rfl⟩, (errorFlag_endInput f).trans⟩

theorem sticky_setError (f : Fifo) : Sticky f f.setError :=
  ⟨fun h => ⟨(inputEnded_setError f).trans h, rfl⟩, fun _ => errorFlag_setError f⟩

theorem sticky_pop (f : Fifo) (n : Nat) : Sticky f (f.pop n) := ⟨fun h => ⟨h, rfl⟩, id⟩

/-- R123: only an open FIFO is appended to. -/
theorem sticky_write {f f' : Fifo} {data : List Byte} {k : Nat} (h : f.write data = some (f', k)) : Sticky f f' := by
  obtain ⟨-, rfl, -⟩ | ⟨hopen, -, -, rfl⟩ := write_cases h
  · exact .refl _
  · exact ⟨fun hended => absurd (hopen.symm.trans hended) (by decide), id⟩

theorem FifoCmd.sticky {i : Instr} {id : FifoId} {f f' : Fifo} (h : FifoCmd i id f f') : Sticky f f' := by
  cases h with
  | write hw => exact sticky_write hw
  | pop id n => exact sticky_pop f _
  | endInput => exact sticky_endInput f
  | setError id => exact sticky_setError f

/-- R156: the delivery loop is a sequence of writes. -/
theorem sticky_deliver {seg rest : List Seg} {f f' : Fifo} {next next' : Quad}
    (h : deliver seg f next = some (rest, f', next')) : Sticky f f' := by
  induction seg generalizing f next with
  | nil => cases h; exact .refl _
  | cons g gs ih =>
    unfold deliver at h
    split at h
    · split at h
      · cases h
      · next hw => exact (sticky_write hw).trans (ih h)
    · cases h
      exact .refl _

theorem sticky_pushData {s : State} {index : Quad} {data : List Byte} {seg : List Seg} {f : Fifo} {next : Quad}
    (h : pushData s index data = some (seg, f, next)) : Sticky s.f1 f := by
  obtain ⟨-, -, rfl, -⟩ | ⟨-, hdel⟩ := pushData_cases h
  · exact .refl _
  · exact sticky_deliver hdel

theorem sticky_closeIfDone (hasEof : Bool) (seg : List Seg) (f : Fifo) : Sticky f (closeIfDone hasEof seg f) := by
  rw [closeIfDone_eq]
  split
  · exact sticky_endInput f
  · exact .refl _

/-- R120: only a FIFO's INIT and SRESET clear its flags and counters. -/
theorem Effect.sticky {s u : State} {i : Instr} {j : FifoId} (h : Effect s i u) (hreset : i ≠ .sreset)
    (hf : ∀ k cap, i = .fInit k cap → j = .f1) (hr : ∀ cap, i = .rInit cap → j = .f0) :
    Sticky (s.fifo j) (u.fifo j) := by
  cases h with
  | unchanged | tInit | timer | aInit | arp => cases j <;> exact .refl _
  | sreset => exact absurd rfl hreset
  | fInit =>
    obtain rfl := hf _ _ rfl
    exact .refl _
  | @fifo _ id _ hcfg h =>
    by_cases hid : j = id
    · subst hid
      rw [fifo_setFifo_same]
      exact h.sticky
    · rw [fifo_setFifo_other _ _ _ _ hid]
      exact .refl _
  | rInit =>
    obtain rfl := hr _ rfl
    exact .refl _
  | rPush eof hcfg hfit h =>
    cases j with
    | f0 => exact .refl _
    | f1 => exact (sticky_pushData h).trans (sticky_closeIfDone _ _ _)

/-- Settles O24: the response changes no FIFO, and every effect left is `Sticky`. -/
theorem closedFifoNeverGrows : Obligations.ClosedFifoNeverGrows := by
  unfold Obligations.ClosedFifoNeverGrows
  intro i j s t h hreset hf hr
  obtain ⟨u, fr, rfl, heff⟩ := exec_next_cases h
  obtain ⟨hclosed, hfailed⟩ := heff.sticky hreset hf hr
  rw [fifo_respond]
  exact ⟨hclosed, hfailed⟩

end Sys2Proof.Machine

/-! # Unit R

R150 to R160: where a merge puts the piece among the stored segments and which byte it leaves at every index, and from the
delivery loop's law what R.PUSH answers when the push is dropped, delivered, or meets a closed output. -/

namespace Sys2Proof.Machine

/-! ## The bytes of a store -/

theorem storedAt_append (x : Nat) (xs ys : List Seg) : storedAt x (xs ++ ys) = (storedAt x xs).or (storedAt x ys) := by
  induction xs with
  | nil => rfl
  | cons g gs ih =>
    simp only [List.cons_append, storedAt]
    split
    · next h =>
      have hin : x - g.start.toNat < g.data.length := by
        simp only [Seg.stop] at h
        omega
      rw [List.getElem?_eq_getElem hin, Option.some_or]
    · exact ih

/-- Segments that do not hold an index may be left out. -/
theorem storedAt_filter {x : Nat} {seg : List Seg} {p : Seg → Bool}
    (h : ∀ g ∈ seg, g.start.toNat ≤ x ∧ x < g.stop → p g = true) : storedAt x (seg.filter p) = storedAt x seg := by
  induction seg with
  | nil => rfl
  | cons g gs ih =>
    obtain ⟨hg, hgs⟩ := List.forall_mem_cons.mp h
    by_cases hp : p g = true
    · rw [List.filter_cons_of_pos hp, storedAt, storedAt, ih hgs]
    · rw [List.filter_cons_of_neg hp, storedAt, if_neg fun hx => hp (hg hx), ih hgs]

/-! ## Where a piece goes (R154, R155) -/

theorem SegsIn.pairwise {lo hi : Nat} {seg : List Seg} (h : SegsIn lo hi seg) :
    seg.Pairwise fun g g' => g.stop ≤ g'.start.toNat := by
  induction seg generalizing lo with
  | nil => exact .nil
  | cons g gs ih =>
    obtain ⟨-, -, -, hgs⟩ := h
    refine .cons (fun g' hg' => ?_) (ih hgs)
    obtain ⟨-, hafter, -⟩ := hgs.mem hg'
    exact hafter

/-- Ordered segments split at an index into those that begin below it and the others. -/
theorem SegsIn.split_at {lo hi : Nat} {seg : List Seg} (h : SegsIn lo hi seg) (s : Nat) :
    ∃ before after, seg = before ++ after ∧ (∀ g ∈ before, g.start.toNat < s) ∧ ∀ g ∈ after, s ≤ g.start.toNat := by
  induction seg generalizing lo with
  | nil => exact ⟨[], [], rfl, by simp, by simp⟩
  | cons g gs ih =>
    obtain ⟨hne, -, hhi, hgs⟩ := h
    by_cases hg : g.start.toNat < s
    · obtain ⟨before, after, rfl, hbefore, hafter⟩ := ih hgs
      exact ⟨g :: before, after, rfl, List.forall_mem_cons.mpr ⟨hg, hbefore⟩, hafter⟩
    · have hall : SegsIn g.start.toNat hi (g :: gs) := ⟨hne, Nat.le_refl _, hhi, hgs⟩
      refine ⟨[], g :: gs, rfl, by simp, fun x hx => ?_⟩
      obtain ⟨-, hx, -⟩ := hall.mem hx
      omega

/-- R155: insertion between the segments that begin before the piece and the others. -/
theorem insertSeg_append {p : Seg} {before after : List Seg} (hbefore : ∀ g ∈ before, g.start.toNat < p.start.toNat)
    (hafter : ∀ g ∈ after, p.start.toNat ≤ g.start.toNat) : insertSeg p (before ++ after) = before ++ p :: after := by
  induction before with
  | nil =>
    cases after with
    | nil => rfl
    | cons g gs => exact if_pos (hafter g (by simp))
  | cons g gs ih =>
    obtain ⟨hg, hgs⟩ := List.forall_mem_cons.mp hbefore
    rw [List.cons_append, insertSeg, if_neg (Nat.not_le.mpr hg), ih hgs, List.cons_append]

theorem truncFront_cases (seg : List Seg) (s : Nat) : truncFront seg s = s ∨
    ∃ g ∈ seg, (g.start.toNat < s ∧ s < g.stop) ∧ g.stop = truncFront seg s := by
  unfold truncFront
  split
  · next g hfind =>
    exact .inr ⟨g, List.mem_of_find?_eq_some hfind, by simpa [Seg.overFront] using List.find?_some hfind, rfl⟩
  · exact .inl rfl

theorem truncBack_cases (seg : List Seg) (e : Nat) : truncBack seg e = e ∨
    ∃ g ∈ seg, (g.start.toNat < e ∧ e < g.stop) ∧ g.start.toNat = truncBack seg e := by
  unfold truncBack
  split
  · next g hfind =>
    exact .inr ⟨g, List.mem_of_find?_eq_some hfind, by simpa [Seg.overBack] using List.find?_some hfind, rfl⟩
  · exact .inl rfl

/-- 5c: truncation cuts a piece behind every segment that begins before it. -/
theorem SegsIn.stop_le_truncFront {lo hi s : Nat} {seg : List Seg} (h : SegsIn lo hi seg) {g : Seg} (hg : g ∈ seg)
    (hstart : g.start.toNat < s) : g.stop ≤ truncFront seg s := by
  by_cases hover : s < g.stop
  · exact (h.truncFront_eq hg ⟨hstart, hover⟩).ge
  · exact (Nat.not_lt.mp hover).trans (le_truncFront seg s)

/-- 5c: truncation cuts a piece before every segment that ends behind it. -/
theorem SegsIn.truncBack_le_start {lo hi e : Nat} {seg : List Seg} (h : SegsIn lo hi seg) {g : Seg} (hg : g ∈ seg)
    (hstop : e < g.stop) : truncBack seg e ≤ g.start.toNat := by
  by_cases hover : g.start.toNat < e
  · exact (h.truncBack_eq hg ⟨hover, hstop⟩).le
  · exact (truncBack_le seg e).trans (Nat.not_lt.mp hover)

/-- The place `[a, b)` that the kept segments leave for the piece `[s, e)`: between those that begin below `s` and those
that end above `e`, cut only where one of them reaches into the piece. -/
structure PieceCut (s e : Nat) (before after : List Seg) (a b : Nat) : Prop where
  le_front : s ≤ a
  front_le_back : a ≤ b
  back_le : b ≤ e
  before_start : ∀ g ∈ before, g.start.toNat < s
  before_stop : ∀ g ∈ before, g.stop ≤ a
  after_start : ∀ g ∈ after, b ≤ g.start.toNat
  after_stop : ∀ g ∈ after, e < g.stop
  front : a = s ∨ ∃ g ∈ before, g.stop = a
  back : b = e ∨ ∃ g ∈ after, g.start.toNat = b

/-- 5c on segments that neither cover the piece nor are covered by it. -/
theorem SegsIn.pieceCut {lo hi s e : Nat} {kept : List Seg} (h : SegsIn lo hi kept) (hlt : s < e)
    (hcovers : ∀ g ∈ kept, ¬ (g.start.toNat ≤ s ∧ e ≤ g.stop))
    (hcovered : ∀ g ∈ kept, ¬ (s ≤ g.start.toNat ∧ g.stop ≤ e)) :
    ∃ before after, kept = before ++ after ∧
      PieceCut s e before after (truncFront kept s) (truncBack kept e) := by
  obtain ⟨before, after, rfl, hbefore, hafter⟩ := h.split_at s
  obtain ⟨-, -, hapart⟩ := List.pairwise_append.mp h.pairwise
  have hbeyond : ∀ g ∈ after, e < g.stop := fun g hg => by
    have := hafter g hg
    have := hcovered g (List.mem_append_right _ hg)
    omega
  have hfront : truncFront (before ++ after) s = s ∨ ∃ g ∈ before, g.stop = truncFront (before ++ after) s := by
    refine (truncFront_cases _ s).imp_right fun ⟨g, hg, hover, hstop⟩ => ⟨g, ?_, hstop⟩
    refine (List.mem_append.mp hg).resolve_right fun hin => ?_
    have := hafter g hin
    omega
  have hback : truncBack (before ++ after) e = e ∨ ∃ g ∈ after, g.start.toNat = truncBack (before ++ after) e := by
    refine (truncBack_cases _ e).imp_right fun ⟨g, hg, hover, hstart⟩ => ⟨g, ?_, hstart⟩
    refine (List.mem_append.mp hg).resolve_left fun hin => ?_
    have := hbefore g hin
    have := hcovers g hg
    omega
  refine ⟨before, after, rfl,
    { le_front := le_truncFront _ s
      front_le_back := ?_
      back_le := truncBack_le _ e
      before_start := hbefore
      before_stop := fun g hg => h.stop_le_truncFront (List.mem_append_left _ hg) (hbefore g hg)
      after_start := fun g hg => h.truncBack_le_start (List.mem_append_right _ hg) (hbeyond g hg)
      after_stop := hbeyond
      front := hfront
      back := hback }⟩
  rcases hback with hback | ⟨g', hg', hback⟩
  · rcases hfront with hfront | ⟨g, hg, hfront⟩
    · omega
    · have := hbefore g hg
      have := hcovers g (List.mem_append_left _ hg)
      omega
  · have := hafter g' hg'
    rcases hfront with hfront | ⟨g, hg, hfront⟩
    · omega
    · have := hapart g hg g' hg'
      omega

/-- What is left of a piece cut to `[a, b)`: one segment, or none. -/
def cutPiece (index : Nat) (data : List Byte) (a b : Nat) : List Seg :=
  if a < b then [⟨BitVec.ofNat 64 a, pieceData index data a b⟩] else []

theorem storedAt_cutPiece {index a b : Nat} {data : List Byte} (hindex : index ≤ a) (hlen : b ≤ index + data.length)
    (hb : b < 2 ^ 64) (x : Nat) :
    storedAt x (cutPiece index data a b) = if a ≤ x ∧ x < b then data[x - index]? else none := by
  by_cases hab : a < b
  · have hstart : (BitVec.ofNat 64 a).toNat = a := by rw [BitVec.toNat_ofNat, Nat.mod_eq_of_lt (by omega)]
    rw [cutPiece, if_pos hab, storedAt, Seg.stop, hstart, length_pieceData hindex hlen, Nat.add_sub_cancel' hab.le]
    refine ite_congr rfl (fun hx => ?_) fun _ => rfl
    rw [pieceData, List.getElem?_take_of_lt (by omega), List.getElem?_drop]
    congr 1
    omega
  · rw [cutPiece, if_neg hab, if_neg (by omega), storedAt]

section

variable {s e a b index : Nat} {before after : List Seg} {data : List Byte}

/-- No kept segment holds an index of the place. -/
theorem PieceCut.storedAt_eq_none (h : PieceCut s e before after a b) {x : Nat} (hx : a ≤ x ∧ x < b) :
    storedAt x (before ++ after) = none := by
  refine (storedAt_eq_none_iff _ _).mpr fun g hg hin => ?_
  rcases List.mem_append.mp hg with hg | hg
  · have := h.before_stop g hg
    omega
  · have := h.after_start g hg
    omega

/-- The kept segments hold every index of the piece that the cut takes from it. -/
theorem PieceCut.storedAt_ne_none (h : PieceCut s e before after a b) {x : Nat} (hx : s ≤ x ∧ x < e)
    (hout : ¬ (a ≤ x ∧ x < b)) : storedAt x (before ++ after) ≠ none := by
  intro hnone
  have hnone := (storedAt_eq_none_iff _ _).mp hnone
  by_cases hxa : x < a
  · obtain rfl | ⟨g, hg, rfl⟩ := h.front
    · omega
    · have := h.before_start g hg
      exact hnone g (List.mem_append_left _ hg) (by omega)
  · obtain rfl | ⟨g, hg, rfl⟩ := h.back
    · omega
    · have := h.after_stop g hg
      exact hnone g (List.mem_append_right _ hg) (by omega)

/-- Inside the piece the kept segments' bytes stay and the piece's own fill the rest; outside nothing is added. -/
theorem PieceCut.storedAt (h : PieceCut s e before after a b) (hindex : index ≤ s) (hlen : e ≤ index + data.length)
    (he : e < 2 ^ 64) (x : Nat) : storedAt x (before ++ cutPiece index data a b ++ after) =
      if s ≤ x ∧ x < e then (storedAt x (before ++ after)).or data[x - index]? else storedAt x (before ++ after) := by
  have hle := h.le_front
  have hge := h.back_le
  rw [storedAt_append, storedAt_append, storedAt_cutPiece (hindex.trans hle) (hge.trans hlen) (by omega)]
  by_cases hin : a ≤ x ∧ x < b
  · have hnone := h.storedAt_eq_none hin
    rw [if_pos hin, if_pos (by omega), hnone]
    rw [storedAt_append, Option.or_eq_none_iff] at hnone
    obtain ⟨hbefore, hafter⟩ := hnone
    rw [hbefore, hafter, Option.or_none]
  · rw [if_neg hin, Option.or_none, ← storedAt_append]
    split
    · next hx =>
      obtain ⟨v, hv⟩ := Option.ne_none_iff_exists'.mp (h.storedAt_ne_none hx hin)
      rw [hv, Option.some_or]
    · rfl

/-- R155: the cut piece goes to its place by insertion, unless nothing of it is left. -/
theorem PieceCut.append_cutPiece (h : PieceCut s e before after a b) (he : e < 2 ^ 64) (index : Nat) (data : List Byte) :
    before ++ cutPiece index data a b ++ after =
      if a < b then insertSeg ⟨BitVec.ofNat 64 a, pieceData index data a b⟩ (before ++ after) else before ++ after := by
  have hle := h.le_front
  have hge := h.back_le
  unfold cutPiece
  split
  · next hab =>
    have hstart : (BitVec.ofNat 64 a).toNat = a := by rw [BitVec.toNat_ofNat, Nat.mod_eq_of_lt (by omega)]
    rw [insertSeg_append, List.append_assoc, List.singleton_append]
    · exact fun g hg => ((h.before_start g hg).trans_le hle).trans_eq hstart.symm
    · exact fun g hg => (hstart.trans_le hab.le).trans (h.after_start g hg)
  · rw [List.append_nil]

/-- A cut piece keeps the segments non-empty, in order, disjoint and inside the window. -/
theorem PieceCut.segsIn {lo hi : Nat} (h : PieceCut s e before after a b) (hkept : SegsIn lo hi (before ++ after))
    (hlo : lo ≤ s) (hhi : e ≤ hi) (hindex : index ≤ s) (hlen : e ≤ index + data.length) (he : e < 2 ^ 64) :
    SegsIn lo hi (before ++ cutPiece index data a b ++ after) := by
  have hle := h.le_front
  have hge := h.back_le
  rw [h.append_cutPiece he]
  split
  · next hab =>
    have hstart : (BitVec.ofNat 64 a).toNat = a := by rw [BitVec.toNat_ofNat, Nat.mod_eq_of_lt (by omega)]
    have hdata := length_pieceData (data := data) (hindex.trans hle) (hge.trans hlen)
    have hstop : (⟨BitVec.ofNat 64 a, pieceData index data a b⟩ : Seg).stop = b := by
      rw [Seg.stop, hstart, hdata, Nat.add_sub_cancel' hab.le]
    refine hkept.insertSeg (List.ne_nil_of_length_pos (by rw [hdata]; omega)) ?_ (hstop.trans_le (hge.trans hhi))
      fun g hg => ?_
    · exact (hlo.trans hle).trans_eq hstart.symm
    · rw [hstart, hstop]
      exact (List.mem_append.mp hg).imp (h.before_stop g) (h.after_start g)
  · exact hkept

end

/-- 5b as a condition on indices. -/
theorem filter_not_coveredBy (seg : List Seg) (s e : Nat) : (seg.filter fun g => !g.coveredBy s e) =
    seg.filter fun g => ¬ (s ≤ g.start.toNat ∧ g.stop ≤ e) := by
  simp only [Seg.coveredBy, Bool.decide_and, decide_not]

/-- Steps 5 and 6's insertion (R154, R155) of a piece that no segment covers: the cut piece goes into its place among the
kept segments. -/
theorem SegsIn.mergePiece_eq {lo hi s e : Nat} {seg : List Seg} (h : SegsIn lo hi seg) (index : Nat) (data : List Byte)
    (hlt : s < e) (he : e < 2 ^ 64) (hcovers : ∀ g ∈ seg, ¬ (g.start.toNat ≤ s ∧ e ≤ g.stop)) :
    ∃ before after a b, (seg.filter fun g => ¬ (s ≤ g.start.toNat ∧ g.stop ≤ e)) = before ++ after ∧
      PieceCut s e before after a b ∧
      Machine.mergePiece seg index data s e = before ++ cutPiece index data a b ++ after := by
  obtain ⟨before, after, hkept, hcut⟩ := (h.filter fun g => ¬ (s ≤ g.start.toNat ∧ g.stop ≤ e)).pieceCut hlt
    (fun g hg => hcovers g (List.mem_of_mem_filter hg))
    (fun g hg => by simpa only [decide_eq_true_eq] using List.of_mem_filter hg)
  refine ⟨before, after, _, _, hkept, hcut, ?_⟩
  rw [mergePiece_of_stored hlt hcovers, Machine.storePiece, filter_not_coveredBy, hkept]
  exact ((hkept ▸ hcut).append_cutPiece he index data).symm

/-- Settles O27: a discarded piece changes nothing, and any other is cut to its place among the kept segments. -/
theorem mergeKeepsTheRightBytes : Obligations.MergeKeepsTheRightBytes := by
  unfold Obligations.MergeKeepsTheRightBytes
  intro lo hi seg kept index data s e h hlo hhi hindex hlen he hkept
  by_cases hstored : s < e ∧ ∀ g ∈ seg, ¬ (g.start.toNat ≤ s ∧ e ≤ g.stop)
  · obtain ⟨hlt, hcovers⟩ := hstored
    obtain ⟨before, after, a, b, hsplit, hcut, hmerge⟩ := h.mergePiece_eq index data hlt he hcovers
    have hsplit : kept = before ++ after := hkept.trans hsplit
    have hin : SegsIn lo hi kept := hkept ▸ h.filter _
    rw [hmerge]
    refine ⟨hcut.segsIn (hsplit ▸ hin) hlo hhi hindex hlen he, ?_, fun _ _ => ?_, fun x => ?_⟩
    · rintro (hle | ⟨g, hg, hg'⟩)
      · omega
      · exact absurd hg' (hcovers g hg)
    · exact ⟨before, after, a, b, hsplit, hcut.le_front, hcut.front_le_back, hcut.back_le, hcut.before_stop,
        hcut.after_start, hcut.front, hcut.back, rfl⟩
    · rw [hcut.storedAt hindex hlen he, ← hsplit]
      by_cases hx : s ≤ x ∧ x < e
      · obtain ⟨hsx, hxe⟩ := hx
        rw [if_pos ⟨hsx, hxe⟩, if_pos ⟨hsx, hxe, hcovers⟩]
      · rw [if_neg hx, if_neg fun ⟨hsx, hxe, _⟩ => hx ⟨hsx, hxe⟩, hkept]
        refine storedAt_filter fun g hg hgx => ?_
        simp only [decide_eq_true_eq]
        omega
  · have hdiscard : e ≤ s ∨ ∃ g ∈ seg, g.start.toNat ≤ s ∧ e ≤ g.stop := by
      by_contra hnot
      obtain ⟨hlt, hcovers⟩ := not_or.mp hnot
      exact hstored ⟨by omega, fun g hg hc => hcovers ⟨g, hg, hc⟩⟩
    rw [mergePiece_of_discarded hdiscard]
    refine ⟨h, fun _ => rfl, fun hlt hcovers => absurd ⟨hlt, hcovers⟩ hstored, fun x => ?_⟩
    rw [if_neg]
    rintro ⟨hsx, hxe, hcovers⟩
    exact hstored ⟨by omega, hcovers⟩

/-! ## The commands -/

theorem exec_rInit_of_capBad {cap : Word} {s : State} (h : capBad s.params cap = true) :
    exec (.rInit cap) s = .next (s.respond ⟨0x30030000#32, []⟩) :=
  (if_pos h).trans (refuse_header (opcode := 0x30#8) (st := .errArg) (by decide) s)

theorem exec_rInit_of_capGood {cap : Word} {s : State} (h : capBad s.params cap = false) :
    exec (.rInit cap) s =
      .next (({ s with
        r := { cap := cap, next := 0#64, hasEof := false, seg := [] }
        f1 := s.f1.init cap
        cfgd := cfgdWith .reasm s } : State).respond ⟨0x30000000#32, []⟩) :=
  (if_neg (by simp [h])).trans (complete_words (opcode := 0x30#8) (by decide) _ _)

section

variable {eof : Bool} {index : Quad} {data : List Byte} {s : State}

/-- R160: a push answers by how much it moved `NEXT`. -/
theorem exec_rPush {seg : List Seg} {f : Fifo} {next : Quad} (hcfg : configured .reasm s = true)
    (hfit : index.toNat + data.length < 2 ^ 64) (hpush : pushData s index data = some (seg, f, next)) :
    exec (.rPush eof index data) s =
      .next (({ s with
        r := { s.r with hasEof := s.r.hasEof || eof, seg := seg, next := next }
        f1 := closeIfDone (s.r.hasEof || eof) seg f } : State).respond
          ⟨0x31000000#32, [BitVec.ofNat 32 (next.toNat - s.r.next.toNat)]⟩) := by
  simp only [exec, execRPush, hcfg, hpush, Bool.not_true, Bool.false_eq_true, if_false, if_neg (Nat.not_le.mpr hfit)]
  exact complete_words (opcode := 0x31#8) (by decide) _ _

/-- R152's three conditions on a push. -/
theorem dropped_push_iff : dropped index.toNat data.length s.r.next.toNat (funacc s) = true ↔
    data = [] ∨ index.toNat + data.length ≤ s.r.next.toNat ∨
      s.r.next.toNat + (s.f1.cap.toNat - (s.f1.bw.toNat - s.f1.br.toNat)) ≤ index.toNat := by
  rw [dropped_iff, List.length_eq_zero_iff]
  rfl

theorem pushData_of_dropped (h : dropped index.toNat data.length s.r.next.toNat (funacc s) = true) :
    pushData s index data = some (s.r.seg, s.f1, s.r.next) :=
  if_pos h

/-- The store of a push that is not dropped, after the insertion of step 6 (R153 to R155). -/
def mergedStore (s : State) (index : Quad) (data : List Byte) : List Seg :=
  mergePiece s.r.seg index.toNat data (max index.toNat s.r.next.toNat) (min (index.toNat + data.length) (funacc s))

theorem pushData_of_not_dropped (h : ¬ dropped index.toNat data.length s.r.next.toNat (funacc s) = true) :
    pushData s index data = deliver (mergedStore s index data) s.f1 s.r.next :=
  if_neg h

/-- Steps 4 to 6's insertion keeps R29, inside any window that reaches `FUNACC`. -/
theorem ReasmOk.segsIn_mergedStore {hi : Nat} (h : ReasmOk s) (hfit : index.toNat + data.length < 2 ^ 64)
    (hbr : s.f1.br.toNat + s.r.cap.toNat ≤ hi) (hfu : funacc s ≤ hi) :
    SegsIn s.r.next.toNat hi (mergedStore s index data) ∧ ∀ g ∈ mergedStore s index data, g.stop < 2 ^ 64 :=
  (h.segsIn.mono_hi hbr).mergePiece h.stopsFit (Nat.le_max_right _ _) (Nat.le_max_left _ _)
    ((Nat.min_le_right _ _).trans hfu) (Nat.min_le_left _ _) ((Nat.min_le_left _ _).trans_lt hfit)

end

/-- R157 as a change of the flags alone. -/
theorem closeIfDone_eq_flags (hasEof : Bool) (seg : List Seg) (f : Fifo) : closeIfDone hasEof seg f =
    { f with flags := if hasEof = true ∧ seg = [] then f.flags ||| 0b01#2 else f.flags } := by
  rw [closeIfDone_eq]
  split <;> rfl

/-- R157 on a closed output. -/
theorem closeIfDone_of_ended {f : Fifo} (h : f.inputEnded = true) (hasEof : Bool) (seg : List Seg) :
    closeIfDone hasEof seg f = f := by
  rw [closeIfDone_eq, endInput_of_ended h, ite_self]

/-- Only the first of segments that begin at `next` or later can begin there, so removing it removes all. -/
theorem SegsIn.dropWhile_start_eq_filter {next : Quad} {hi : Nat} {seg : List Seg} (h : SegsIn next.toNat hi seg) :
    (seg.dropWhile fun g => g.start = next) = seg.filter fun g => g.start ≠ next := by
  obtain ⟨-, hrest⟩ := h.dropWhile_start
  have htaken : ((seg.takeWhile fun g => g.start = next).filter fun g => g.start ≠ next) = [] :=
    List.filter_eq_nil_iff.mpr fun g hg => by simpa using List.mem_takeWhile_imp hg
  have hleft : ((seg.dropWhile fun g => g.start = next).filter fun g => g.start ≠ next) =
      seg.dropWhile fun g => g.start = next := List.filter_eq_self.mpr fun g hg => by simpa using hrest g hg
  conv_rhs => rw [← List.takeWhile_append_dropWhile (p := fun g => g.start = next) (l := seg)]
  rw [List.filter_append, htaken, hleft, List.nil_append]

/-! ## The statements, one outcome at a time -/

/-- Settles O28: the prefix is that of `deliver_spec`, on the merged store. -/
theorem rPushDeliversTheContiguousPrefix : Obligations.RPushDeliversTheContiguousPrefix := by
  unfold Obligations.RPushDeliversTheContiguousPrefix
  intro eof index data s merged hf hr hcfg hopen hfit hne hnext hfu hmerged
  have hmerged : merged = mergedStore s index data := hmerged
  subst hmerged
  have hkept : ¬ dropped index.toNat data.length s.r.next.toNat (funacc s) = true := by
    rw [dropped_push_iff]
    rintro (hnil | hbelow | hbeyond)
    · exact hne hnil
    · omega
    · omega
  obtain ⟨hin, hstops⟩ := hr.segsIn_mergedStore (data := data) hfit (hr.funacc_eq hf).ge (Nat.le_refl _)
  obtain ⟨bytes, seg, hlen, hlt, hdel, -, -, hbytes, hend, hrest⟩ :=
    deliver_spec hin hstops hopen hr.nextEq (by rw [funacc, hr.nextEq]) hf
  have hword : (BitVec.ofNat 64 (s.r.next.toNat + bytes.length)).toNat - s.r.next.toNat = bytes.length := by
    rw [BitVec.toNat_ofNat, Nat.mod_eq_of_lt hlt, Nat.add_sub_cancel_left]
  refine ⟨bytes.length, (s.f1.append bytes bytes.length).mem, seg, ?_, hlen, fun x hx hxn => ?_, hend,
    deliver_suffix hdel, hrest, fun c hc => ?_⟩
  · rw [exec_rPush hcfg hfit ((pushData_of_not_dropped hkept).trans hdel), closeIfDone_eq_flags, hword]
    rfl
  · rw [memRead_append_written hf.memWf (Nat.le_refl _) (hlen.trans (Nat.sub_le _ _)) (by omega),
      ← hbytes _ (by omega), Nat.add_sub_cancel' hx]
  · exact memRead_append_other hf.memWf (Nat.le_refl _) hc

/-- Settles O29: a closed output takes nothing, so the loop only removes what begins at `NEXT`. -/
theorem rPushAfterCloseDeliversNothing : Obligations.RPushAfterCloseDeliversNothing := by
  unfold Obligations.RPushAfterCloseDeliversNothing
  intro eof index data s fu seg hr hcfg hended hfit hfu hseg
  have hpush : pushData s index data = some (seg, s.f1, s.r.next) ∧ ∀ g ∈ seg, g.start ≠ s.r.next := by
    subst hfu hseg
    split
    · next hdrop => exact ⟨pushData_of_dropped (dropped_push_iff.mpr hdrop), hr.noneAtNext⟩
    · next hkept =>
      obtain ⟨hin, -⟩ := hr.segsIn_mergedStore (data := data) hfit (Nat.le_max_left _ (funacc s)) (Nat.le_max_right _ _)
      rw [pushData_of_not_dropped (mt dropped_push_iff.mp hkept), deliver_of_ended hended, hin.dropWhile_start_eq_filter]
      exact ⟨rfl, fun g hg => by simpa using List.of_mem_filter hg⟩
  obtain ⟨hpush, hnone⟩ := hpush
  refine ⟨?_, hnone⟩
  rw [exec_rPush hcfg hfit hpush, closeIfDone_of_ended hended, Nat.sub_self]

/-- Settles O26: a dropped push goes from step 3 to step 7, with the store, the output and `NEXT` as they were. -/
theorem rPushOutsideTheWindowIsDropped : Obligations.RPushOutsideTheWindowIsDropped := by
  unfold Obligations.RPushOutsideTheWindowIsDropped
  intro eof index data s hcfg hfit hout
  rw [exec_rPush hcfg hfit (pushData_of_dropped (dropped_push_iff.mpr hout)), closeIfDone_eq, Nat.sub_self]
  rfl

/-- Settles O25: the clauses are the checks of R159. -/
theorem rInitCreatesTheReassembler : Obligations.RInitCreatesTheReassembler := by
  unfold Obligations.RInitCreatesTheReassembler
  intro cap s
  refine ⟨decode_of_encode (o := 0x30#8) rfl rfl (by decide), fun hbad => ?_, fun hpos hmax => ?_⟩
  · exact exec_rInit_of_capBad ((capBad_eq_true_iff _ _).mpr hbad)
  · refine exec_rInit_of_capGood ?_
    rw [← Bool.not_eq_true, capBad_eq_true_iff]
    omega

end Sys2Proof.Machine

/-! # Unit T

R182 to R200: what each command of the unit answers in a configured state, one equation per outcome. Then the queue that
an acknowledgement leaves, once as the loop pops it and once, under the invariants, as the descriptors it does not cover. -/

namespace Sys2Proof.Machine

/-! ## Words -/

/-- R182: the wire form as a word. -/
theorem wrap_eq_ofNat (n : Quad) (isn : Word) : wrap n isn = BitVec.ofNat 32 ((isn.toNat + n.toNat) % 2 ^ 32) := by
  rw [← wrap_toNat, BitVec.ofNat_toNat, BitVec.setWidth_eq]

/-- R76: a window operand of 16 bits is accepted. -/
theorem windowOperandBad_of_lt {w : Word} (h : w.toNat < 2 ^ 16) : windowOperandBad w = false := by
  have hhigh : w.extractLsb' 16 16 = 0#16 := by
    apply BitVec.eq_of_toNat_eq
    rw [BitVec.extractLsb'_toNat, Nat.shiftRight_eq_div_pow, Nat.div_eq_of_lt h]
    rfl
  rw [windowOperandBad, hhigh]
  rfl

/-- R192: an expiry with nothing outstanding asks for no retransmission. -/
theorem expiryWords_of_nil {t : Timer} (h : t.outq = []) :
    expiryWords t = [0x00000001#32, 0x00000000#32, 0x00000000#32, 0x00000000#32, 0x00000000#32] := by
  rw [expiryWords, h]
  rfl

/-- R192: an expiry asks for the oldest outstanding segment. -/
theorem expiryWords_of_cons {t : Timer} {d : Desc} {ds : List Desc} (h : t.outq = d :: ds) :
    expiryWords t = [0x00000003#32, BitVec.ofNat 32 ((t.isn.toNat + d.absSeqno.toNat) % 2 ^ 32),
      d.absSeqno.extractLsb' 0 32, d.absSeqno.extractLsb' 32 32, BitVec.ofNat 32 d.len.toNat] := by
  rw [← wrap_eq_ofNat, BitVec.ofNat_toNat, expiryWords, h]
  rfl

/-! ## The queue (R188) -/

/-- The descriptors that an acknowledgement of `ack` covers wholly, up to the first one that it does not. -/
def ackedPrefix (ack : Nat) (q : List Desc) : List Desc := q.takeWhile fun d => d.absSeqno.toNat + d.len.toNat ≤ ack

/-- The descriptors from the first one on that an acknowledgement of `ack` does not cover wholly. -/
def unackedRest (ack : Nat) (q : List Desc) : List Desc := q.dropWhile fun d => d.absSeqno.toNat + d.len.toNat ≤ ack

theorem ackedPrefix_append_unackedRest (ack : Nat) (q : List Desc) : ackedPrefix ack q ++ unackedRest ack q = q :=
  List.takeWhile_append_dropWhile

theorem popAcked_eq_split (ack : Nat) (q : List Desc) (outb : Nat) :
    popAcked ack q outb 0 = (unackedRest ack q, outb - sumLen (ackedPrefix ack q), (ackedPrefix ack q).length) := by
  rw [popAcked_eq, Nat.zero_add]
  rfl

/-- R186 to R189: a fresh acknowledgement, by the two parts of the queue. -/
theorem freshAck_eq (t : Timer) (ack : Quad) (window : BitVec 16) :
    t.freshAck ack window =
      { t with
        window := window
        lastAckno := ack
        outq := unackedRest ack.toNat t.outq
        outb := BitVec.ofNat 64 (t.outb.toNat - sumLen (ackedPrefix ack.toNat t.outq))
        rto := t.initRto
        timer := 0#32
        running := !(unackedRest ack.toNat t.outq).isEmpty
        consec := 0#32 } := by
  rw [Timer.freshAck, popAcked_eq_split]

theorem ackPops_eq (t : Timer) (ack : Quad) : t.ackPops ack = (ackedPrefix ack.toNat t.outq).length := by
  rw [Timer.ackPops, popAcked_eq_split]

/-- R188: contiguous descriptors end in order, so the covered ones are a prefix. -/
theorem Contiguous.filter_acked {stop : Nat} {q : List Desc} (h : Contiguous stop q) (ack : Nat) :
    (q.filter fun d => d.absSeqno.toNat + d.len.toNat ≤ ack) = ackedPrefix ack q ∧
      (q.filter fun d => ¬ (d.absSeqno.toNat + d.len.toNat ≤ ack)) = unackedRest ack q := by
  have hcovered : ∀ d ∈ ackedPrefix ack q, d.absSeqno.toNat + d.len.toNat ≤ ack :=
    fun d hd => by simpa using List.mem_takeWhile_imp hd
  have hrest : ∀ d ∈ unackedRest ack q, ¬ (d.absSeqno.toNat + d.len.toNat ≤ ack) :=
    fun d hd => Nat.not_le.mpr (h.lt_stop_of_mem_dropWhile hd)
  constructor
  · conv_lhs => rw [← ackedPrefix_append_unackedRest ack q]
    rw [List.filter_append, List.filter_eq_self.mpr (by simpa using hcovered),
      List.filter_eq_nil_iff.mpr (by simpa using hrest), List.append_nil]
  · conv_lhs => rw [← ackedPrefix_append_unackedRest ack q]
    rw [List.filter_append, List.filter_eq_nil_iff.mpr (by simpa using hcovered),
      List.filter_eq_self.mpr (by simpa using hrest), List.nil_append]

/-- R32, R188: the bytes outstanding without the popped ones are those of the descriptors left. -/
theorem TimerOk.outb_sub_sumLen_ackedPrefix {p : Params} {t : Timer} (h : TimerOk p t) (ack : Nat) :
    t.outb.toNat - sumLen (ackedPrefix ack t.outq) = sumLen (unackedRest ack t.outq) := by
  have hsum := congrArg sumLen (ackedPrefix_append_unackedRest ack t.outq)
  rw [sumLen_append, ← h.outbEq] at hsum
  omega

/-! ## Responses -/

theorem exec_tInit (isn rto mx : Word) (s : State) :
    exec (.tInit isn rto mx) s =
      .next (({ s with
        t := { Timer.reset with isn := isn, initRto := rto, maxRetx := mx, rto := rto }
        cfgd := cfgdWith .timer s } : State).respond ⟨0x40000000#32, []⟩) :=
  complete_words (opcode := 0x40#8) (by decide) _ _

section

variable {s : State}

/-- R197: a segment that no check refuses is recorded. -/
theorem exec_tSent {len : BitVec 16} (hcfg : configured .timer s = true) (hpos : len ≠ 0#16)
    (hroom : s.t.outq.length < s.params.nOut.toNat) (hfit : s.t.nextSeqno.toNat + len.toNat < 2 ^ 64) :
    exec (.tSent len) s =
      .next (({ s with t := s.t.record len } : State).respond
        ⟨0x41000000#32, wrap s.t.nextSeqno s.t.isn :: quadWords s.t.nextSeqno⟩) := by
  simp only [exec, execTSent, hcfg, hpos, Bool.not_true, Bool.false_eq_true, if_false, if_neg (Nat.not_le.mpr hroom),
    if_neg (Nat.not_le.mpr hfit)]
  exact complete_words (opcode := 0x41#8) (by decide) _ _

/-- R198: the three outcomes of an acknowledgement that no check refuses. -/
theorem exec_tAck {ackno window : Word} {ack : Quad} (hcfg : configured .timer s = true) (hwindow : window.toNat < 2 ^ 16)
    (hack : unwrap ackno s.t.isn s.t.lastAckno = some ack) :
    exec (.tAck ackno window) s =
      if s.t.nextSeqno.toNat < ack.toNat then .next (s.respond ⟨0x42000000#32, [0x00000000#32, 0x00000000#32]⟩)
      else if ack.toNat ≤ s.t.lastAckno.toNat then
        .next (({ s with t := { s.t with window := windowOperand window } } : State).respond
          ⟨0x42000000#32, [0x00000001#32, 0x00000000#32]⟩)
      else
        .next (({ s with t := s.t.freshAck ack (windowOperand window) } : State).respond
          ⟨0x42000000#32, [0x00000001#32, BitVec.ofNat 32 (s.t.ackPops ack)]⟩) := by
  have hheader : respHeader (Instr.tAck ackno window).opcode .ok 0 = 0x42000000#32 := by
    rw [Instr.opcode]
    decide
  simp only [exec, execTAck, hcfg, windowOperandBad_of_lt hwindow, hack, Bool.not_true, Bool.false_eq_true, if_false,
    complete_words hheader]
  rfl

/-- R190: time does not pass for a stopped timer. -/
theorem exec_tTick_of_stopped (hcfg : configured .timer s = true) (hstop : s.t.running = false) (ms : Word) :
    exec (.tTick ms) s = .next (s.respond
      ⟨0x43000000#32, [0x00000000#32, 0x00000000#32, 0x00000000#32, 0x00000000#32, 0x00000000#32]⟩) := by
  simp only [exec, execTTick, hcfg, hstop, Bool.not_true, Bool.not_false, Bool.false_eq_true, if_false, if_true]
  exact complete_words (opcode := 0x43#8) (by decide) _ _

/-- R191, R192: a running timer is advanced, or expires when that reaches the RTO. -/
theorem exec_tTick_of_running (hcfg : configured .timer s = true) (hrun : s.t.running = true) (ms : Word) :
    exec (.tTick ms) s =
      if s.t.rto.toNat ≤ s.t.timer.toNat + ms.toNat then
        .next (({ s with t := s.t.expire } : State).respond ⟨0x43000000#32, expiryWords s.t⟩)
      else
        .next (({ s with t := { s.t with timer := s.t.advanced ms } } : State).respond
          ⟨0x43000000#32, [0x00000000#32, 0x00000000#32, 0x00000000#32, 0x00000000#32, 0x00000000#32]⟩) := by
  have hheader : respHeader (Instr.tTick ms).opcode .ok 0 = 0x43000000#32 := by
    rw [Instr.opcode]
    decide
  simp only [exec, execTTick, hcfg, hrun, expires_iff, Bool.not_true, Bool.false_eq_true, if_false,
    complete_words hheader]

theorem exec_tSeqno (hcfg : configured .timer s = true) :
    exec .tSeqno s = .next (s.respond ⟨0x44000000#32, [wrap s.t.nextSeqno s.t.isn]⟩) :=
  (if_neg (by simp [hcfg])).trans (complete_words (opcode := 0x44#8) (by decide) _ s)

end

/-! ## The statements -/

/-- Settles O33: the third outcome of `exec_tAck`, with the queue as `freshAck_eq` splits it. -/
theorem tAckFreshPopsTheCoveredPrefix : Obligations.TAckFreshPopsTheCoveredPrefix := by
  unfold Obligations.TAckFreshPopsTheCoveredPrefix
  intro ackno window ack s hcfg hwindow hack hsent hfresh
  rw [exec_tAck hcfg hwindow hack, if_neg (Nat.not_lt.mpr hsent), if_neg (Nat.not_le.mpr hfresh), freshAck_eq, ackPops_eq]
  rfl

/-- Settles O34: the loop pops a prefix, which by `Contiguous.filter_acked` is all that is covered. -/
theorem poppedDescriptorsAreExactlyTheCovered : Obligations.PoppedDescriptorsAreExactlyTheCovered := by
  unfold Obligations.PoppedDescriptorsAreExactlyTheCovered
  intro p t ack h
  obtain ⟨hcovered, hrest⟩ := h.contiguous.filter_acked ack
  rw [hcovered, hrest, popAcked_eq_split]
  exact ⟨rfl, h.outb_sub_sumLen_ackedPrefix ack, rfl⟩

/-- Settles O30: the registers R196 does not set from an operand are those of reset. -/
theorem tInitConstructsTheSender : Obligations.TInitConstructsTheSender := by
  unfold Obligations.TInitConstructsTheSender
  exact fun isn rto mx s => ⟨decode_of_encode (o := 0x40#8) rfl rfl (by decide), exec_tInit isn rto mx s⟩

/-- Settles O31: the new state is `Timer.record`. -/
theorem tSentRecordsTheSegment : Obligations.TSentRecordsTheSegment := by
  unfold Obligations.TSentRecordsTheSegment
  intro len s hcfg hpos hroom hfit
  rw [exec_tSent hcfg hpos hroom hfit, wrap_eq_ofNat]
  rfl

/-- Settles O32: the first two outcomes of `exec_tAck`. -/
theorem tAckInvalidAndStale : Obligations.TAckInvalidAndStale := by
  unfold Obligations.TAckInvalidAndStale
  intro ackno window ack s hcfg hwindow hack
  rw [exec_tAck hcfg hwindow hack]
  refine ⟨fun hunsent => if_pos hunsent, fun hsent hstale => ?_⟩
  rw [if_neg (Nat.not_lt.mpr hsent), if_pos hstale]
  rfl

/-- Settles O35: below the RTO the saturation of the advanced timer is invisible (`advanced_of_not_expires`); at it, the
new state is `Timer.expire`, whatever the queue. -/
theorem tTickAdvancesOrExpiresAndBacksOff : Obligations.TTickAdvancesOrExpiresAndBacksOff := by
  unfold Obligations.TTickAdvancesOrExpiresAndBacksOff
  intro ms s t hcfg ht
  have ht : t = { s with t := s.t.expire } := ht
  refine ⟨fun hstop => exec_tTick_of_stopped hcfg hstop ms, fun hrun hbelow => ?_, fun hrun hreached => ?_⟩
  · rw [exec_tTick_of_running hcfg hrun, if_neg (Nat.not_le.mpr hbelow), advanced_of_not_expires hbelow]
  · rw [exec_tTick_of_running hcfg hrun, if_pos hreached, ht]
    refine ⟨fun hnil => ?_, fun d ds hcons => ?_⟩
    · rw [expiryWords_of_nil hnil]
    · rw [expiryWords_of_cons hcons]

/-- Settles O36: the word is `wrap`. -/
theorem tSeqnoAnswersTheNextNumber : Obligations.TSeqnoAnswersTheNextNumber := by
  unfold Obligations.TSeqnoAnswersTheNextNumber
  intro s hcfg
  rw [exec_tSeqno hcfg, wrap_eq_ofNat]

end Sys2Proof.Machine

/-! # Unit A

R220 to R247: what each command of the unit answers in a configured state, one equation per state of the looked-up entry.
Then the statements, whose hypotheses choose the branch. -/

namespace Sys2Proof.Machine

/-! ## Operands -/

/-- R12: the number two words stand for, high word first. -/
theorem quad_toNat (hi lo : Word) : (hi ++ lo : Quad).toNat = hi.toNat * 2 ^ 32 + lo.toNat := by
  rw [BitVec.toNat_append, ← Nat.shiftLeft_add_eq_or_of_lt lo.isLt, Nat.shiftLeft_eq]

/-- R76: an address operand has 48 bits exactly when its high word has 16. -/
theorem quad_lt_iff (hi lo : Word) : (hi ++ lo : Quad).toNat < 2 ^ 48 ↔ hi.toNat < 2 ^ 16 := by
  have hlo := lo.isLt
  rw [quad_toNat]
  omega

theorem ethOperand_eq_ofNat (q : Quad) : ethOperand q = BitVec.ofNat 48 q.toNat := by
  apply BitVec.eq_of_toNat_eq
  rw [ethOperand, BitVec.extractLsb'_toNat, Nat.shiftRight_zero, BitVec.toNat_ofNat]

/-- R230: a message is accepted for its target or for its sender. -/
theorem arpAccepts_iff (a : Arp) (sip tip : IpAddr) :
    arpAccepts a sip tip = true ↔ tip = a.ip ∨ ∃ e ∈ a.tab, e.ip = sip := by
  rw [arpAccepts, Bool.or_eq_true, arpLookup_isSome_iff, beq_iff_eq]

/-! ## Stores -/

/-- R224: with one entry per address, a resend moves the expiry of that address's entries. -/
theorem resend_tab_eq_map {a : Arp} {e : ArpEntry} (hd : (a.tab.map ArpEntry.ip).Nodup) (he : e ∈ a.tab)
    (dgram : List Byte) :
    (a.resend e e.ip dgram).tab = a.tab.map fun x =>
      if x.ip = e.ip then ⟨x.ip, x.eth, x.reachable, BitVec.ofNat 64 (x.expire.toNat + 5000)⟩ else x := by
  rw [arpResend_tab, arpUpdate_eq_map _ _ hd]
  refine List.map_congr_left fun x hx => ?_
  by_cases hip : x.ip = e.ip
  · obtain rfl : x = e := List.inj_on_of_nodup_map hd hx he hip
    rw [if_pos rfl, if_pos rfl]
    rfl
  · rw [if_neg hip, if_neg hip]

/-- R231: with one entry per address, learning overwrites in place or appends. -/
theorem learn_eq {a : Arp} (hd : (a.tab.map ArpEntry.ip).Nodup) (ip : IpAddr) (eth : EthAddr) :
    learn a ip eth =
      if ∃ e ∈ a.tab, e.ip = ip then
        a.tab.map fun e => if e.ip = ip then ⟨ip, eth, true, expiryAt a Config.arpStale⟩ else e
      else a.tab ++ [⟨ip, eth, true, expiryAt a Config.arpStale⟩] := by
  rw [learn]
  cases hlookup : arpLookup a.tab ip with
  | none => rw [if_neg (by simpa using (arpLookup_eq_none_iff _ _).mp hlookup)]
  | some e => rw [if_pos ⟨e, arpLookup_some hlookup⟩, arpUpdate_eq_map _ _ hd]

/-- R233: what is not flushed. -/
theorem filter_pend_ne (pend : List Pending) (ip : IpAddr) :
    (pend.filter fun p => p.ip != ip) = pend.filter fun p => p.ip ≠ ip :=
  List.filter_congr fun p _ => (decide_not (p := p.ip = ip)).symm

theorem arpFlags_learned (op : ArpOp) : arpFlags true (op = .request) = if op = .request then 3#32 else 1#32 := by
  cases op <;> rfl

/-! ## Responses -/

theorem exec_aInit_of_bad {eth : Quad} (h : 2 ^ 48 ≤ eth.toNat) (ip : IpAddr) (s : State) :
    exec (.aInit eth ip) s = .next (s.respond ⟨0x50030000#32, []⟩) := by
  have hbad : ethOperandBad eth = true := by
    rw [← Bool.not_eq_false, ethOperandBad_eq_false_iff]
    omega
  exact (if_pos hbad).trans (refuse_header (opcode := 0x50#8) (st := .errArg) (by decide) s)

theorem exec_aInit_of_good {eth : Quad} (h : eth.toNat < 2 ^ 48) (ip : IpAddr) (s : State) :
    exec (.aInit eth ip) s =
      .next (({ s with a := { Arp.reset with eth := ethOperand eth, ip := ip }, cfgd := cfgdWith .arp s } :
        State).respond ⟨0x50000000#32, []⟩) :=
  (if_neg (by simp [(ethOperandBad_eq_false_iff eth).mpr h])).trans
    (complete_words (opcode := 0x50#8) (by decide) _ _)

theorem refuse_aSend_full (s : State) : refuse 0x51#8 .errFull s = .next (s.respond ⟨0x51050000#32, []⟩) :=
  refuse_header (by decide) s

theorem complete_aSend (words : List Word) (s : State) :
    complete 0x51#8 words [] s = .next (s.respond ⟨0x51000000#32, words⟩) :=
  complete_words (by decide) words s

section

variable {s : State}

theorem exec_aSend_of_not_configured (hcfg : configured .arp s = false) (ip : IpAddr) (dgram : List Byte) :
    exec (.aSend ip dgram) s = .next (s.respond ⟨0x51020000#32, []⟩) :=
  (if_pos (by simp [hcfg])).trans (refuse_header (opcode := 0x51#8) (st := .errNoCfg) (by decide) s)

/-- R223: a next hop without an entry. -/
theorem exec_aSend_of_none {ip : IpAddr} (hcfg : configured .arp s = true) (hnone : arpLookup s.a.tab ip = none)
    (dgram : List Byte) :
    exec (.aSend ip dgram) s =
      if s.a.pend.length ≥ s.params.nPend.toNat ∨ s.a.outf.length ≥ s.params.nFrame.toNat
          ∨ s.a.tab.length ≥ s.params.nArp.toNat then .next (s.respond ⟨0x51050000#32, []⟩)
      else .next (({ s with a := s.a.miss ip dgram } : State).respond ⟨0x51000000#32, [0x00000000#32]⟩) := by
  simp only [exec, execASend, hcfg, hnone, Bool.not_true, Bool.false_eq_true, if_false,
    Instr.opcode, refuse_aSend_full, complete_aSend]

/-- R224: a next hop whose entry is pending. -/
theorem exec_aSend_of_pending {ip : IpAddr} {e : ArpEntry} (hcfg : configured .arp s = true)
    (hsome : arpLookup s.a.tab ip = some e) (hpending : e.reachable = false) (dgram : List Byte) :
    exec (.aSend ip dgram) s =
      if s.a.pend.length ≥ s.params.nPend.toNat
          ∨ (e.expire.toNat ≤ s.a.now.toNat ∧ s.a.outf.length ≥ s.params.nFrame.toNat) then
        .next (s.respond ⟨0x51050000#32, []⟩)
      else if e.expire.toNat ≤ s.a.now.toNat then
        .next (({ s with a := s.a.resend e ip dgram } : State).respond ⟨0x51000000#32, [0x00000002#32]⟩)
      else
        .next (({ s with a := { s.a with pend := s.a.pend ++ [⟨ip, dgram⟩] } } : State).respond
          ⟨0x51000000#32, [0x00000001#32]⟩) := by
  simp only [exec, execASend, hcfg, hsome, hpending, Bool.not_true, Bool.not_false, Bool.false_eq_true, if_false,
    if_true, Instr.opcode, refuse_aSend_full, complete_aSend]

/-- R226: a next hop whose address is known. -/
theorem exec_aSend_of_reachable {ip : IpAddr} {e : ArpEntry} (hcfg : configured .arp s = true)
    (hsome : arpLookup s.a.tab ip = some e) (hreachable : e.reachable = true) (dgram : List Byte) :
    exec (.aSend ip dgram) s =
      if s.a.outf.length ≥ s.params.nFrame.toNat then .next (s.respond ⟨0x51050000#32, []⟩)
      else
        .next (({ s with a := { s.a with outf := s.a.outf ++ [ipFrame s.a e.eth dgram] } } : State).respond
          ⟨0x51000000#32, [0x00000003#32]⟩) := by
  simp only [exec, execASend, hcfg, hsome, hreachable, Bool.not_true, Bool.false_eq_true, if_false,
    Instr.opcode, refuse_aSend_full, complete_aSend]

/-- R228: a datagram is delivered when it passes the filter and was parsed. -/
theorem exec_aRecvIp {dst : Quad} (hcfg : configured .arp s = true) (hdst : dst.toNat < 2 ^ 48) (ok : Bool) :
    exec (.aRecvIp ok dst) s = .next (s.respond
      ⟨0x52000000#32, [boolWord (ok && arpForUs s.a (ethOperand dst))]⟩) := by
  simp only [exec, execARecvIp, hcfg, (ethOperandBad_eq_false_iff dst).mpr hdst, Bool.not_true, Bool.false_eq_true,
    if_false, complete_words (opcode := 0x52#8) (h := 0x52000000#32) (by decide), Instr.opcode]
  cases arpForUs s.a (ethOperand dst)
  · rw [Bool.and_false]
    rfl
  · rw [Bool.and_true]
    rfl

/-- R227, R229, R230: a message is dropped by the filter, the parser or the arbitration, or it is for the unit to take. -/
theorem exec_aRecvArp {dst seth teth : Quad} (hcfg : configured .arp s = true) (hdst : dst.toNat < 2 ^ 48)
    (hseth : seth.toNat < 2 ^ 48) (hteth : teth.toNat < 2 ^ 48) (ok : Bool) (op : ArpOp) (sip tip : IpAddr) :
    exec (.aRecvArp ok op dst sip seth tip teth) s =
      if arpForUs s.a (ethOperand dst) = true ∧ ok = true ∧ arpAccepts s.a sip tip = true then
        if s.a.outf.length + (arpEmits s.a op sip (ethOperand seth)).length > s.params.nFrame.toNat
            ∨ ((arpLookup s.a.tab sip).isNone ∧ s.a.tab.length ≥ s.params.nArp.toNat) then
          .next (s.respond ⟨0x53050000#32, []⟩)
        else
          .next (({ s with a := s.a.accept op sip (ethOperand seth) } : State).respond
            ⟨0x53000000#32, [arpFlags true (op = .request), natWord (pendingFor s.a.pend sip).length]⟩)
      else .next (s.respond ⟨0x53000000#32, [0x00000000#32, 0x00000000#32]⟩) := by
  simp only [exec, execARecvArp, hcfg, (ethOperandBad_eq_false_iff dst).mpr hdst,
    (ethOperandBad_eq_false_iff seth).mpr hseth, (ethOperandBad_eq_false_iff teth).mpr hteth, Bool.not_true,
    Bool.false_eq_true, or_self, if_false, Bool.not_eq_true',
    refuse_header (opcode := 0x53#8) (st := .errFull) (h := 0x53050000#32) (by decide),
    complete_words (opcode := 0x53#8) (h := 0x53000000#32) (by decide), Instr.opcode]
  cases arpForUs s.a (ethOperand dst) with
  | false => simp
  | true =>
    cases ok with
    | false => simp
    | true => cases arpAccepts s.a sip tip <;> simp

theorem exec_aTick {ms : Word} (hcfg : configured .arp s = true)
    (hnow : s.a.now.toNat + ms.toNat ≤ 2 ^ 64 - 1 - 30000) :
    exec (.aTick ms) s = .next (({ s with a := s.a.tick ms } : State).respond
      ⟨0x54000000#32, [natWord (s.a.tab.length - (s.a.tick ms).tab.length)]⟩) := by
  rw [exec, execATick, if_neg (by simp [hcfg]),
    if_neg (show ¬ _ > 2 ^ 64 - 1 - Config.arpStale from Nat.not_lt.mpr hnow)]
  exact complete_words (opcode := 0x54#8) (by decide) _ _

theorem exec_aLookup_of_none {ip : IpAddr} (hcfg : configured .arp s = true) (hnone : arpLookup s.a.tab ip = none) :
    exec (.aLookup ip) s = .next (s.respond ⟨0x56000000#32, [0#32, 0#32, 0#32, 0#32, 0#32]⟩) := by
  simp only [exec, execALookup, hcfg, hnone, Bool.not_true, Bool.false_eq_true, if_false]
  exact complete_words (opcode := 0x56#8) (by decide) _ _

theorem exec_aLookup_of_some {ip : IpAddr} {e : ArpEntry} (hcfg : configured .arp s = true)
    (hsome : arpLookup s.a.tab ip = some e) :
    exec (.aLookup ip) s = .next (s.respond ⟨0x56000000#32,
      (if e.reachable then 2#32 :: ethWords e.eth else [1#32, 0#32, 0#32]) ++ quadWords e.expire⟩) := by
  simp only [exec, execALookup, hcfg, hsome, Bool.not_true, Bool.false_eq_true, if_false]
  cases e.reachable
  · exact complete_words (opcode := 0x56#8) (by decide) _ _
  · exact complete_words (opcode := 0x56#8) (by decide) _ _

end

/-! ## A.SEND -/

/-- Settles O39: the entry is the one the lookup finds, so the command takes the arm of its state. -/
theorem aSendWithAnEntryQueuesResendsOrEmits : Obligations.ASendWithAnEntryQueuesResendsOrEmits := by
  unfold Obligations.ASendWithAnEntryQueuesResendsOrEmits
  intro dgram e s hcfg hd he
  have hsome := arpLookup_of_mem hd he
  refine ⟨fun hpending hlive hpend => ?_, fun hpending hexpired _ hpend houtf => ?_, fun hreachable houtf => ?_⟩
  · rw [exec_aSend_of_pending hcfg hsome hpending, if_neg (by omega), if_neg (by omega)]
  · rw [exec_aSend_of_pending hcfg hsome hpending, if_neg (by omega), if_pos hexpired,
      ← resend_tab_eq_map hd he dgram]
    rfl
  · rw [exec_aSend_of_reachable hcfg hsome hreachable, if_neg (by omega)]
    rfl

/-- R225: the outcome is a next state with one response, which is no resend's, and no entry the table had is changed. -/
def NoResend (s : State) (o : Host.Outcome State Fault Refusal) : Prop :=
  ∃ (t : State) (r : Frame), o = .next t ∧ t.rsp = s.rsp ++ [r] ∧ r.tail ≠ [0x00000002#32] ∧
    t.a.tab.take s.a.tab.length = s.a.tab

/-- A command that changes only unit A, and at most appends to its table, is no resend if its answer is not. -/
theorem noResend_of_append {s : State} {a : Arp} {new : List ArpEntry} {words : List Word} (htab : a.tab = s.a.tab ++ new)
    (hwords : words ≠ [0x00000002#32]) (h : Word) :
    NoResend s (.next (({ s with a := a } : State).respond ⟨h, words⟩)) :=
  ⟨_, _, rfl, rfl, hwords, by rw [respond_a, htab, List.take_left]⟩

theorem noResend_of_same_tab {s : State} {a : Arp} {words : List Word} (htab : a.tab = s.a.tab)
    (hwords : words ≠ [0x00000002#32]) (h : Word) :
    NoResend s (.next (({ s with a := a } : State).respond ⟨h, words⟩)) :=
  noResend_of_append (by rw [htab, List.append_nil]) hwords h

theorem noResend_of_refused (s : State) (h : Word) : NoResend s (.next (s.respond ⟨h, []⟩)) :=
  noResend_of_same_tab rfl (by simp) h

/-- Settles O40: an entry the lookup finds has not expired, so of the pending arms only the first is left. -/
theorem aSendResendArmIsDead : Obligations.ASendResendArmIsDead := by
  unfold Obligations.ASendResendArmIsDead
  intro ip dgram s hok
  show NoResend s _
  cases hcfg : configured .arp s with
  | false =>
    rw [exec_aSend_of_not_configured hcfg]
    exact noResend_of_refused s _
  | true =>
    cases hlookup : arpLookup s.a.tab ip with
    | none =>
      rw [exec_aSend_of_none hcfg hlookup]
      split
      · exact noResend_of_refused s _
      · exact noResend_of_append (arpMiss_tab ..) (by simp) _
    | some e =>
      cases hreachable : e.reachable with
      | false =>
        have hfresh := hok.fresh e (arpLookup_some hlookup).1
        rw [exec_aSend_of_pending hcfg hlookup hreachable, if_neg (Nat.not_le.mpr hfresh)]
        split
        · exact noResend_of_refused s _
        · exact noResend_of_same_tab (by rfl) (by simp) _
      | true =>
        rw [exec_aSend_of_reachable hcfg hlookup hreachable]
        split
        · exact noResend_of_refused s _
        · exact noResend_of_same_tab (by rfl) (by simp) _

/-- Settles O38: the new state is `Arp.miss`. -/
theorem aSendMissBroadcastsARequest : Obligations.ASendMissBroadcastsARequest := by
  unfold Obligations.ASendMissBroadcastsARequest
  intro ip dgram s hcfg hnone hpend houtf htab
  rw [exec_aSend_of_none hcfg ((arpLookup_eq_none_iff _ _).mpr hnone), if_neg (by omega)]
  rfl

/-! ## Received messages -/

/-- Settles O43: the new state is `Arp.accept`, whose table is `learn_eq`. -/
theorem aRecvArpLearnsRepliesAndFlushes : Obligations.ARecvArpLearnsRepliesAndFlushes := by
  unfold Obligations.ARecvArpLearnsRepliesAndFlushes
  intro op dst seth teth sip tip s q reply hcfg hdst hseth hteth hforUs haccepts hd hq hreply houtf htab
  have hflushed : pendingFor s.a.pend sip = q := hq.symm
  have hemits : arpEmits s.a op sip (ethOperand seth) = reply ++ q.map (ipFrame s.a (ethOperand seth)) := by
    rw [arpEmits, hflushed, hreply, ← ethOperand_eq_ofNat]
    rfl
  have hroom : ¬ (s.a.outf.length + (arpEmits s.a op sip (ethOperand seth)).length > s.params.nFrame.toNat
      ∨ ((arpLookup s.a.tab sip).isNone ∧ s.a.tab.length ≥ s.params.nArp.toNat)) := by
    rw [hemits, List.length_append, List.length_map, Option.isNone_iff_eq_none, arpLookup_eq_none_iff]
    rintro (hfull | ⟨hnone, hfull⟩)
    · omega
    · rcases htab with ⟨e, he, hip⟩ | hlt
      · exact hnone e he hip
      · omega
  rw [exec_aRecvArp hcfg hdst hseth hteth,
    if_pos ⟨(arpForUs_iff s.a hdst).mpr hforUs, rfl, (arpAccepts_iff s.a sip tip).mpr haccepts⟩, if_neg hroom,
    arpFlags_learned, hflushed, Arp.accept, learn_eq hd, hemits, filter_pend_ne, ← List.append_assoc,
    ethOperand_eq_ofNat]
  rfl

/-- Settles O42: each drop fails one of the three conditions of `exec_aRecvArp`. -/
theorem aRecvArpDropsTheUnaccepted : Obligations.ARecvArpDropsTheUnaccepted := by
  unfold Obligations.ARecvArpDropsTheUnaccepted
  intro ok op dst seth teth sip tip s hcfg hdst hseth hteth hdrop
  rw [exec_aRecvArp hcfg hdst hseth hteth, if_neg]
  rw [arpForUs_iff s.a hdst, arpAccepts_iff]
  rintro ⟨hforUs, hok, haccepts⟩
  rcases hdrop with hother | hbad | ⟨htarget, hsender⟩
  · omega
  · exact Bool.false_ne_true (hbad.symm.trans hok)
  · exact haccepts.elim htarget fun ⟨e, he, hip⟩ => hsender e he hip

/-- Settles O41: the filter is `arpForUs_iff`. -/
theorem aRecvIpDeliversWhatIsForUs : Obligations.ARecvIpDeliversWhatIsForUs := by
  unfold Obligations.ARecvIpDeliversWhatIsForUs
  intro ok lo hi s hcfg hhi
  have hdst := (quad_lt_iff hi lo).mpr hhi
  simp only [exec_aRecvIp hcfg hdst, boolWord, Bool.and_eq_true, arpForUs_iff s.a hdst, quad_toNat]

/-! ## The other commands -/

/-- Settles O37: the clauses are R76's check of the operand. -/
theorem aInitConstructsTheInterface : Obligations.AInitConstructsTheInterface := by
  unfold Obligations.AInitConstructsTheInterface
  intro lo hi ip s
  have henc : encode (.aInit (hi ++ lo) ip) = ⟨mkHeader 0x50#8 0#4 0#4 0#16, [lo, hi, ip]⟩ := by
    simp only [encode, Instr.operands, quadWords_append]
    rfl
  refine ⟨decode_of_encode rfl henc (by decide), fun hbad => ?_, fun hgood => ?_⟩
  · exact exec_aInit_of_bad (Nat.not_lt.mp ((quad_lt_iff hi lo).not.mpr (Nat.not_lt.mpr hbad))) ip s
  · rw [exec_aInit_of_good ((quad_lt_iff hi lo).mpr hgood), ethOperand_eq_ofNat, quad_toNat]
    rfl

/-- Settles O44: what is not kept is evicted. -/
theorem aTickEvictsTheExpired : Obligations.ATickEvictsTheExpired := by
  unfold Obligations.ATickEvictsTheExpired
  intro ms s hcfg hnow
  have hsplit := s.a.tab.length_eq_length_filter_add fun e => s.a.now.toNat + ms.toNat < e.expire.toNat
  have hevicted : s.a.tab.length - (s.a.tick ms).tab.length =
      (s.a.tab.filter fun e => e.expire.toNat ≤ s.a.now.toNat + ms.toNat).length := by
    simp only [← decide_not, Nat.not_lt] at hsplit
    rw [arpTick_tab, hsplit, Nat.add_sub_cancel_left]
  rw [exec_aTick hcfg hnow, hevicted]
  rfl

/-- Settles O46: the entry is the one the lookup finds. -/
theorem aLookupShowsTheEntry : Obligations.ALookupShowsTheEntry := by
  unfold Obligations.ALookupShowsTheEntry
  intro ip s hcfg hd
  refine ⟨fun hnone => ?_, fun e he hip hpending => ?_, fun e he hip hreachable => ?_⟩
  · exact exec_aLookup_of_none hcfg ((arpLookup_eq_none_iff _ _).mpr hnone)
  · rw [exec_aLookup_of_some hcfg (hip ▸ arpLookup_of_mem hd he), hpending]
    rfl
  · rw [exec_aLookup_of_some hcfg (hip ▸ arpLookup_of_mem hd he), hreachable, ethWords_eq]
    rfl

end Sys2Proof.Machine

/-! # The system commands

R271 and R273: NOP and SRESET complete in every state, without a result word. All legal frames with one header are equally
long, since the header alone selects the row and its word count (R79). -/

namespace Sys2Proof

/-- R72, R79: the header of a legal frame fixes the frame's length. -/
theorem length_tail_of_decode {h : Word} {tail tail' : List Word} {i i' : Instr} (hd : decode ⟨h, tail⟩ = .ok i)
    (hd' : decode ⟨h, tail'⟩ = .ok i') : tail'.length = tail.length := by
  obtain ⟨row, hrow, -, hlen, -⟩ := decode_ok_cases hd
  obtain ⟨row', hrow', -, hlen', -⟩ := decode_ok_cases hd'
  obtain rfl : row = row' := Option.some.inj (hrow.symm.trans hrow')
  exact hlen'.trans hlen.symm

/-- R80: a frame of another length than a legal frame with the same header is illegal. -/
theorem decode_error_of_length_ne {h : Word} {tail tail' : List Word} {i : Instr} (hd : decode ⟨h, tail⟩ = .ok i)
    (hne : tail'.length ≠ tail.length) : ∃ e, decode ⟨h, tail'⟩ = .error e := by
  rw [decode_error_iff]
  rintro ⟨i', hd'⟩
  exact hne (length_tail_of_decode hd hd')

end Sys2Proof

namespace Sys2Proof.Machine

theorem decode_nop : decode ⟨0x00000000#32, []⟩ = .ok .nop :=
  decode_of_encode (o := 0x00#8) rfl rfl (by decide)

theorem exec_nop (s : State) : exec .nop s = .next (s.respond ⟨0x00000000#32, []⟩) :=
  complete_words (opcode := 0x00#8) (by decide) [] s

/-- R273: the response leaves in the state after the reset. -/
theorem exec_sreset (s : State) : exec .sreset s = .next (s.reinit.respond ⟨0x02000000#32, []⟩) :=
  complete_words (opcode := 0x02#8) (by decide) [] s.reinit

/-- Settles O10: the one-word frame is NOP's encoding, which rules out every longer frame of its header. -/
theorem nopChangesNothing : Obligations.NopChangesNothing := by
  unfold Obligations.NopChangesNothing
  exact ⟨decode_nop, fun w ws => decode_error_of_length_ne decode_nop (Nat.succ_ne_zero ws.length), exec_nop⟩

/-- Settles O12: the state of `State.reinit`, its reset values written out. -/
theorem sresetRestoresTheResetState : Obligations.SresetRestoresTheResetState := by
  unfold Obligations.SresetRestoresTheResetState
  intro s
  rw [exec_sreset]
  rfl

end Sys2Proof.Machine

/-! # Refusals

R290, R291: the third inversion of `exec`, beside its effects and its responses: a command that does not complete leaves the
state it found, so a response with a status other than OK comes with no effect. Then each check that refuses: the
configuration of a unit for all its commands at once, and the others one equation per command, in R293's order. -/

namespace Sys2Proof.Machine

/-! ## A refusal or a completion -/

/-- The two outcomes of a command on `s` (R291): a refusal of `s` as it was, or an OK response in any state. -/
inductive RefusesOrCompletes (s : State) : Host.Outcome State Fault Refusal → Prop
  | refused (opcode : BitVec 8) (st : Status) : RefusesOrCompletes s (.next (s.respond (refusalFrame opcode st)))
  | completed (opcode : BitVec 8) (words : List Word) (payload : List Byte) (u : State) :
      RefusesOrCompletes s (.next (u.respond (okFrame opcode words payload)))

theorem RefusesOrCompletes.ite {s : State} {o o' : Host.Outcome State Fault Refusal} {c : Prop} [Decidable c]
    (ht : RefusesOrCompletes s o) (hf : RefusesOrCompletes s o') : RefusesOrCompletes s (if c then o else o') := by
  split <;> assumption

/-- A command's check: refused where it fails, else what comes after it. -/
theorem RefusesOrCompletes.guard {s : State} {o : Host.Outcome State Fault Refusal} {c : Prop} [Decidable c]
    {opcode : BitVec 8} {st : Status} (h : RefusesOrCompletes s o) :
    RefusesOrCompletes s (if c then refuse opcode st s else o) :=
  .ite (.refused opcode st) h

theorem execASend_refusesOrCompletes (ip : IpAddr) (dgram : List Byte) (s : State) :
    RefusesOrCompletes s (execASend ip dgram s) := by
  refine .guard ?_
  cases arpLookup s.a.tab ip with
  | none => exact .guard (.completed ..)
  | some e => exact .ite (.guard (.ite (.completed ..) (.completed ..))) (.guard (.completed ..))

theorem execALookup_refusesOrCompletes (ip : IpAddr) (s : State) : RefusesOrCompletes s (execALookup ip s) := by
  refine .guard ?_
  cases arpLookup s.a.tab ip with
  | none => exact .completed ..
  | some e => exact .ite (.completed ..) (.completed ..)

theorem execTAck_refusesOrCompletes (ackno window : Word) (s : State) :
    RefusesOrCompletes s (execTAck ackno window s) := by
  refine .guard (.guard ?_)
  cases unwrap ackno s.t.isn s.t.lastAckno with
  | none => exact .refused ..
  | some ack => exact .ite (.completed ..) (.ite (.completed ..) (.completed ..))

/-- R291: no command refuses after it has changed something. -/
theorem exec_refusesOrCompletes (i : Instr) (s : State) : RefusesOrCompletes s (exec i s) := by
  cases i with
  | rdreg id =>
    rw [exec, execRdreg]
    cases readReg s id with
    | none => exact .refused ..
    | some v => exact .completed ..
  | wUnwrap w isn cp =>
    rw [exec, execWUnwrap]
    cases unwrap w isn cp with
    | none => exact .refused ..
    | some n => exact .completed ..
  | fWrite id data =>
    refine .guard (.guard ?_)
    cases s.f0.write data with
    | none => exact .refused ..
    | some p => exact .completed ..
  | rPush eof index data =>
    refine .guard (.guard ?_)
    cases pushData s index data with
    | none => exact .refused ..
    | some p => exact .completed ..
  | aPopF =>
    refine .guard ?_
    cases s.a.outf with
    | nil => exact .refused ..
    | cons f fs => exact .completed ..
  | tAck ackno window => exact execTAck_refusesOrCompletes ackno window s
  | aSend ip dgram => exact execASend_refusesOrCompletes ip dgram s
  | aLookup ip => exact execALookup_refusesOrCompletes ip s
  | nop | sreset | wAdd | wDiff | wWrap | tInit => exact .completed ..
  | fPeek | fPop | fSetErr | rInit | tSeqno | aInit => exact .guard (.completed ..)
  | fInit | fEnd | aTick => exact .guard (.guard (.completed ..))
  | tSent => exact .guard (.guard (.guard (.guard (.completed ..))))
  | tTick => exact .guard (.ite (.completed ..) (.ite (.completed ..) (.completed ..)))
  | aRecvIp => exact .guard (.guard (.ite (.completed ..) (.completed ..)))
  | aRecvArp =>
    exact .guard (.guard (.ite (.completed ..) (.ite (.completed ..) (.ite (.completed ..) (.guard (.completed ..))))))

/-- R80, R291: nor does a step on a command frame, legal or illegal. -/
theorem step_refusesOrCompletes {s : State} {fr : Frame} {rest : List Input} (hport : s.port = .command fr :: rest) :
    RefusesOrCompletes { s with port := rest } (step s) := by
  cases hdec : decode fr with
  | error e =>
    rw [step_of_illegal hport hdec]
    exact .refused ..
  | ok i =>
    rw [stepRunsTheDecodedCommand s fr rest i hport hdec]
    exact exec_refusesOrCompletes i _

/-- R290, R291: what the status of the response tells of the state. -/
theorem RefusesOrCompletes.of_status {s t : State} {r : Frame} (h : RefusesOrCompletes s (.next t))
    (hrsp : t.rsp = s.rsp ++ [r]) :
    (r.header.extractLsb' 16 8).toNat ≤ 7 ∧
      (r.header.extractLsb' 16 8 ≠ 0#8 → t = s.respond r ∧ r.tail = [] ∧ r.header.extractLsb' 0 16 = 0#16) := by
  cases h with
  | refused opcode st =>
    obtain rfl : refusalFrame opcode st = r := by simpa using hrsp
    rw [refusalFrame_header, respHeader_status]
    exact ⟨status_code_le st, fun _ => ⟨rfl, rfl, respHeader_rlen opcode st 0⟩⟩
  | completed opcode words payload u =>
    obtain rfl : okFrame opcode words payload = r := List.singleton_inj.mp (List.append_inj_right' hrsp rfl)
    rw [okFrame_header, respHeader_status]
    exact ⟨status_code_le .ok, fun hne => absurd rfl hne⟩

/-- Settles O8: the one response of `step_of_command`, by its status. -/
theorem refusalChangesNothing : Obligations.RefusalChangesNothing := by
  unfold Obligations.RefusalChangesNothing
  intro s fr rest hport
  obtain ⟨t, r, hstep, -, hrsp, -⟩ := step_of_command hport
  exact ⟨t, r, hstep, hrsp, (hstep ▸ step_refusesOrCompletes hport).of_status hrsp⟩

/-! ## The configuration of a unit -/

/-- R290: the check that comes first in every command of a unit, where it fails. -/
theorem refuse_of_not_configured {u : CfgUnit} {s : State} (hcfg : configured u s = false) (opcode : BitVec 8)
    (o : Host.Outcome State Fault Refusal) :
    (if !configured u s then refuse opcode .errNoCfg s else o) =
      .next (s.respond ⟨opcode ++ 0x02#8 ++ 0x0000#16, []⟩) :=
  if_pos (by rw [hcfg]; rfl)

/-- Settles O47: the check comes first in every one of the commands. -/
theorem unconfiguredUnitsRefuse : Obligations.UnconfiguredUnitsRefuse := by
  unfold Obligations.UnconfiguredUnitsRefuse
  intro i u s hcfg hunit
  cases i with
  | fWrite | fPeek | fPop | fEnd | fSetErr | rPush | tSent | tAck | tTick | tSeqno | aSend | aRecvIp | aRecvArp | aTick
  | aPopF | aLookup =>
    subst hunit
    exact refuse_of_not_configured hcfg _ _
  | nop | rdreg | sreset | wAdd | wDiff | wWrap | wUnwrap | fInit | rInit | tInit | aInit => exact hunit.elim

/-- The same check, where the unit is configured. -/
theorem ite_not_configured {u : CfgUnit} {s : State} (hcfg : configured u s = true)
    (o o' : Host.Outcome State Fault Refusal) : (if !configured u s then o else o') = o' :=
  if_neg (by simp [hcfg])

/-! ## Operands -/

theorem ethOperandBad_of_le {q : Quad} (h : 2 ^ 48 ≤ q.toNat) : ethOperandBad q = true := by
  rw [← Bool.not_eq_false, ethOperandBad_eq_false_iff]
  exact Nat.not_lt.mpr h

theorem windowOperandBad_of_le {w : Word} (h : 2 ^ 16 ≤ w.toNat) : windowOperandBad w = true := by
  refine decide_eq_true fun hhigh => ?_
  have hdiv := congrArg BitVec.toNat hhigh
  rw [BitVec.extractLsb'_toNat, Nat.shiftRight_eq_div_pow, BitVec.toNat_ofNat] at hdiv
  have := w.isLt
  omega

/-- R232, R233: the frames that an accepted message puts on `OUTF`. -/
theorem length_arpEmits (a : Arp) (op : ArpOp) (ip : IpAddr) (eth : EthAddr) :
    (arpEmits a op ip eth).length =
      (if op = .request then 1 else 0) + (a.pend.filter fun p => p.ip = ip).length := by
  rw [arpEmits, List.length_append, List.length_map, pendingFor, List.length_map]
  exact congrArg (· + _) (by split <;> rfl)

/-! ## One check of one command -/

section

variable {s : State}

theorem exec_fWrite_owner (hcfg : configured .reasm s = true) (data : List Byte) :
    exec (.fWrite .f1 data) s = .next (s.respond ⟨0x21040000#32, []⟩) :=
  (ite_not_configured hcfg _ _).trans (refuse_header (opcode := 0x21#8) (st := .errOwner) (by decide) s)

theorem exec_fEnd_owner (hcfg : configured .reasm s = true) :
    exec (.fEnd .f1) s = .next (s.respond ⟨0x24040000#32, []⟩) :=
  (ite_not_configured hcfg _ _).trans (refuse_header (opcode := 0x24#8) (st := .errOwner) (by decide) s)

theorem exec_rPush_of_overflow {index : Quad} {data : List Byte} (hcfg : configured .reasm s = true)
    (hover : 2 ^ 64 ≤ index.toNat + data.length) (eof : Bool) :
    exec (.rPush eof index data) s = .next (s.respond ⟨0x31070000#32, []⟩) :=
  (ite_not_configured hcfg _ _).trans <| (if_pos hover).trans <|
    refuse_header (opcode := 0x31#8) (st := .errRange) (by decide) s

theorem exec_tSent_zero (hcfg : configured .timer s = true) :
    exec (.tSent 0#16) s = .next (s.respond ⟨0x41030000#32, []⟩) :=
  (ite_not_configured hcfg _ _).trans (refuse_header (opcode := 0x41#8) (st := .errArg) (by decide) s)

theorem exec_tSent_of_full {len : BitVec 16} (hcfg : configured .timer s = true) (hpos : len ≠ 0#16)
    (hfull : s.params.nOut.toNat ≤ s.t.outq.length) :
    exec (.tSent len) s = .next (s.respond ⟨0x41050000#32, []⟩) :=
  (ite_not_configured hcfg _ _).trans <| (if_neg hpos).trans <| (if_pos hfull).trans <|
    refuse_header (opcode := 0x41#8) (st := .errFull) (by decide) s

theorem exec_tSent_of_overflow {len : BitVec 16} (hcfg : configured .timer s = true) (hpos : len ≠ 0#16)
    (hroom : s.t.outq.length < s.params.nOut.toNat) (hover : 2 ^ 64 ≤ s.t.nextSeqno.toNat + len.toNat) :
    exec (.tSent len) s = .next (s.respond ⟨0x41070000#32, []⟩) :=
  (ite_not_configured hcfg _ _).trans <| (if_neg hpos).trans <| (if_neg (Nat.not_le.mpr hroom)).trans <|
    (if_pos hover).trans <| refuse_header (opcode := 0x41#8) (st := .errRange) (by decide) s

theorem exec_tAck_of_wide {window : Word} (hcfg : configured .timer s = true) (hwide : 2 ^ 16 ≤ window.toNat)
    (ackno : Word) : exec (.tAck ackno window) s = .next (s.respond ⟨0x42030000#32, []⟩) :=
  (ite_not_configured hcfg _ _).trans <| (if_pos (windowOperandBad_of_le hwide)).trans <|
    refuse_header (opcode := 0x42#8) (st := .errArg) (by decide) s

theorem exec_tAck_of_none {ackno window : Word} (hcfg : configured .timer s = true) (hwindow : window.toNat < 2 ^ 16)
    (hack : unwrap ackno s.t.isn s.t.lastAckno = none) :
    exec (.tAck ackno window) s = .next (s.respond ⟨0x42070000#32, []⟩) := by
  rw [exec, execTAck, ite_not_configured hcfg, if_neg (by simp [windowOperandBad_of_lt hwindow]), hack]
  exact refuse_header (opcode := 0x42#8) (st := .errRange) (by decide) s

theorem exec_aRecvIp_of_wide {dst : Quad} (hcfg : configured .arp s = true) (hwide : 2 ^ 48 ≤ dst.toNat) (ok : Bool) :
    exec (.aRecvIp ok dst) s = .next (s.respond ⟨0x52030000#32, []⟩) :=
  (ite_not_configured hcfg _ _).trans <| (if_pos (ethOperandBad_of_le hwide)).trans <|
    refuse_header (opcode := 0x52#8) (st := .errArg) (by decide) s

theorem exec_aRecvArp_of_wide {dst seth teth : Quad} (hcfg : configured .arp s = true)
    (hwide : 2 ^ 48 ≤ dst.toNat ∨ 2 ^ 48 ≤ seth.toNat ∨ 2 ^ 48 ≤ teth.toNat) (ok : Bool) (op : ArpOp)
    (sip tip : IpAddr) :
    exec (.aRecvArp ok op dst sip seth tip teth) s = .next (s.respond ⟨0x53030000#32, []⟩) :=
  (ite_not_configured hcfg _ _).trans <|
    (if_pos (hwide.imp ethOperandBad_of_le (Or.imp ethOperandBad_of_le ethOperandBad_of_le))).trans <|
    refuse_header (opcode := 0x53#8) (st := .errArg) (by decide) s

theorem exec_aTick_of_overflow {ms : Word} (hcfg : configured .arp s = true)
    (hover : 2 ^ 64 - 1 - 30000 < s.a.now.toNat + ms.toNat) :
    exec (.aTick ms) s = .next (s.respond ⟨0x54070000#32, []⟩) :=
  (ite_not_configured hcfg _ _).trans <| (if_pos hover).trans <|
    refuse_header (opcode := 0x54#8) (st := .errRange) (by decide) s

theorem exec_aPopF_of_nil (hcfg : configured .arp s = true) (houtf : s.a.outf = []) :
    exec .aPopF s = .next (s.respond ⟨0x55060000#32, []⟩) := by
  rw [exec, execAPopF, ite_not_configured hcfg, houtf]
  exact refuse_header (opcode := 0x55#8) (st := .errEmpty) (by decide) s

/-- R222, R223: a miss needs room in all three stores. -/
theorem exec_aSend_miss_of_full {ip : IpAddr} (hcfg : configured .arp s = true) (hmiss : ∀ e ∈ s.a.tab, e.ip ≠ ip)
    (hfull : s.a.pend.length = s.params.nPend.toNat ∨ s.a.outf.length = s.params.nFrame.toNat ∨
      s.a.tab.length = s.params.nArp.toNat) (dgram : List Byte) :
    exec (.aSend ip dgram) s = .next (s.respond ⟨0x51050000#32, []⟩) := by
  rw [exec_aSend_of_none hcfg ((arpLookup_eq_none_iff _ _).mpr hmiss)]
  exact if_pos (hfull.imp Eq.ge (Or.imp Eq.ge Eq.ge))

/-- R224, R226: a pending entry needs room for the datagram and for a resend, a reachable one for the frame. -/
theorem exec_aSend_entry_of_full {e : ArpEntry} (hcfg : configured .arp s = true)
    (hd : (s.a.tab.map ArpEntry.ip).Nodup) (he : e ∈ s.a.tab)
    (hfull : (e.reachable = false ∧ s.a.pend.length = s.params.nPend.toNat) ∨
      (e.reachable = false ∧ e.expire.toNat ≤ s.a.now.toNat ∧ s.a.outf.length = s.params.nFrame.toNat) ∨
      (e.reachable = true ∧ s.a.outf.length = s.params.nFrame.toNat)) (dgram : List Byte) :
    exec (.aSend e.ip dgram) s = .next (s.respond ⟨0x51050000#32, []⟩) := by
  have hsome := arpLookup_of_mem hd he
  rcases hfull with ⟨hpending, hpend⟩ | ⟨hpending, hexpired, houtf⟩ | ⟨hreachable, houtf⟩
  · exact (exec_aSend_of_pending hcfg hsome hpending dgram).trans (if_pos (.inl hpend.ge))
  · exact (exec_aSend_of_pending hcfg hsome hpending dgram).trans (if_pos (.inr ⟨hexpired, houtf.ge⟩))
  · exact (exec_aSend_of_reachable hcfg hsome hreachable dgram).trans (if_pos houtf.ge)

/-- R235: an accepted message needs room for all its frames, and for its sender if that is new. -/
theorem exec_aRecvArp_of_full {dst seth teth : Quad} {op : ArpOp} {sip tip : IpAddr} (hcfg : configured .arp s = true)
    (hdst : dst.toNat < 2 ^ 48) (hseth : seth.toNat < 2 ^ 48) (hteth : teth.toNat < 2 ^ 48)
    (hforUs : dst.toNat = s.a.eth.toNat ∨ dst.toNat = 2 ^ 48 - 1) (haccepts : tip = s.a.ip ∨ ∃ e ∈ s.a.tab, e.ip = sip)
    (hfull : s.params.nFrame.toNat < s.a.outf.length + (if op = .request then 1 else 0)
          + (s.a.pend.filter (fun p => p.ip = sip)).length ∨
        ((∀ e ∈ s.a.tab, e.ip ≠ sip) ∧ s.a.tab.length = s.params.nArp.toNat)) :
    exec (.aRecvArp true op dst sip seth tip teth) s = .next (s.respond ⟨0x53050000#32, []⟩) := by
  rw [exec_aRecvArp hcfg hdst hseth hteth,
    if_pos ⟨(arpForUs_iff s.a hdst).mpr hforUs, rfl, (arpAccepts_iff s.a sip tip).mpr haccepts⟩, length_arpEmits,
    ← Nat.add_assoc]
  refine if_pos (hfull.imp_right fun ⟨hnew, htab⟩ => ⟨?_, htab.ge⟩)
  rwa [Option.isNone_iff_eq_none, arpLookup_eq_none_iff]

end

/-! ## The statements -/

/-- Settles O48: each clause is one check, whose earlier checks pass. -/
theorem configuredUnitsRefuseByTheirChecks : Obligations.ConfiguredUnitsRefuseByTheirChecks := by
  unfold Obligations.ConfiguredUnitsRefuseByTheirChecks
  intro s
  exact ⟨fun data hcfg => exec_fWrite_owner hcfg data, exec_fEnd_owner, exec_tSent_zero,
    fun ackno window hcfg hwide => exec_tAck_of_wide hcfg hwide ackno,
    fun len hcfg hpos hfull => exec_tSent_of_full hcfg hpos hfull.ge,
    fun ok dst hcfg hwide => exec_aRecvIp_of_wide hcfg hwide ok,
    fun ok op dst seth teth sip tip hcfg hwide => exec_aRecvArp_of_wide hcfg hwide ok op sip tip,
    fun ip dgram hcfg hmiss hfull => exec_aSend_miss_of_full hcfg hmiss hfull dgram,
    fun e dgram hcfg hd he hfull => exec_aSend_entry_of_full hcfg hd he hfull dgram,
    fun op dst seth teth sip tip => exec_aRecvArp_of_full,
    exec_aPopF_of_nil⟩

/-- Settles O49: each clause is one guard; T.ACK's is the guard of R104, by `unwrap_eq_none_iff`. -/
theorem rangeGuardsRefuse : Obligations.RangeGuardsRefuse := by
  unfold Obligations.RangeGuardsRefuse
  intro s
  exact ⟨fun eof index data hcfg hover => exec_rPush_of_overflow hcfg hover eof,
    fun len => exec_tSent_of_overflow,
    fun ackno window hcfg hwindow hlast hoffset =>
      exec_tAck_of_none hcfg hwindow ((unwrap_eq_none_iff _ _ _).mpr ⟨hlast, hoffset⟩),
    fun ms => exec_aTick_of_overflow⟩

end Sys2Proof.Machine

/-! # Waiting and the reset signal

The two steps of R320 that take no command frame. -/

namespace Sys2Proof.Machine

theorem step_of_nil {s : State} (hport : s.port = []) : step s = .next s := by
  simp only [step, takeInput_of_nil hport]

/-- Only the input that is taken separates the effect from `State.reinit`: the ports are no part of it. -/
theorem step_of_reset {s : State} {rest : List Input} (hport : s.port = .reset :: rest) :
    step s = .next ({ s with port := rest } : State).reinit := by
  simp only [step, takeInput_of_cons hport]

/-- Settles O6: with the later inputs in place, the state of the reset signal is that of `State.reinit`. -/
theorem stepWaitsAndResets : Obligations.StepWaitsAndResets := by
  unfold Obligations.StepWaitsAndResets
  exact ⟨fun _ => step_of_nil, fun _ _ => step_of_reset⟩

end Sys2Proof.Machine
